-- ==== Sys2Proof/Word.lean ====
section
/-! DEFINITION. The two word types of LZ4-MF: bytes (buffers and ports) and 32-bit words (command port, registers). -/

namespace Sys2Proof

/-- A byte of a buffer or of a port (R10). -/
abbrev Byte := BitVec 8

/-- A word of the command port (R70), a register or a response value (POS_W = 32, R7). -/
abbrev Word := BitVec 32

end Sys2Proof
end

