-- ==== Sys2Proof/Config.lean ====
section
/-! DEFINITION. The configuration of LZ4-MF (R7): the fixed constants, and the ten open parameters as one record of plain data.

The record stands in `State.cfg`, which no step changes, so that a statement about every state is a statement about every
configuration (log 1). A HASH or an H32 other than the spec's default is `other n`: an opaque function about which nothing can
be proved but what the rules say of every such function (log 7). -/

namespace Sys2Proof

/-- WINDOW_SIZE (R7): bytes of plaintext retained across dependent blocks. -/
abbrev Config.windowSize : Nat := 65536
/-- DICT_CAP (R7). -/
abbrev Config.dictCap : Nat := 65536
/-- BLOCK_MAX (R7): the maximum of a block-size class. -/
def Config.blockMax (k : BitVec 2) : Nat :=
  if k = 0#2 then 65536 else if k = 1#2 then 262144 else if k = 2#2 then 1048576 else 4194304
/-- WIN_CAP (R7) = WINDOW_SIZE + BLOCK_MAX[3]. -/
abbrev Config.winCap : Nat := 4259840
/-- MIN_MATCH (R7). -/
abbrev Config.minMatch : Nat := 4
/-- LAST_LITERALS (R7). -/
abbrev Config.lastLiterals : Nat := 5
/-- MAX_OFFSET (R7). -/
abbrev Config.maxOffset : Nat := 65535
/-- HASH_SEED (R7): the seed of every H32 instance. -/
abbrev Config.hashSeed : Word := 0#32

/-- The 4-byte prefix hash HASH (R7, R100). -/
inductive HashSel where
  /-- The default of R100: the multiplicative mix. -/
  | multiplicative
  /-- Any other function of the word (R100: 'no rule of this spec depends on which function it is'). -/
  | other (n : Nat)
  deriving DecidableEq, Repr

/-- The external hash H32 (R7, R12). -/
inductive H32Sel where
  /-- The intended instantiation of R12. -/
  | xxh32
  /-- Any other function of seed and bytes. -/
  | other (n : Nat)
  deriving DecidableEq, Repr

/-- The places of the five flags and of the reserved bit among FLG bits 5:0 (R88, open by D19). -/
structure FlgLayout where
  ind : Fin 6
  bck : Fin 6
  csz : Fin 6
  cck : Fin 6
  rsv : Fin 6
  did : Fin 6
  deriving DecidableEq, Repr

/-- The block descriptor bytes of the four classes (R89, open by D20). -/
structure BdCodes where
  c0 : Byte
  c1 : Byte
  c2 : Byte
  c3 : Byte
  deriving DecidableEq, Repr

/-- The open parameters of R7. -/
structure Config where
  /-- HASH_LOG (D6). -/
  hashLog : Nat
  /-- HASH (D6). -/
  hash : HashSel
  /-- SEED_STRIDE (D23). -/
  seedStride : Nat
  /-- MAGIC (D18). -/
  magic : Word
  /-- FLG bit positions (D19). -/
  flg : FlgLayout
  /-- BD codes (D20). -/
  bd : BdCodes
  /-- HC_SHIFT (D21). -/
  hcShift : Nat
  /-- H32 (D22). -/
  h32 : H32Sel
  /-- OUT_CAP (D17). -/
  outCap : Nat
  /-- DIN_CAP (D26). -/
  dinCap : Nat
  deriving DecidableEq, Repr

/-- A HASH that is not the default one: no body, nothing is known of it (log 7). -/
opaque Config.hashOther : Nat → Word → Nat

/-- An H32 that is not XXH32: no body, nothing is known of it (log 7). -/
opaque Config.h32Other : Nat → Word → List Byte → Word

/-- The default FLG layout of R88. -/
def FlgLayout.default : FlgLayout := { ind := 5, bck := 4, csz := 3, cck := 2, rsv := 1, did := 0 }

/-- The default BD codes of R89. -/
def BdCodes.default : BdCodes := { c0 := 0x40#8, c1 := 0x50#8, c2 := 0x60#8, c3 := 0x70#8 }

/-- The defaults of R7. OUT_CAP and DIN_CAP have none there: the least value R7 allows is taken (DESIGN CHOICE, log 1). -/
def Config.default : Config :=
  { hashLog := 12, hash := .multiplicative, seedStride := 3, magic := 0x184D2204#32, flg := FlgLayout.default
    bd := BdCodes.default, hcShift := 24, h32 := .xxh32, outCap := 4194304, dinCap := 4194304 }

/-- The six positions of a layout are six different bits of FLG 5:0 (R88). -/
abbrev FlgLayout.valid (l : FlgLayout) : Prop := [l.ind, l.bck, l.csz, l.cck, l.rsv, l.did].Nodup

/-- The four codes differ (R89). -/
abbrev BdCodes.valid (b : BdCodes) : Prop := [b.c0, b.c1, b.c2, b.c3].Nodup

/-- The constraints R7 puts on the open parameters (OUT_CAP, DIN_CAP), with those that the fields of HWCFG (R39) and the width
of H32 (R91) put on the others (DEDUCED, log 1). -/
abbrev Config.valid (c : Config) : Prop :=
  c.hashLog ≤ 31 ∧ 1 ≤ c.seedStride ∧ c.seedStride ≤ 255 ∧ c.hcShift ≤ 24 ∧ c.flg.valid ∧ c.bd.valid ∧
  4194304 ≤ c.outCap ∧ c.outCap < 4294967296 ∧ 4194304 ≤ c.dinCap ∧ c.dinCap ≤ c.outCap ∧ c.dinCap ≤ 2147483647

/-- TABLE_SIZE = 2^HASH_LOG (R7, R24). -/
def Config.tableSize (c : Config) : Nat := 2 ^ c.hashLog

end Sys2Proof
end

