-- ==== Sys2Proof/Machine/Bytes.lean ====
section
/-! DEFINITION. Byte sequences and the little-endian primitives (R10, R11, R13). -/

namespace Sys2Proof.Machine

/-- `LE16(v)` (R11). -/
def le16 (v : BitVec 16) : List Byte := [v.extractLsb' 0 8, v.extractLsb' 8 8]

/-- `LE32(v)` (R11). -/
def le32 (v : Word) : List Byte :=
  [v.extractLsb' 0 8, v.extractLsb' 8 8, v.extractLsb' 16 8, v.extractLsb' 24 8]

/-- `LE64(v)` (R11). -/
def le64 (v : BitVec 64) : List Byte :=
  [v.extractLsb' 0 8, v.extractLsb' 8 8, v.extractLsb' 16 8, v.extractLsb' 24 8,
   v.extractLsb' 32 8, v.extractLsb' 40 8, v.extractLsb' 48 8, v.extractLsb' 56 8]

/-- Two bytes read little-endian. -/
def u16Of (b0 b1 : Byte) : BitVec 16 := b1 ++ b0

/-- Four bytes read little-endian. -/
def u32Of (b0 b1 b2 b3 : Byte) : Word := b3 ++ b2 ++ b1 ++ b0

/-- `B[p]`. No rule reads a byte that does not exist (R26, R54); the 0 beyond the end is never used by one. -/
def byteAt (B : List Byte) (p : Nat) : Byte := B.getD p 0#8

/-- `U16LE(B, p)` (R11); requires p + 2 ≤ |B|. -/
def u16At (B : List Byte) (p : Nat) : BitVec 16 := u16Of (byteAt B p) (byteAt B (p + 1))

/-- `U32LE(B, p)` (R11); requires p + 4 ≤ |B|. -/
def u32At (B : List Byte) (p : Nat) : Word :=
  u32Of (byteAt B p) (byteAt B (p + 1)) (byteAt B (p + 2)) (byteAt B (p + 3))

/-- `B[i..j)` (R10); requires i ≤ j ≤ |B|. -/
def slice (B : List Byte) (i j : Nat) : List Byte := (B.drop i).take (j - i)

/-- `last_k(b)` (R10). -/
def lastK (k : Nat) (b : List Byte) : List Byte := b.drop (b.length - k)

/-- A length, a position or a count as a response value or a register (R74, R26: 32 bits). -/
def asWord (n : Nat) : Word := BitVec.ofNat 32 n

end Sys2Proof.Machine
end

