-- ==== Sys2Proof/Machine/Hash.lean ====
section
/-! DEFINITION. The two hash functions of LZ4-MF: HASH of a 4-byte prefix (R100) and the streaming hash H32 (R12), with XXH32
as R12 reproduces it. -/

namespace Sys2Proof.Machine

/-- HASH (R100): a table index below TABLE_SIZE. The remainder makes an opaque HASH meet the one constraint R100 puts on it. -/
def hashWord (c : Config) (w : Word) : Nat :=
  match c.hash with
  | .multiplicative => ((w * 2654435761#32) >>> (32 - c.hashLog)).toNat % c.tableSize
  | .other n => Config.hashOther n w % c.tableSize

/-- The hash of position `p` of a buffer (R100); exists only when p + 4 ≤ |B|. -/
def hashAt (c : Config) (B : List Byte) (p : Nat) : Nat := hashWord c (u32At B p)

/-! ### XXH32 (R12) -/

/-- The five constants of R12. -/
def xxhP1 : Word := 2654435761#32
def xxhP2 : Word := 2246822519#32
def xxhP3 : Word := 3266489917#32
def xxhP4 : Word := 668265263#32
def xxhP5 : Word := 374761393#32

/-- The four accumulators of R12. -/
structure XxhLanes where
  v1 : Word
  v2 : Word
  v3 : Word
  v4 : Word
  deriving DecidableEq, Repr

/-- One accumulator's round. -/
def xxhRound (v w : Word) : Word := (v + w * xxhP2).rotateLeft 13 * xxhP1

/-- `k` stripes of 16 bytes. -/
def xxhStripes : Nat → XxhLanes → List Byte → XxhLanes
  | 0, v, _ => v
  | k + 1, v, b =>
    xxhStripes k
      { v1 := xxhRound v.v1 (u32At b 0), v2 := xxhRound v.v2 (u32At b 4)
        v3 := xxhRound v.v3 (u32At b 8), v4 := xxhRound v.v4 (u32At b 12) } (b.drop 16)

/-- `k` whole words after the stripes. -/
def xxhWords : Nat → Word → List Byte → Word
  | 0, h, _ => h
  | k + 1, h, b => xxhWords k ((h + u32At b 0 * xxhP3).rotateLeft 17 * xxhP4) (b.drop 4)

/-- The last bytes, one by one. -/
def xxhBytes (h : Word) (b : List Byte) : Word :=
  b.foldl (fun h x => (h + x.setWidth 32 * xxhP5).rotateLeft 11 * xxhP1) h

/-- The final mix. -/
def xxhMix (h : Word) : Word :=
  let h := (h ^^^ (h >>> 15)) * xxhP2
  let h := (h ^^^ (h >>> 13)) * xxhP3
  h ^^^ (h >>> 16)

/-- XXH32(seed, b) (R12). -/
def xxh32 (seed : Word) (b : List Byte) : Word :=
  let n := b.length
  let h :=
    if 16 ≤ n then
      let v := xxhStripes (n / 16) ⟨seed + xxhP1 + xxhP2, seed + xxhP2, seed, seed - xxhP1⟩ b
      v.v1.rotateLeft 1 + v.v2.rotateLeft 7 + v.v3.rotateLeft 12 + v.v4.rotateLeft 18
    else seed + xxhP5
  let rest := b.drop (16 * (n / 16))
  let k := rest.length / 4
  xxhMix (xxhBytes (xxhWords k (h + asWord n) rest) (rest.drop (4 * k)))

/-! ### The streaming interface (R12) -/

/-- H32(seed, b). -/
def h32 (c : Config) (seed : Word) (b : List Byte) : Word :=
  match c.h32 with
  | .xxh32 => xxh32 seed b
  | .other n => Config.h32Other n seed b

/-- A hasher state: its seed and the bytes written so far. R12 asks of it only that writing in pieces equals writing the
concatenation, which is then so by construction (DESIGN CHOICE, log 9). -/
structure Hasher where
  seed : Word
  data : List Byte
  deriving DecidableEq, Repr

/-- `H32.init(seed)`. -/
def hasherInit (seed : Word) : Hasher := { seed := seed, data := [] }

/-- `H32.write(hs, bytes)`. -/
def hasherWrite (hs : Hasher) (b : List Byte) : Hasher := { hs with data := hs.data ++ b }

/-- `H32.finish(hs)`; it does not end the hasher. -/
def hasherFinish (c : Config) (hs : Hasher) : Word := h32 c hs.seed hs.data

/-- The header checksum byte of the header bytes after the magic (R91). -/
def headerChecksum (c : Config) (hdr : List Byte) : Byte := (h32 c Config.hashSeed hdr).extractLsb' c.hcShift 8

end Sys2Proof.Machine
end

