-- ==== Sys2Proof/Machine/Table.lean ====
section
/-! DEFINITION. A table file (R24, R25): TABLE_SIZE optional positions, held as the list of its valid entries (index, position)
with indices strictly rising. An unlisted index is None, so equal tables are equal lists (log 6). -/

namespace Sys2Proof.Machine

/-- A table file: its valid entries. -/
abbrev Table := List (Nat × Nat)

/-- `T[h]`. -/
def tableGet : Table → Nat → Option Nat
  | [], _ => none
  | (i, c) :: rest, h => if i = h then some c else tableGet rest h

/-- `T[h] <- Some p`, keeping the indices in order. -/
def tableSet : Table → Nat → Nat → Table
  | [], h, p => [(h, p)]
  | (i, c) :: rest, h, p =>
    if h < i then (h, p) :: (i, c) :: rest
    else if h = i then (h, p) :: rest
    else (i, c) :: tableSet rest h p

/-- The offset shifter (R106): subtract `n` from every entry, dropping an entry that would become negative. -/
def tableShift (n : Nat) : Table → Table
  | [] => []
  | (i, c) :: rest => if n ≤ c then (i, c - n) :: tableShift n rest else tableShift n rest

/-- The indices rise strictly. -/
def tableSorted : Table → Bool
  | [] => true
  | [_] => true
  | (i, _) :: (j, d) :: rest => decide (i < j) && tableSorted ((j, d) :: rest)

/-- The canonical form, with every index below TABLE_SIZE and every position below 2^POS_W (R24). -/
def tableWf (c : Config) (t : Table) : Bool :=
  tableSorted t && t.all fun e => decide (e.1 < c.tableSize) && decide (e.2 < 4294967296)

/-- `Insert(B, q)` (R109). -/
def tableInsert (c : Config) (B : List Byte) (q : Nat) (t : Table) : Table := tableSet t (hashAt c B q) q

/-- `Insert(B, q)` for q = from, from + 1, …, `k` positions (R129 (b)). -/
def tableInsertRange (c : Config) (B : List Byte) : Nat → Nat → Table → Table
  | _, 0, t => t
  | q, k + 1, t => tableInsertRange c B (q + 1) k (tableInsert c B q t)

/-- The seeding loop of R105: positions p, p + stride, … below `end_`, ascending, those with a whole prefix only. The first
argument bounds the turns; `end_` of them are enough because the stride is at least 1. -/
def tableSeed (c : Config) (B : List Byte) (stride end_ : Nat) : Nat → Nat → Table → Table
  | 0, _, t => t
  | turns + 1, p, t =>
    if p < end_ then
      tableSeed c B stride end_ turns (p + stride) (if p + 4 ≤ B.length then tableInsert c B p t else t)
    else t

end Sys2Proof.Machine
end

