-- ==== Sys2Proof/Syntax.lean ====
section
/-! DEFINITION. The instructions of LZ4-MF, one constructor per row of spec/opcode_table.json, and what stands on the host's side
of the command port.

The first 33 constructors are the commands of R72; their operands are the fields A (24 bits), W1 and W2 (32 bits) of R70. The 15
`wire…` constructors are the units of the wire format (R80 to R94); LZ4-MF never executes them (R61): each stands for the host's
act of sending that unit on SRC (R8, R56; log 5). -/

namespace Sys2Proof

inductive Instr where
  -- system and registers (45_system_ops.md)
  | sysReset
  | csrRd (reg : BitVec 24)
  | csrWr (reg : BitVec 24) (value : Word)
  -- buffers (45_system_ops.md)
  | dictLoad (n : Word)
  | dictClear
  | winClear
  | winAppend (n : Word)
  | winDrop (n : Word)
  | dinLoad (n : Word)
  | sinkFlush
  | outFlush
  | dwinClear
  | dwinPush
  | dwinDict
  -- match table (40_match_table.md)
  | mtReset
  | mtHash (word : Word)
  | mtLookup (h : BitVec 24)
  | mtInsert (h : BitVec 24) (pos : Word)
  | mtShift (by_ : Word)
  | mtSeed (stride : BitVec 24) (first : Word) (end_ : Word)
  | mtSave
  | mtReseed
  -- raw codec (41, 42)
  | encBlock (start : Word)
  | decBlock (ctxsel : BitVec 24)
  -- frame encoder (43_frame_encoder.md)
  | feStart (mode : BitVec 24)
  | feBlock
  | feFinish
  | feRun (mode : BitVec 24)
  -- frame decoder and adapter (44_frame_decoder.md)
  | fdOpen
  | fdBlock
  | fdAll
  | rdFill
  | rdConsume (n : Word)
  -- wire units (30_encoding.md part B)
  | wireToken (lit : BitVec 4) (mat : BitVec 4)
  | wireLengthExtMore
  | wireLengthExtLast (b : Byte)
  | wireOffset (off : BitVec 16)
  | wireMagic
  | wireFlg (ind bck csz cck did : Bool)
  | wireBd64K
  | wireBd256K
  | wireBd1M
  | wireBd4M
  | wireHeaderChecksum (c : Byte)
  | wireBlockLength (stored : Bool) (n : BitVec 31)
  | wireEndMark
  | wireBlockChecksum (c : Word)
  | wireContentChecksum (c : Word)
  deriving DecidableEq, Repr

/-- The field of the wire format in which a unit stands (R80 to R94). The same byte means different things in different fields,
so a unit is read with its field. -/
inductive WireField where
  | token
  | lengthExt
  | offset
  | magic
  | flg
  | bd
  | headerChecksum
  | blockLength
  | blockChecksum
  | contentChecksum
  deriving DecidableEq, Repr

/-- What the host does between commands (R8), other than issuing a command. -/
inductive HostAct where
  /-- Append bytes to SRC (R56). -/
  | feed (bytes : List Byte)
  /-- Remove the first `n` bytes of SRC: the host 'empties or repositions SRC itself' (R284). -/
  | skip (n : Nat)
  /-- Take the first `n` bytes of SNK (R8: the host drains the SNK port). -/
  | drain (n : Nat)
  /-- Take the first `n` responses (R74). -/
  | collect (n : Nat)
  /-- Power-on reset (R271). -/
  | powerOn
  deriving DecidableEq, Repr

/-- One item of the host's side: a word on the command port (R70), a wire unit sent on SRC, or another act of the host. -/
inductive HostItem where
  | word (w : Word)
  | wire (f : WireField) (bytes : List Byte)
  | act (a : HostAct)
  deriving DecidableEq, Repr

/-- The commands of R72, as against the wire units: a command is executed by the sequencer and returns one response (R74). -/
def Instr.isCommand : Instr → Bool
  | .wireToken .. | .wireLengthExtMore | .wireLengthExtLast .. | .wireOffset .. | .wireMagic | .wireFlg .. | .wireBd64K
  | .wireBd256K | .wireBd1M | .wireBd4M | .wireHeaderChecksum .. | .wireBlockLength .. | .wireEndMark
  | .wireBlockChecksum .. | .wireContentChecksum .. => false
  | .sysReset | .csrRd .. | .csrWr .. | .dictLoad .. | .dictClear | .winClear | .winAppend .. | .winDrop .. | .dinLoad ..
  | .sinkFlush | .outFlush | .dwinClear | .dwinPush | .dwinDict | .mtReset | .mtHash .. | .mtLookup .. | .mtInsert ..
  | .mtShift .. | .mtSeed .. | .mtSave | .mtReseed | .encBlock .. | .decBlock .. | .feStart .. | .feBlock | .feFinish
  | .feRun .. | .fdOpen | .fdBlock | .fdAll | .rdFill | .rdConsume .. => true

end Sys2Proof
end

