-- ==== Sys2Proof/Machine/State.lean ====
section
/-! DEFINITION. The state of LZ4-MF (R20): plain data, everything the spec gives the machine; beside it the environment of a
step (configuration, ports, I/O draws), which R20 leaves with the host and which stands here because the step is a function of
the state alone (log 1 to log 4). -/

namespace Sys2Proof.Machine

/-- FE.STATE (R30). -/
inductive FeState where
  | init
  | headerWritten
  | blockLoop
  | terminatorWritten
  | trailerWritten
  | done
  | failed
  deriving DecidableEq, Repr

/-- FD.STATE (R31). -/
inductive FdState where
  | closed
  | blocks
  | finished
  | failed
  deriving DecidableEq, Repr

/-- The nine error kinds (R240). -/
inductive ErrKind where
  | ioFailure
  | rawCodecCorruption
  | headerParseError
  | wrongMagic
  | headerChecksumFail
  | blockChecksumFail
  | frameChecksumFail
  | blockLengthOverflow
  | blockSizeOverflow
  deriving DecidableEq, Repr

/-- The five sub-causes of RawCodecCorruption (R242). -/
inductive SubCause where
  | truncatedInput
  | literalOverrun
  | zeroOffset
  | offsetTooLarge
  | outputOverrun
  deriving DecidableEq, Repr

/-- A response record (R74). -/
structure Response where
  status : BitVec 8
  value : Word
  deriving DecidableEq, Repr

/-- One I/O draw (R58). A failing draw of a write says how many of the bytes SNK has received (R57, I9). -/
inductive IoDraw where
  | ok
  | fail (landed : Nat)
  deriving DecidableEq, Repr

/-- The frame-encoder record FE (R30). -/
structure FeRec where
  state : FeState
  err : Option ErrKind
  dlen : Nat
  ch : Option Hasher
  set : BitVec 6
  deriving DecidableEq, Repr

/-- The frame-decoder record FD (R31). -/
structure FdRec where
  state : FdState
  err : Option ErrKind
  sub : Option SubCause
  ind : Bool
  bck : Bool
  cck : Bool
  bmax : Nat
  ch : Option Hasher
  deriving DecidableEq, Repr

/-- The five header accessors (R38). -/
structure HdrRegs where
  info : Word
  blkmax : Word
  csizeLo : Word
  csizeHi : Word
  dictId : Word
  deriving DecidableEq, Repr

/-- The host's side: what it presents, its two stream ports, the I/O draws to come, the responses returned. -/
structure HostSide where
  /-- Command words and host acts still to come, first first (R70, R8; log 3). -/
  inbox : List HostItem
  /-- SRC (R56). -/
  src : List Byte
  /-- SNK (R57). -/
  snk : List Byte
  /-- The draws of the transfers to come; an unlisted draw succeeds (R58; log 2). -/
  draws : List IoDraw
  /-- The responses returned, oldest first (R74; log 4). -/
  resp : List Response
  deriving DecidableEq, Repr

structure State where
  /-- T (R24). -/
  t : Table
  /-- TPL (R25). -/
  tpl : Table
  /-- The six byte buffers (R26). -/
  win : List Byte
  sink : List Byte
  din : List Byte
  out : List Byte
  dwin : List Byte
  dict : List Byte
  /-- SETTINGS bits 5:0; bits 31:6 are stuck at 0 (R33, I4). -/
  settings : BitVec 6
  /-- DICT_ID (R34). -/
  dictId : Word
  /-- CSIZE_LO, CSIZE_HI (R35). -/
  csizeLo : Word
  csizeHi : Word
  fe : FeRec
  fd : FdRec
  hdr : HdrRegs
  /-- RPOS (R32). -/
  rpos : Nat
  host : HostSide
  cfg : Config
  deriving DecidableEq, Repr

/-- No rule of the spec stops the machine: every command, legal or not, ends in a next state with a response (93 part 1), so
nobody raises a fault and the type has no constructor (safe: there is nothing to stop on). -/
inductive Fault
  deriving DecidableEq, Repr

inductive Refusal where
  /-- An arm of exec for an instruction that has no meaning yet. Raised by no arm of this model (safe). A command that the device
  refuses (R73, R210) is no refusal of the model: it is a next state with the response REFUSED. -/
  | notModelled (mnemonic : String)
  deriving DecidableEq, Repr

/-- FE at reset (R270). -/
def FeRec.reset : FeRec := { state := .init, err := none, dlen := 0, ch := none, set := 0 }

/-- FD at reset (R270), which is also how FD.OPEN begins (R181). -/
def FdRec.reset : FdRec :=
  { state := .closed, err := none, sub := none, ind := false, bck := false, cck := false, bmax := 0, ch := none }

/-- The header accessors at reset and on a failed FD.OPEN (R38). -/
def HdrRegs.reset : HdrRegs := { info := 0, blkmax := 0, csizeLo := 0, csizeHi := 0, dictId := 0 }

/-- An idle host: nothing presented, ports empty (DESIGN CHOICE, log 3). -/
def HostSide.reset : HostSide := { inbox := [], src := [], snk := [], draws := [], resp := [] }

/-- The machine right after reset (R270, 10_state.md section 9). -/
def State.reset : State :=
  { t := [], tpl := [], win := [], sink := [], din := [], out := [], dwin := [], dict := [], settings := 0x1D#6, dictId := 0
    csizeLo := 0, csizeHi := 0, fe := FeRec.reset, fd := FdRec.reset, hdr := HdrRegs.reset, rpos := 0
    host := HostSide.reset, cfg := Config.default }

end Sys2Proof.Machine
end

