-- ==== Sys2Proof/Machine/Operands.lean ====
section
/-! DEFINITION. Operands (R71: unsigned, unscaled) and the ranges outside which a rule refuses them (R73 (c)); the fields of
SETTINGS (R33). -/

namespace Sys2Proof.Machine

/-- A hash operand: a table index, which must be below TABLE_SIZE (R71). -/
def indexOk (c : Config) (h : BitVec 24) : Bool := decide (h.toNat < c.tableSize)

/-- The operand `mode` of FE.START and FE.RUN: 0, 1 or 2 (R161). -/
def modeOk (mode : BitVec 24) : Bool := decide (mode.toNat ≤ 2)

/-- The context that `ctxsel` selects: 0 none, 1 DWIN, 2 DICT; none above 2 (R140). -/
def contextOf (ctxsel : BitVec 24) (s : State) : Option (List Byte) :=
  if ctxsel = 0#24 then some []
  else if ctxsel = 1#24 then some s.dwin
  else if ctxsel = 2#24 then some s.dict
  else none

/-- IND of a SETTINGS value (R33). -/
def setInd (v : BitVec 6) : Bool := v.getLsbD 0
/-- BCK of a SETTINGS value (R33). -/
def setBck (v : BitVec 6) : Bool := v.getLsbD 1
/-- CCK of a SETTINGS value (R33). -/
def setCck (v : BitVec 6) : Bool := v.getLsbD 2
/-- BSZ of a SETTINGS value (R33). -/
def setBsz (v : BitVec 6) : BitVec 2 := v.extractLsb' 3 2
/-- DID_EN of a SETTINGS value (R33). -/
def setDid (v : BitVec 6) : Bool := v.getLsbD 5

/-- FE active: FE.STATE is HeaderWritten or BlockLoop (R210). -/
def feActive (s : State) : Bool := s.fe.state == .headerWritten || s.fe.state == .blockLoop

/-- FD active: FD.STATE is Blocks (R210). -/
def fdActive (s : State) : Bool := s.fd.state == .blocks

end Sys2Proof.Machine
end

