-- ==== Sys2Proof/Machine/Flags.lean ====
section
/-! DEFINITION. LZ4-MF has no condition flags (R23). What a command leaves behind is its response status (R74) and the two
status registers (R36, R37); this file gives their codes, and the register map that CSR.RD reads (10_state.md section 5). -/

namespace Sys2Proof.Machine

/-- Response status OK (R74). -/
def stOk : BitVec 8 := 0x00#8
/-- Response status NONE (R74). -/
def stNone : BitVec 8 := 0x01#8
/-- Response status WOULD_NOT_FIT (R74). -/
def stWouldNotFit : BitVec 8 := 0x02#8
/-- Response status END (R74). -/
def stEnd : BitVec 8 := 0x03#8
/-- Response status REFUSED (R74). -/
def stRefused : BitVec 8 := 0xFF#8

/-- The number of an error kind (R240). -/
def errNum : ErrKind → Nat
  | .ioFailure => 1
  | .rawCodecCorruption => 2
  | .headerParseError => 3
  | .wrongMagic => 4
  | .headerChecksumFail => 5
  | .blockChecksumFail => 6
  | .frameChecksumFail => 7
  | .blockLengthOverflow => 8
  | .blockSizeOverflow => 9

/-- The number of a sub-cause (R242). -/
def subNum : SubCause → Nat
  | .truncatedInput => 1
  | .literalOverrun => 2
  | .zeroOffset => 3
  | .offsetTooLarge => 4
  | .outputOverrun => 5

/-- FE.ERR and FD.ERR as numbers: 0 when none (R30, R37). -/
def errField : Option ErrKind → Nat
  | none => 0
  | some k => errNum k

/-- FD.SUB as a number: 0 otherwise (R37). -/
def subField : Option SubCause → Nat
  | none => 0
  | some u => subNum u

/-- The response (ERR k, sub): status 0x10 + k (R74, R240), the sub-cause as value (R250). -/
def errResponse (k : Option ErrKind) (u : Option SubCause) : Response :=
  { status := 0x10#8 + BitVec.ofNat 8 (errField k), value := asWord (subField u) }

/-- The number of an FE.STATE (R30). -/
def feStateNum : FeState → Nat
  | .init => 0
  | .headerWritten => 1
  | .blockLoop => 2
  | .terminatorWritten => 3
  | .trailerWritten => 4
  | .done => 5
  | .failed => 7

/-- The number of an FD.STATE (R31). -/
def fdStateNum : FdState → Nat
  | .closed => 0
  | .blocks => 1
  | .finished => 2
  | .failed => 7

/-- FE_STATUS (R36): STATE in bits 2:0, ERR in bits 7:4. -/
def feStatus (fe : FeRec) : Word := asWord (feStateNum fe.state + 16 * errField fe.err)

/-- FD_STATUS (R37): STATE in bits 2:0, ERR in bits 7:4, SUB in bits 11:8. -/
def fdStatus (fd : FdRec) : Word := asWord (fdStateNum fd.state + 16 * errField fd.err + 256 * subField fd.sub)

/-- HWCFG (R39): HASH_LOG in bits 4:0, HC_SHIFT in bits 12:8, SEED_STRIDE in bits 23:16. -/
def hwcfg (c : Config) : Word := asWord (c.hashLog % 32 + 256 * (c.hcShift % 32) + 65536 * (c.seedStride % 256))

/-- The register map of 10_state.md section 5; none for a number that does not exist. -/
def csrRead (reg : BitVec 24) (s : State) : Option Word :=
  match reg.toNat with
  | 0x00 => some (s.settings.setWidth 32)
  | 0x01 => some s.dictId
  | 0x02 => some s.csizeLo
  | 0x03 => some s.csizeHi
  | 0x04 => some (feStatus s.fe)
  | 0x05 => some (fdStatus s.fd)
  | 0x06 => some s.hdr.info
  | 0x07 => some s.hdr.blkmax
  | 0x08 => some s.hdr.csizeLo
  | 0x09 => some s.hdr.csizeHi
  | 0x0A => some s.hdr.dictId
  | 0x0B => some (asWord s.win.length)
  | 0x0C => some (asWord s.sink.length)
  | 0x0D => some (asWord s.din.length)
  | 0x0E => some (asWord s.out.length)
  | 0x0F => some (asWord s.dwin.length)
  | 0x10 => some (asWord s.dict.length)
  | 0x11 => some (asWord s.rpos)
  | 0x12 => some (hwcfg s.cfg)
  | _ => none

/-- A write to one of the four writable registers (R212); none for every other number. -/
def csrWrite (reg : BitVec 24) (value : Word) (s : State) : Option State :=
  match reg.toNat with
  | 0x00 => some { s with settings := value.setWidth 6 }
  | 0x01 => some { s with dictId := value }
  | 0x02 => some { s with csizeLo := value }
  | 0x03 => some { s with csizeHi := value }
  | _ => none

end Sys2Proof.Machine
end

