-- ==== Sys2Proof/Machine/Ops.lean ====
section
/-! DEFINITION. The shared operations over ports and responses: a run of pseudocode that may raise an error, the port primitives
(R56, R57, R58), the response (R74), the refusal (R14, R73) and the failure entry (R250). -/

namespace Sys2Proof.Machine

/-- A piece of a rule's pseudocode: it ends with a value, or raises an error kind with its sub-cause; either way in a state that
holds every change made before that point (R250: errors are precise). -/
inductive Run (α : Type) where
  | done (a : α) (s : State)
  | raised (k : ErrKind) (u : Option SubCause) (s : State)

/-- One piece of pseudocode after another. -/
def Run.bind {α β : Type} (r : Run α) (f : α → State → Run β) : Run β :=
  match r with
  | .done a s => f a s
  | .raised k u s => .raised k u s

/-- The state a run ends in. -/
def Run.state {α : Type} : Run α → State
  | .done _ s => s
  | .raised _ _ s => s

/-- Take one I/O draw (R58); an unlisted draw succeeds (log 2). -/
def takeDraw (s : State) : IoDraw × State :=
  match s.host.draws with
  | [] => (.ok, s)
  | d :: ds => (d, { s with host := { s.host with draws := ds } })

/-- `SrcRead(n)` (R56): all n bytes, or IoFailure; a source with fewer bytes is left empty. -/
def srcRead (n : Nat) (s : State) : Run (List Byte) :=
  match takeDraw s with
  | (.fail _, s1) => .raised .ioFailure none s1
  | (.ok, s1) =>
    if n ≤ s1.host.src.length then
      .done (s1.host.src.take n) { s1 with host := { s1.host with src := s1.host.src.drop n } }
    else .raised .ioFailure none { s1 with host := { s1.host with src := [] } }

/-- `SrcReadUpTo(n)` (R56): min(n, |SRC|) bytes. -/
def srcReadUpTo (n : Nat) (s : State) : Run (List Byte) :=
  match takeDraw s with
  | (.fail _, s1) => .raised .ioFailure none s1
  | (.ok, s1) => .done (s1.host.src.take n) { s1 with host := { s1.host with src := s1.host.src.drop n } }

/-- `SrcRemaining()` (R56). -/
def srcRemaining (s : State) : Nat := s.host.src.length

/-- `SnkWrite(v)` (R57): all of v, or IoFailure with some front part of v in SNK. -/
def snkWrite (v : List Byte) (s : State) : Run Unit :=
  match takeDraw s with
  | (.fail k, s1) => .raised .ioFailure none { s1 with host := { s1.host with snk := s1.host.snk ++ v.take k } }
  | (.ok, s1) => .done () { s1 with host := { s1.host with snk := s1.host.snk ++ v } }

/-- Return a response (R74, R76): the last thing a command does. -/
def respond (r : Response) (s : State) : State := { s with host := { s.host with resp := s.host.resp ++ [r] } }

/-- The response (OK, value). -/
def okResponse (value : Word) : Response := { status := stOk, value := value }

/-- The response (END, 0). -/
def endResponse : Response := { status := stEnd, value := 0 }

/-- The response REFUSED (R74). -/
def refusedResponse : Response := { status := stRefused, value := 0 }

/-- `refuse` (R14): no state change, response REFUSED. -/
def refuse (s : State) : State := respond refusedResponse s

/-- The unit a command belongs to, as the failure entry tells them apart (R250). -/
inductive ErrUnit where
  | fe
  | fd
  | raw
  deriving DecidableEq, Repr

/-- The failure entry (R250), the one place where an error is taken: the unit's record goes to Failed with the kind (and, for FD,
the sub-cause, with OUT and RPOS emptied, R197), a raw unit's records stay (R225), and the response is (ERR k, sub). There is no
handler, no vector and no return from an error (R251): Failed is left by the commands that start the unit afresh. -/
def failureEntry (unit : ErrUnit) (k : ErrKind) (u : Option SubCause) (s : State) : State :=
  match unit with
  | .fe => respond (errResponse (some k) none) { s with fe := { s.fe with state := .failed, err := some k } }
  | .fd =>
    respond (errResponse (some k) u)
      { s with fd := { s.fd with state := .failed, err := some k, sub := u }, out := [], rpos := 0 }
  | .raw => respond (errResponse (some k) u) s

/-- The end of a command of a unit: its response, or the failure entry. -/
def finishRun (unit : ErrUnit) (r : Run Response) : State :=
  match r with
  | .done a s => respond a s
  | .raised k u s => failureEntry unit k u s

/-- The reset of every piece of architectural state (R270); the ports, the responses and the configuration are not touched
(R271, R213). -/
def resetDevice (s : State) : State := { State.reset with host := s.host, cfg := s.cfg }

end Sys2Proof.Machine
end

