-- ==== Sys2Proof/Machine/Wire.lean ====
section
/-! DEFINITION. The fields of the wire format (30_encoding.md part B), each with its writer and its reader. The encoder units
write with these, the decoder units read with these, and the wire rows of the opcode table are encoded by these. -/

namespace Sys2Proof.Machine

/-! ### Token and length fields (R80 to R83) -/

/-- The token byte: literal-length nibble in bits 7:4, match-length nibble in bits 3:0 (R80). -/
def tokenByte (lit mat : BitVec 4) : Byte := lit ++ mat

/-- The literal-length nibble of a token (R80). -/
def tokenLit (tok : Byte) : BitVec 4 := tok.extractLsb' 4 4

/-- The match-length nibble of a token (R80). -/
def tokenMat (tok : Byte) : BitVec 4 := tok.extractLsb' 0 4

/-- `nib(v) = min(v, 15)` (R81). -/
def nibble (v : Nat) : BitVec 4 := BitVec.ofNat 4 (min v 15)

/-- `ext(v)`: the extension bytes of a length field (R81). -/
def lengthExt (v : Nat) : List Byte :=
  if v < 15 then [] else List.replicate ((v - 15) / 255) 255#8 ++ [BitVec.ofNat 8 ((v - 15) % 255)]

/-- The sum of the extension bytes up to the first one below 255, and what follows them; none when the input ends first (R82). -/
def readExt : List Byte → Option (Nat × List Byte)
  | [] => none
  | b :: rest =>
    if b = 255#8 then (readExt rest).map fun (e, r) => (e + 255, r)
    else some (b.toNat, rest)

/-- A length field's value from its nibble and the input that follows (R82); none when the input ends inside the field. -/
def readLength (nib : BitVec 4) (inp : List Byte) : Option (Nat × List Byte) :=
  if nib = 15#4 then (readExt inp).map fun (e, r) => (15 + e, r) else some (nib.toNat, inp)

/-! ### The header bytes (R86 to R91) -/

/-- The five flags of FLG (R88). -/
structure HdrFlags where
  ind : Bool
  bck : Bool
  csz : Bool
  cck : Bool
  did : Bool
  deriving DecidableEq, Repr

/-- One flag at its place. -/
def flagBit (b : Bool) (k : Fin 6) : Byte := if b then 1#8 <<< k.val else 0#8

/-- The FLG byte: VERSION = 01, the five flags at their places, the reserved bit 0 (R88). -/
def flgByte (l : FlgLayout) (f : HdrFlags) : Byte :=
  0x40#8 ||| flagBit f.ind l.ind ||| flagBit f.bck l.bck ||| flagBit f.csz l.csz ||| flagBit f.cck l.cck |||
    flagBit f.did l.did

/-- Reading FLG: none when VERSION is not 01 or the reserved bit is set (R88, R182). -/
def parseFlg (l : FlgLayout) (b : Byte) : Option HdrFlags :=
  if b.extractLsb' 6 2 = 1#2 ∧ b.getLsbD l.rsv = false then
    some { ind := b.getLsbD l.ind, bck := b.getLsbD l.bck, csz := b.getLsbD l.csz, cck := b.getLsbD l.cck
           did := b.getLsbD l.did }
  else none

/-- The BD byte of a block-size class (R89). -/
def bdByte (c : BdCodes) (k : BitVec 2) : Byte :=
  if k = 0#2 then c.c0 else if k = 1#2 then c.c1 else if k = 2#2 then c.c2 else c.c3

/-- The class a BD byte stands for; none for every byte that is no class code (R89). -/
def parseBd (c : BdCodes) (b : Byte) : Option (BitVec 2) :=
  if b = c.c0 then some 0#2 else if b = c.c1 then some 1#2 else if b = c.c2 then some 2#2
  else if b = c.c3 then some 3#2 else none

/-- The content size field (R86): eight bytes, or nothing. -/
def sizeField : Option (BitVec 64) → List Byte
  | some v => le64 v
  | none => []

/-- The dictionary id field (R86): four bytes, or nothing. -/
def idField : Option Word → List Byte
  | some v => le32 v
  | none => []

/-! ### The length word (R90, R92) -/

/-- A length word: STORED in bit 31, the byte count in bits 30:0 (R90). -/
def lengthWord (stored : Bool) (n : BitVec 31) : Word := BitVec.ofBool stored ++ n

/-- STORED of a length word (R90). -/
def wordStored (w : Word) : Bool := w.getLsbD 31

/-- The byte count of a length word (R90). -/
def wordCount (w : Word) : BitVec 31 := w.extractLsb' 0 31

end Sys2Proof.Machine
end

