-- ==== Sys2Proof/Machine/Decoder.lean ====
section
/-! DEFINITION. The raw block decoder DEC (42_raw_block_decoder.md): the function `Dec(inp, ctx, cap)` and the command. -/

namespace Sys2Proof.Machine

/-- The byte `off` before the end of `ctx ++ out` (R146): from the output when it reaches that far back, else from the context. -/
def copySource (ctx out : List Byte) (off : Nat) : Byte :=
  if off ≤ out.length then byteAt out (out.length - off) else byteAt ctx (ctx.length + out.length - off)

/-- The copy of a match (R146), byte by byte, so that a copy longer than its offset re-reads what it has written. -/
def copyMatch (ctx : List Byte) (off : Nat) : Nat → List Byte → List Byte
  | 0, out => out
  | m + 1, out => copyMatch ctx off m (out ++ [copySource ctx out off])

/-- The loop of R141 on the rest of the input, with the checks in the order of R245 (d). The first argument bounds the turns:
every turn takes a byte, so as many as there are bytes are enough, and with none left no token is there to be read (R142 (a)). -/
def decLoop (ctx : List Byte) (cap : Nat) : Nat → List Byte → List Byte → Except SubCause (List Byte)
  | 0, _, _ => .error .truncatedInput
  | _ + 1, [], _ => .error .truncatedInput
  | turns + 1, tok :: rest, out =>
    match readLength (tokenLit tok) rest with
    | none => .error .truncatedInput
    | some (L, r1) =>
      if r1.length < L then .error .literalOverrun
      else if cap < out.length + L then .error .outputOverrun
      else
        let out1 := out ++ r1.take L
        match r1.drop L with
        | [] => .ok out1
        | [_] => .error .truncatedInput
        | b0 :: b1 :: r2 =>
          let off := (u16Of b0 b1).toNat
          if off = 0 then .error .zeroOffset
          else if out1.length + ctx.length < off then .error .offsetTooLarge
          else
            match readLength (tokenMat tok) r2 with
            | none => .error .truncatedInput
            | some (v, r3) =>
              let m := v + Config.minMatch
              if cap < out1.length + m then .error .outputOverrun
              else decLoop ctx cap turns r3 (copyMatch ctx off m out1)

/-- `Dec(inp, ctx, cap)` (R141). -/
def decBlock (inp ctx : List Byte) (cap : Nat) : Except SubCause (List Byte) := decLoop ctx cap inp.length inp []

/-- DEC.BLOCK (R140): the command clears OUT and RPOS itself, and touches no FD record. -/
def execDecBlock (ctxsel : BitVec 24) (s : State) : Host.Outcome State Fault Refusal :=
  if fdActive s then .next (refuse s)
  else
    match contextOf ctxsel s with
    | none => .next (refuse s)
    | some ctx =>
      let s1 := { s with out := [], rpos := 0 }
      .next <| finishRun .raw <|
        match decBlock s.din ctx s.cfg.outCap with
        | .ok o => .done (okResponse (asWord o.length)) { s1 with out := o }
        | .error u => .raised .rawCodecCorruption (some u) s1

end Sys2Proof.Machine
end

