-- ==== Sys2Proof/Machine/Encoder.lean ====
section
/-! DEFINITION. The raw block encoder ENC (41_raw_block_encoder.md): the function `Enc(B, start, T)` and the command. -/

namespace Sys2Proof.Machine

/-- `Put(v)` (R128): all of v, or WouldNotFit (none) when the sink would pass its capacity. -/
def encPut (cap : Nat) (v sink : List Byte) : Option (List Byte) :=
  if sink.length + v.length ≤ cap then some (sink ++ v) else none

/-- EmitSequence(lit, off, m) (R126): five writes in the order of R84. -/
def emitSequence (cap : Nat) (lit : List Byte) (off m : Nat) (sink : List Byte) : Option (List Byte) :=
  (encPut cap [tokenByte (nibble lit.length) (nibble (m - 4))] sink).bind fun k1 =>
  (encPut cap (lengthExt lit.length) k1).bind fun k2 =>
  (encPut cap lit k2).bind fun k3 =>
  (encPut cap (le16 (BitVec.ofNat 16 off)) k3).bind fun k4 =>
  encPut cap (lengthExt (m - 4)) k4

/-- EmitLast(lit) (R127). -/
def emitLast (cap : Nat) (lit : List Byte) (sink : List Byte) : Option (List Byte) :=
  (encPut cap [tokenByte (nibble lit.length) 0#4] sink).bind fun k1 =>
  (encPut cap (lengthExt lit.length) k1).bind fun k2 =>
  encPut cap lit k2

/-- `Accept(cand, p, w)` (R123): the candidate's position, when it is accepted. -/
def acceptCand (B : List Byte) (cand : Option Nat) (p : Nat) (w : Word) : Option Nat :=
  match cand with
  | none => none
  | some c => if c < p ∧ p - c ≤ Config.maxOffset ∧ u32At B c = w then some c else none

/-- The forward extension (R124): from a match of m bytes to the longest one that ends at or before n − 5. The first argument
bounds the turns. -/
def extendForward (B : List Byte) (c p : Nat) : Nat → Nat → Nat
  | 0, m => m
  | turns + 1, m =>
    if p + m + Config.lastLiterals < B.length ∧ byteAt B (c + m) = byteAt B (p + m) then
      extendForward B c p turns (m + 1)
    else m

/-- The backward extension (R125): by how many bytes the match grows to the front. The first argument bounds the turns. -/
def extendBackward (B : List Byte) (anchor : Nat) : Nat → Nat → Nat → Nat
  | 0, _, _ => 0
  | turns + 1, p, c =>
    if anchor < p ∧ 0 < c ∧ byteAt B (p - 1) = byteAt B (c - 1) then
      extendBackward B anchor turns (p - 1) (c - 1) + 1
    else 0

/-- The scan of R122 from position p on, with the pending literal run beginning at `anchor`. The first argument bounds the
turns: |B| − p of them are enough, and with none left p is past the last probed position. The result is the code, or none for
WouldNotFit, and the table as it is then (R129 (d), (e): no roll-back). -/
def encScan (c : Config) (B : List Byte) (cap : Nat) : Nat → Nat → Nat → List Byte → Table → Option (List Byte) × Table
  | 0, _, anchor, sink, t => (emitLast cap (B.drop anchor) sink, t)
  | turns + 1, p, anchor, sink, t =>
    if p + Config.minMatch + Config.lastLiterals ≤ B.length then
      let w := u32At B p
      let cand := tableGet t (hashAt c B p)
      let t1 := tableInsert c B p t
      match acceptCand B cand p w with
      | none => encScan c B cap turns (p + 1) anchor sink t1
      | some q =>
        let m := extendForward B q p B.length 4
        let k := extendBackward B anchor p p q
        match emitSequence cap (slice B anchor (p - k)) (p - q) (m + k) sink with
        | none => (none, t1)
        | some sink1 =>
          encScan c B cap turns (p + m) (p + m) sink1 (tableInsertRange c B (p + 1) (m - 1) t1)
    else (emitLast cap (B.drop anchor) sink, t)

/-- `Enc(B, start, T)` (R120, R122): the code, or none for WouldNotFit, and the table afterwards. -/
def encBlock (c : Config) (B : List Byte) (start : Nat) (t : Table) : Option (List Byte) × Table :=
  encScan c B (B.length - start) (B.length - start) start start [] t

/-- ENC.BLOCK (R121). A block longer than the largest class can have a code that SINK (R26) cannot hold: such a command is
refused before it changes anything, as R63 says of every command that would exceed a buffer (DEDUCED, log 10). -/
def execEncBlock (start : Word) (s : State) : Host.Outcome State Fault Refusal :=
  if feActive s || decide (s.win.length < start.toNat) then .next (refuse s)
  else
    match encBlock s.cfg s.win start.toNat s.t with
    | (some code, t1) =>
      if Config.blockMax 3 < code.length then .next (refuse s)
      else .next (respond (okResponse (asWord code.length)) { s with t := t1, sink := code })
    | (none, t1) => .next (respond { status := stWouldNotFit, value := 0 } { s with t := t1, sink := [] })

end Sys2Proof.Machine
end

