-- ==== Sys2Proof/Machine/FrameDecoder.lean ====
section
/-! DEFINITION. The frame decoder FD, the header parser and the streaming adapter RD (44_frame_decoder.md). -/

namespace Sys2Proof.Machine

/-- An optional header field: its bytes when its flag is set, else none of them (R181). -/
def readOptional (present : Bool) (n : Nat) (s : State) : Run (List Byte) :=
  if present then srcRead n s else .done [] s

/-- What FD.OPEN clears before it reads (R181). -/
def openClear (s : State) : State :=
  { s with fd := FdRec.reset, hdr := HdrRegs.reset, din := [], out := [], rpos := 0, dwin := [] }

/-- The state a valid header leaves (R181, R38). `cs` and `di` are the bytes of the optional fields. -/
def openHeader (f : HdrFlags) (k : BitVec 2) (flg bd : Byte) (cs di : List Byte) (s : State) : State :=
  { s with
    fd := { s.fd with
      ind := f.ind, bck := f.bck, cck := f.cck, bmax := Config.blockMax k, state := .blocks
      ch := if f.cck then some (hasherInit Config.hashSeed) else s.fd.ch }
    hdr := { s.hdr with
      info := asWord (flg.toNat + 256 * bd.toNat), blkmax := asWord (Config.blockMax k)
      csizeLo := if f.csz then u32At cs 0 else s.hdr.csizeLo
      csizeHi := if f.csz then u32At cs 4 else s.hdr.csizeHi
      dictId := if f.did then u32At di 0 else s.hdr.dictId }
    dwin := if f.ind then s.dwin else s.dict }

/-- The pseudocode of FD.OPEN (R181), with the checks in the order of R245 (b). -/
def fdOpenRun (s : State) : Run Response :=
  (srcRead 4 (openClear s)).bind fun m s1 =>
  if u32At m 0 ≠ s1.cfg.magic then .raised .wrongMagic none s1
  else
    (srcRead 2 s1).bind fun fb s2 =>
    match parseFlg s2.cfg.flg (byteAt fb 0) with
    | none => .raised .headerParseError none s2
    | some f =>
      match parseBd s2.cfg.bd (byteAt fb 1) with
      | none => .raised .headerParseError none s2
      | some k =>
        (readOptional f.csz 8 s2).bind fun cs s3 =>
        (readOptional f.did 4 s3).bind fun di s4 =>
        (srcRead 1 s4).bind fun hc s5 =>
        let hdr := fb ++ cs ++ di
        if byteAt hc 0 ≠ headerChecksum s5.cfg hdr then .raised .headerChecksumFail none s5
        else
          .done (okResponse (asWord (4 + hdr.length + 1))) (openHeader f k (byteAt fb 0) (byteAt fb 1) cs di s5)

/-- The end mark (R184, R190): the content checksum, if there is one, then Finished. -/
def fdEndRun (s : State) : Run Response :=
  match s.fd.ch with
  | none => .done endResponse { s with fd := { s.fd with state := .finished } }
  | some hs =>
    (srcRead 4 s).bind fun t s1 =>
    if u32At t 0 ≠ hasherFinish s1.cfg hs then .raised .frameChecksumFail none s1
    else .done endResponse { s1 with fd := { s1.fd with state := .finished } }

/-- The block checksum (R187), when FD.BCK is set. -/
def checkBlockRun (s : State) : Run Unit :=
  if s.fd.bck then
    (srcRead 4 s).bind fun c s1 =>
    if u32At c 0 ≠ h32 s1.cfg Config.hashSeed s1.din then .raised .blockChecksumFail none s1 else .done () s1
  else .done () s

/-- The bytes of the block in DIN (R184): the plaintext itself, or the decoded code with the context of R189. -/
def blockOutput (stored : Bool) (s : State) : Except SubCause (List Byte) :=
  if stored then .ok s.din else decBlock s.din (if s.fd.ind then s.dict else s.dwin) s.cfg.outCap

/-- The end of a data block (R184, R188, R189): OUT and the window are updated, then the size is checked, then the content
hasher consumes the bytes. -/
def deliverRun (o : List Byte) (s : State) : Run Response :=
  let s1 := { s with out := o, dwin := if s.fd.ind then s.dwin else lastK Config.windowSize (s.dwin ++ o) }
  if s1.fd.bmax < o.length then .raised .blockSizeOverflow none s1
  else
    .done (okResponse (asWord o.length))
      { s1 with fd := { s1.fd with ch := s1.fd.ch.map fun hs => hasherWrite hs o } }

/-- A data block with length word `w` (R184), with the checks in the order of R245 (c). -/
def fdDataRun (w : Word) (s : State) : Run Response :=
  if s.cfg.dinCap < (wordCount w).toNat then .raised .blockLengthOverflow none s
  else
    (srcRead (wordCount w).toNat s).bind fun b s1 =>
    (checkBlockRun { s1 with din := b }).bind fun _ s2 =>
    match blockOutput (wordStored w) s2 with
    | .error u => .raised .rawCodecCorruption (some u) s2
    | .ok o => deliverRun o s2

/-- The pseudocode of FD.BLOCK in state Blocks (R184). -/
def fdBlockRun (s : State) : Run Response :=
  (srcRead 4 { s with out := [], rpos := 0, din := [] }).bind fun lw s1 =>
  if u32At lw 0 = 0#32 then fdEndRun s1 else fdDataRun (u32At lw 0) s1

/-- FD.BLOCK in state Blocks or Finished (R184): Finished empties OUT and reads nothing. -/
def fdBlockAny (s : State) : Run Response :=
  if s.fd.state = .finished then .done endResponse { s with out := [], rpos := 0 } else fdBlockRun s

/-- The loop of FD.ALL (R192): every block goes to SNK. The first argument bounds the turns: every block takes four bytes of SRC,
so one more than SRC holds are enough. -/
def fdAllLoop : Nat → Nat → State → Run Nat
  | 0, k, s => .done k s
  | turns + 1, k, s =>
    (fdBlockRun s).bind fun r s1 =>
    if r = endResponse then .done k s1
    else (snkWrite s1.out s1).bind fun _ s2 => fdAllLoop turns (k + 1) s2

/-- The pseudocode of FD.ALL (R192). -/
def fdAllRun (s : State) : Run Response :=
  (fdOpenRun s).bind fun _ s1 =>
  (fdAllLoop (s1.host.src.length + 1) 0 s1).bind fun k s2 => .done (okResponse (asWord k)) s2

/-- The pseudocode of RD.FILL in state Blocks or Finished (R193). -/
def rdFillRun (s : State) : Run Response :=
  if s.rpos < s.out.length then .done (okResponse (asWord (s.out.length - s.rpos))) s
  else
    (fdBlockAny s).bind fun _ s1 =>
    if s1.out.isEmpty then .done endResponse s1 else .done (okResponse (asWord s1.out.length)) s1

/-- FD.OPEN (R181): legal in any FD.STATE. -/
def execFdOpen (s : State) : Host.Outcome State Fault Refusal := .next (finishRun .fd (fdOpenRun s))

/-- FD.BLOCK (R184): Closed refuses, Failed repeats the error. -/
def execFdBlock (s : State) : Host.Outcome State Fault Refusal :=
  match s.fd.state with
  | .closed => .next (refuse s)
  | .failed => .next (respond (errResponse s.fd.err s.fd.sub) s)
  | .blocks => .next (finishRun .fd (fdBlockAny s))
  | .finished => .next (finishRun .fd (fdBlockAny s))

/-- FD.ALL (R192): legal as FD.OPEN. -/
def execFdAll (s : State) : Host.Outcome State Fault Refusal := .next (finishRun .fd (fdAllRun s))

/-- RD.FILL (R193): Closed refuses, Failed repeats the error. -/
def execRdFill (s : State) : Host.Outcome State Fault Refusal :=
  match s.fd.state with
  | .closed => .next (refuse s)
  | .failed => .next (respond (errResponse s.fd.err s.fd.sub) s)
  | .blocks => .next (finishRun .fd (rdFillRun s))
  | .finished => .next (finishRun .fd (rdFillRun s))

/-- RD.CONSUME (R194): refused when more is asked than is left. -/
def execRdConsume (n : Word) (s : State) : Host.Outcome State Fault Refusal :=
  if s.out.length - s.rpos < n.toNat then .next (refuse s)
  else
    .next (respond (okResponse (asWord (s.out.length - (s.rpos + n.toNat)))) { s with rpos := s.rpos + n.toNat })

end Sys2Proof.Machine
end

