-- ==== Sys2Proof/Machine/FrameEncoder.lean ====
section
/-! DEFINITION. The frame encoder FE and the header encoder (43_frame_encoder.md). -/

namespace Sys2Proof.Machine

/-- `Header(IND, BCK, CCK, BSZ, size, id)` (R162). -/
def headerBytes (c : Config) (ind bck cck : Bool) (bsz : BitVec 2) (size : Option (BitVec 64)) (id : Option Word) :
    List Byte :=
  let flg := flgByte c.flg { ind := ind, bck := bck, csz := size.isSome, cck := cck, did := id.isSome }
  let hdr := [flg, bdByte c.bd bsz] ++ sizeField size ++ idField id
  le32 c.magic ++ hdr ++ [headerChecksum c hdr]

/-- The content size that FE.START writes, by its mode (R161): none, the registers, or the bytes SRC holds. -/
def contentSize (mode : BitVec 24) (s : State) : Option (BitVec 64) :=
  if mode = 0#24 then none
  else if mode = 1#24 then some (s.csizeHi ++ s.csizeLo)
  else some (BitVec.ofNat 64 (srcRemaining s))

/-- The header FE.START writes (R161, R162). -/
def startHeader (mode : BitVec 24) (s : State) : List Byte :=
  headerBytes s.cfg (setInd s.settings) (setBck s.settings) (setCck s.settings) (setBsz s.settings) (contentSize mode s)
    (if setDid s.settings then some s.dictId else none)

/-- The table seeded from a dictionary (R163): reset, then positions 0, SEED_STRIDE, … below |DICT|. -/
def seededTable (c : Config) (dict : List Byte) : Table := tableSeed c dict c.seedStride dict.length dict.length 0 []

/-- The pseudocode of FE.START (R161). -/
def feStartRun (mode : BitVec 24) (s : State) : Run Response :=
  let s0 := { s with fe := { s.fe with set := s.settings, err := none, ch := none } }
  (snkWrite (startHeader mode s) s0).bind fun _ s1 =>
    let t := seededTable s1.cfg s1.dict
    .done (okResponse (asWord (startHeader mode s).length))
      { s1 with
        win := s1.dict, t := t, tpl := t, sink := []
        fe := { s1.fe with
          dlen := s1.dict.length, state := .headerWritten
          ch := if setCck s.settings then some (hasherInit Config.hashSeed) else none } }

/-- `PostBlock()` (R166): the table and window lifecycle after a block. -/
def postBlock (s : State) : State :=
  if setInd s.fe.set then { s with win := s.win.take s.fe.dlen, t := s.tpl }
  else if Config.windowSize < s.win.length then
    let n := s.win.length - Config.windowSize
    { s with win := s.win.drop n, t := tableShift n s.t }
  else s

/-- A 4-byte checksum that is written only when its flag is set (R94). -/
def writeChecksum (present : Bool) (v : Word) (s : State) : Run Unit :=
  if present then snkWrite (le32 v) s else .done () s

/-- Writing one block: length word, body, block checksum if enabled (R90, R164). -/
def writeBlock (w : Word) (body : List Byte) (s : State) : Run Unit :=
  (snkWrite (le32 w) s).bind fun _ s1 =>
  (snkWrite body s1).bind fun _ s2 =>
  writeChecksum (setBck s.fe.set) (h32 s.cfg Config.hashSeed body) s2

/-- The pseudocode of FE.BLOCK (R164). -/
def feBlockRun (s : State) : Run Response :=
  (srcReadUpTo (Config.blockMax (setBsz s.fe.set)) s).bind fun chunk s1 =>
    if chunk.isEmpty then .done endResponse { s1 with fe := { s1.fe with state := .blockLoop } }
    else
      let win := s1.win ++ chunk
      let enc := encBlock s1.cfg win s1.win.length s1.t
      let s2 := { s1 with
        win := win, t := enc.2, sink := enc.1.getD []
        fe := { s1.fe with ch := s1.fe.ch.map fun hs => hasherWrite hs chunk } }
      let w := lengthWord enc.1.isNone (BitVec.ofNat 31 (enc.1.getD chunk).length)
      (writeBlock w (enc.1.getD chunk) s2).bind fun _ s3 =>
        let s4 := postBlock s3
        .done (okResponse w) { s4 with fe := { s4.fe with state := .blockLoop } }

/-- The content checksum of FE.FINISH (R167, R93), when there is a content hasher. -/
def feTrailerRun (s : State) : Run Word :=
  match s.fe.ch with
  | none => .done 0 s
  | some hs =>
    let v := hasherFinish s.cfg hs
    (snkWrite (le32 v) s).bind fun _ s1 => .done v { s1 with fe := { s1.fe with state := .trailerWritten } }

/-- The pseudocode of FE.FINISH (R167). -/
def feFinishRun (s : State) : Run Response :=
  (snkWrite (le32 0) s).bind fun _ s1 =>
  (feTrailerRun { s1 with fe := { s1.fe with state := .terminatorWritten } }).bind fun v s2 =>
    .done (okResponse v) { s2 with fe := { s2.fe with ch := none, state := .done } }

/-- The loop of FE.RUN (R168): how many data blocks are written. The first argument bounds the turns: every block takes a byte of
SRC, so one more than SRC holds are enough. -/
def feRunLoop : Nat → Nat → State → Run Nat
  | 0, k, s => .done k s
  | turns + 1, k, s =>
    (feBlockRun s).bind fun r s1 => if r = endResponse then .done k s1 else feRunLoop turns (k + 1) s1

/-- The pseudocode of FE.RUN (R168). -/
def feRunRun (mode : BitVec 24) (s : State) : Run Response :=
  (feStartRun mode s).bind fun _ s1 =>
  (feRunLoop (s1.host.src.length + 1) 0 s1).bind fun k s2 =>
  (feFinishRun s2).bind fun _ s3 => .done (okResponse (asWord k)) s3

/-- FE.START (R161): legal in any FE.STATE. -/
def execFeStart (mode : BitVec 24) (s : State) : Host.Outcome State Fault Refusal :=
  if modeOk mode then .next (finishRun .fe (feStartRun mode s)) else .next (refuse s)

/-- FE.BLOCK (R164): Failed repeats the error, Init and Done refuse. -/
def execFeBlock (s : State) : Host.Outcome State Fault Refusal :=
  if feActive s then .next (finishRun .fe (feBlockRun s))
  else if s.fe.state = .failed then .next (respond (errResponse s.fe.err none) s)
  else .next (refuse s)

/-- FE.FINISH (R167): Failed repeats the error, Init and Done refuse. -/
def execFeFinish (s : State) : Host.Outcome State Fault Refusal :=
  if feActive s then .next (finishRun .fe (feFinishRun s))
  else if s.fe.state = .failed then .next (respond (errResponse s.fe.err none) s)
  else .next (refuse s)

/-- FE.RUN (R168): legal as FE.START. -/
def execFeRun (mode : BitVec 24) (s : State) : Host.Outcome State Fault Refusal :=
  if modeOk mode then .next (finishRun .fe (feRunRun mode s)) else .next (refuse s)

end Sys2Proof.Machine
end

