-- ==== Sys2Proof/Machine/MatchTable.lean ====
section
/-! DEFINITION. The match table and the offset shifter (40_match_table.md). -/

namespace Sys2Proof.Machine

/-- MT.RESET (R102): TPL is not changed. -/
def execMtReset (s : State) : Host.Outcome State Fault Refusal :=
  if feActive s then .next (refuse s)
  else .next (respond (okResponse 0) { s with t := [] })

/-- MT.HASH (R101). -/
def execMtHash (word : Word) (s : State) : Host.Outcome State Fault Refusal :=
  .next (respond (okResponse (asWord (hashWord s.cfg word))) s)

/-- MT.LOOKUP (R103): a position 0 is told from 'no entry' by the status. -/
def execMtLookup (h : BitVec 24) (s : State) : Host.Outcome State Fault Refusal :=
  if indexOk s.cfg h then
    match tableGet s.t h.toNat with
    | some c => .next (respond (okResponse (asWord c)) s)
    | none => .next (respond { status := stNone, value := 0 } s)
  else .next (refuse s)

/-- MT.INSERT (R104): last writer wins. -/
def execMtInsert (h : BitVec 24) (pos : Word) (s : State) : Host.Outcome State Fault Refusal :=
  if feActive s || !indexOk s.cfg h then .next (refuse s)
  else .next (respond (okResponse 0) { s with t := tableSet s.t h.toNat pos.toNat })

/-- MT.SHIFT (R106), the offset shifter: TPL is not shifted. -/
def execMtShift (by_ : Word) (s : State) : Host.Outcome State Fault Refusal :=
  if feActive s then .next (refuse s)
  else .next (respond (okResponse 0) { s with t := tableShift by_.toNat s.t })

/-- MT.SEED (R105): T is not reset first. -/
def execMtSeed (stride : BitVec 24) (first : Word) (end_ : Word) (s : State) : Host.Outcome State Fault Refusal :=
  if feActive s || decide (stride = 0#24) || decide (s.win.length < end_.toNat) then .next (refuse s)
  else
    .next (respond (okResponse 0)
      { s with t := tableSeed s.cfg s.win stride.toNat end_.toNat end_.toNat first.toNat s.t })

/-- MT.SAVE (R107). -/
def execMtSave (s : State) : Host.Outcome State Fault Refusal :=
  if feActive s then .next (refuse s)
  else .next (respond (okResponse 0) { s with tpl := s.t })

/-- MT.RESEED (R108). -/
def execMtReseed (s : State) : Host.Outcome State Fault Refusal :=
  if feActive s then .next (refuse s)
  else .next (respond (okResponse 0) { s with t := s.tpl })

end Sys2Proof.Machine
end

