-- ==== Sys2Proof/Machine/System.lean ====
section
/-! DEFINITION. System, register and buffer commands (45_system_ops.md). -/

namespace Sys2Proof.Machine

/-- SYS.RESET (R213). -/
def execSysReset (s : State) : Host.Outcome State Fault Refusal := .next (respond (okResponse 0) (resetDevice s))

/-- CSR.RD (R211). -/
def execCsrRd (reg : BitVec 24) (s : State) : Host.Outcome State Fault Refusal :=
  match csrRead reg s with
  | some v => .next (respond (okResponse v) s)
  | none => .next (refuse s)

/-- CSR.WR (R212): refused while FE is active, and for every register but the four writable ones. -/
def execCsrWr (reg : BitVec 24) (value : Word) (s : State) : Host.Outcome State Fault Refusal :=
  if feActive s then .next (refuse s)
  else
    match csrWrite reg value s with
    | some s' => .next (respond (okResponse 0) s')
    | none => .next (refuse s)

/-- DICT.LOAD (R214): only the last DICT_CAP bytes are kept. -/
def execDictLoad (n : Word) (s : State) : Host.Outcome State Fault Refusal :=
  if feActive s || fdActive s then .next (refuse s)
  else
    .next <| finishRun .raw <| (srcRead n.toNat s).bind fun v s1 =>
      let d := lastK Config.dictCap v
      .done (okResponse (asWord d.length)) { s1 with dict := d }

/-- DICT.CLEAR (R215). -/
def execDictClear (s : State) : Host.Outcome State Fault Refusal :=
  if feActive s || fdActive s then .next (refuse s)
  else .next (respond (okResponse 0) { s with dict := [] })

/-- WIN.CLEAR (R216): T and TPL are not changed. -/
def execWinClear (s : State) : Host.Outcome State Fault Refusal :=
  if feActive s then .next (refuse s)
  else .next (respond (okResponse 0) { s with win := [] })

/-- WIN.APPEND (R217): refused before anything is read when WIN would pass WIN_CAP. -/
def execWinAppend (n : Word) (s : State) : Host.Outcome State Fault Refusal :=
  if feActive s || decide (Config.winCap < s.win.length + n.toNat) then .next (refuse s)
  else
    .next <| finishRun .raw <| (srcRead n.toNat s).bind fun v s1 =>
      .done (okResponse (asWord (s1.win ++ v).length)) { s1 with win := s1.win ++ v }

/-- WIN.DROP (R218): T is not shifted. -/
def execWinDrop (n : Word) (s : State) : Host.Outcome State Fault Refusal :=
  if feActive s || decide (s.win.length < n.toNat) then .next (refuse s)
  else .next (respond (okResponse (asWord (s.win.length - n.toNat))) { s with win := s.win.drop n.toNat })

/-- DIN.LOAD (R219): DIN is replaced. -/
def execDinLoad (n : Word) (s : State) : Host.Outcome State Fault Refusal :=
  if fdActive s || decide (s.cfg.dinCap < n.toNat) then .next (refuse s)
  else
    .next <| finishRun .raw <| (srcRead n.toNat s).bind fun v s1 =>
      .done (okResponse n) { s1 with din := v }

/-- SINK.FLUSH (R220). -/
def execSinkFlush (s : State) : Host.Outcome State Fault Refusal :=
  .next <| finishRun .raw <| (snkWrite s.sink s).bind fun _ s1 => .done (okResponse (asWord s.sink.length)) s1

/-- OUT.FLUSH (R221), the adapter's peek: OUT from RPOS on. -/
def execOutFlush (s : State) : Host.Outcome State Fault Refusal :=
  .next <| finishRun .raw <| (snkWrite (s.out.drop s.rpos) s).bind fun _ s1 =>
    .done (okResponse (asWord (s.out.length - s.rpos))) s1

/-- DWIN.CLEAR (R222). -/
def execDwinClear (s : State) : Host.Outcome State Fault Refusal :=
  if fdActive s then .next (refuse s)
  else .next (respond (okResponse 0) { s with dwin := [] })

/-- DWIN.PUSH (R223): the whole of OUT is taken, whatever RPOS. -/
def execDwinPush (s : State) : Host.Outcome State Fault Refusal :=
  if fdActive s then .next (refuse s)
  else
    let d := lastK Config.windowSize (s.dwin ++ s.out)
    .next (respond (okResponse (asWord d.length)) { s with dwin := d })

/-- DWIN.DICT (R224). -/
def execDwinDict (s : State) : Host.Outcome State Fault Refusal :=
  if fdActive s then .next (refuse s)
  else .next (respond (okResponse (asWord s.dict.length)) { s with dwin := s.dict })

end Sys2Proof.Machine
end

