-- ==== Sys2Proof/WellFormed.lean ====
section
/-! DEFINITION. Which instructions the encodings can express. Every operand value of a command is encodable (a value outside the
range its rule allows is refused by that rule when the command runs, R73 (c)), so only wire units can be ill-formed. -/

namespace Sys2Proof

/-- The instruction has an encoding of its own: the last extension byte is below 255 (R81), an offset is not 0 (R84), and a
length word that is all zero is the end mark and no block (R92). -/
def Instr.wellFormed : Instr → Bool
  | .wireLengthExtLast b => b != 255#8
  | .wireOffset off => off != 0#16
  | .wireBlockLength stored n => stored || n != 0#31
  | .wireToken .. | .wireLengthExtMore | .wireMagic | .wireFlg .. | .wireBd64K | .wireBd256K | .wireBd1M | .wireBd4M
  | .wireHeaderChecksum .. | .wireEndMark | .wireBlockChecksum .. | .wireContentChecksum .. => true
  | .sysReset | .csrRd .. | .csrWr .. | .dictLoad .. | .dictClear | .winClear | .winAppend .. | .winDrop .. | .dinLoad ..
  | .sinkFlush | .outFlush | .dwinClear | .dwinPush | .dwinDict | .mtReset | .mtHash .. | .mtLookup .. | .mtInsert ..
  | .mtShift .. | .mtSeed .. | .mtSave | .mtReseed | .encBlock .. | .decBlock .. | .feStart .. | .feBlock | .feFinish
  | .feRun .. | .fdOpen | .fdBlock | .fdAll | .rdFill | .rdConsume .. => true

end Sys2Proof
end

