-- ==== Sys2Proof/Decode.lean ====
section
/-! DEFINITION. The decoder of what the host presents (command words R70 to R73, wire units R80 to R94), then the encoder, then
the host's view of one row of the opcode table. -/

namespace Sys2Proof

/-! ### Command words (R70 to R73) -/

/-- Why a command word is illegal (R73). -/
inductive CmdReject where
  /-- R73 (a): the OPC is not in R72. -/
  | unknownOpcode
  /-- R73 (b): the format says A must be 0 and it is not. -/
  | nonzeroA
  deriving DecidableEq, Repr

/-- What the sequencer reads from the words on the port. `used` is how many words it takes. -/
inductive CmdDecode where
  | cmd (i : Instr) (used : Nat)
  | illegal (r : CmdReject) (used : Nat)
  /-- The words so far are not a whole command: the sequencer waits for more. -/
  | more
  deriving DecidableEq, Repr

/-- OPC: bits 31:24 of W0 (R70). -/
def opcOf (w0 : Word) : BitVec 8 := w0.extractLsb' 24 8

/-- A: bits 23:0 of W0 (R70). -/
def fieldA (w0 : Word) : BitVec 24 := w0.extractLsb' 0 24

/-- Format F0 (R70): W0 alone, A must be 0. -/
def decodeF0 (a : BitVec 24) (i : Instr) : CmdDecode :=
  if a = 0#24 then .cmd i 1 else .illegal .nonzeroA 1

/-- Format F2 with no A operand (R70): W1 is taken also when A is not 0 (R73 (b)). -/
def decodeF2Zero (a : BitVec 24) (rest : List Word) (mk : Word → Instr) : CmdDecode :=
  match rest with
  | [] => .more
  | w1 :: _ => if a = 0#24 then .cmd (mk w1) 2 else .illegal .nonzeroA 2

/-- Format F2 with an A operand (R70). -/
def decodeF2 (rest : List Word) (mk : Word → Instr) : CmdDecode :=
  match rest with
  | [] => .more
  | w1 :: _ => .cmd (mk w1) 2

/-- Format F3 (R70). -/
def decodeF3 (rest : List Word) (mk : Word → Word → Instr) : CmdDecode :=
  match rest with
  | w1 :: w2 :: _ => .cmd (mk w1 w2) 3
  | _ => .more

/-- The opcode map of R72. -/
def decodeCommand : List Word → CmdDecode
  | [] => .more
  | w0 :: rest =>
    let a := fieldA w0
    match (opcOf w0).toNat with
    | 0x01 => decodeF0 a .sysReset
    | 0x02 => .cmd (.csrRd a) 1
    | 0x03 => decodeF2 rest (.csrWr a)
    | 0x10 => decodeF2Zero a rest .dictLoad
    | 0x11 => decodeF0 a .dictClear
    | 0x12 => decodeF0 a .winClear
    | 0x13 => decodeF2Zero a rest .winAppend
    | 0x14 => decodeF2Zero a rest .winDrop
    | 0x15 => decodeF2Zero a rest .dinLoad
    | 0x16 => decodeF0 a .sinkFlush
    | 0x17 => decodeF0 a .outFlush
    | 0x18 => decodeF0 a .dwinClear
    | 0x19 => decodeF0 a .dwinPush
    | 0x1A => decodeF0 a .dwinDict
    | 0x20 => decodeF0 a .mtReset
    | 0x21 => decodeF2Zero a rest .mtHash
    | 0x22 => .cmd (.mtLookup a) 1
    | 0x23 => decodeF2 rest (.mtInsert a)
    | 0x24 => decodeF2Zero a rest .mtShift
    | 0x25 => decodeF3 rest (.mtSeed a)
    | 0x26 => decodeF0 a .mtSave
    | 0x27 => decodeF0 a .mtReseed
    | 0x30 => decodeF2Zero a rest .encBlock
    | 0x31 => .cmd (.decBlock a) 1
    | 0x40 => .cmd (.feStart a) 1
    | 0x41 => decodeF0 a .feBlock
    | 0x42 => decodeF0 a .feFinish
    | 0x43 => .cmd (.feRun a) 1
    | 0x50 => decodeF0 a .fdOpen
    | 0x51 => decodeF0 a .fdBlock
    | 0x52 => decodeF0 a .fdAll
    | 0x53 => decodeF0 a .rdFill
    | 0x54 => decodeF2Zero a rest .rdConsume
    | _ => .illegal .unknownOpcode 1

/-! ### Wire units (R80 to R94) -/

/-- Why the bytes in a field are no legal unit of it (R95). -/
inductive WireReject where
  /-- The field has another number of bytes. -/
  | wrongSize
  /-- An offset of 0 (R84). -/
  | zeroOffset
  /-- Not LE32(MAGIC) (R87). -/
  | wrongMagic
  /-- FLG with a version other than 01 or the reserved bit set (R88). -/
  | reservedFlg
  /-- BD that is none of the four codes (R89). -/
  | unknownBd
  deriving DecidableEq, Repr

/-- The unit that the bytes are in the given field. -/
def decodeWire (c : Config) : WireField → List Byte → Except WireReject Instr
  | .token, [b] => .ok (.wireToken (Machine.tokenLit b) (Machine.tokenMat b))
  | .lengthExt, [b] => .ok (if b = 255#8 then .wireLengthExtMore else .wireLengthExtLast b)
  | .offset, [b0, b1] =>
    if Machine.u16Of b0 b1 = 0#16 then .error .zeroOffset else .ok (.wireOffset (Machine.u16Of b0 b1))
  | .magic, [b0, b1, b2, b3] =>
    if Machine.u32Of b0 b1 b2 b3 = c.magic then .ok .wireMagic else .error .wrongMagic
  | .flg, [b] =>
    match Machine.parseFlg c.flg b with
    | some f => .ok (.wireFlg f.ind f.bck f.csz f.cck f.did)
    | none => .error .reservedFlg
  | .bd, [b] =>
    match Machine.parseBd c.bd b with
    | some k =>
      .ok (if k = 0#2 then .wireBd64K else if k = 1#2 then .wireBd256K else if k = 2#2 then .wireBd1M else .wireBd4M)
    | none => .error .unknownBd
  | .headerChecksum, [b] => .ok (.wireHeaderChecksum b)
  | .blockLength, [b0, b1, b2, b3] =>
    let w := Machine.u32Of b0 b1 b2 b3
    .ok (if w = 0#32 then .wireEndMark else .wireBlockLength (Machine.wordStored w) (Machine.wordCount w))
  | .blockChecksum, [b0, b1, b2, b3] => .ok (.wireBlockChecksum (Machine.u32Of b0 b1 b2 b3))
  | .contentChecksum, [b0, b1, b2, b3] => .ok (.wireContentChecksum (Machine.u32Of b0 b1 b2 b3))
  | _, _ => .error .wrongSize

/-! ### What comes next from the host -/

/-- The words at the front of the host's items, up to the first item that is no word. -/
def portWords : List HostItem → List Word
  | .word w :: rest => w :: portWords rest
  | _ => []

/-- The first item that is no word, taken out of the list (the words before it stay on the port). -/
def takeHostAct : List HostItem → Option (HostItem × List HostItem)
  | [] => none
  | .word w :: rest => (takeHostAct rest).map fun (x, r) => (x, .word w :: r)
  | x :: rest => some (x, rest)

/-- What the next step does. -/
inductive Fetched where
  /-- Nothing to do: the device waits (R271, R261). -/
  | idle
  /-- An instruction: a command, or a legal wire unit the host sends. -/
  | instr (i : Instr) (rest : List HostItem)
  /-- An illegal command word (R73 (a), (b)). -/
  | illegal (r : CmdReject) (rest : List HostItem)
  /-- An act of the host; bytes of an illegal wire unit (R95) are sent as bytes. -/
  | act (a : HostAct) (rest : List HostItem)
  deriving DecidableEq, Repr

/-- A host item that is no word. -/
def fetchHostItem (c : Config) (x : HostItem) (rest : List HostItem) : Fetched :=
  match x with
  | .word _ => .idle
  | .act a => .act a rest
  | .wire f b =>
    match decodeWire c f b with
    | .ok i => .instr i rest
    | .error _ => .act (.feed b) rest

/-- What the next step does with the host's items: the command at the front when all its words are there; else, while the
sequencer waits for words, the host's next act (R8, R70; log 3). -/
def fetch (c : Config) (inbox : List HostItem) : Fetched :=
  match decodeCommand (portWords inbox) with
  | .cmd i used => .instr i (inbox.drop used)
  | .illegal r used => .illegal r (inbox.drop used)
  | .more =>
    match takeHostAct inbox with
    | some (x, rest) => fetchHostItem c x rest
    | none => .idle

/-! ### The encoder -/

/-- W0 from OPC and A (R70). -/
def word0 (opc : BitVec 8) (a : BitVec 24) : Word := opc ++ a

/-- The items the host presents for an instruction: command words by R70 and R72, or the bytes of a wire unit by R80 to R94. -/
def encode (c : Config) : Instr → List HostItem
  | .sysReset => [.word (word0 0x01 0)]
  | .csrRd reg => [.word (word0 0x02 reg)]
  | .csrWr reg value => [.word (word0 0x03 reg), .word value]
  | .dictLoad n => [.word (word0 0x10 0), .word n]
  | .dictClear => [.word (word0 0x11 0)]
  | .winClear => [.word (word0 0x12 0)]
  | .winAppend n => [.word (word0 0x13 0), .word n]
  | .winDrop n => [.word (word0 0x14 0), .word n]
  | .dinLoad n => [.word (word0 0x15 0), .word n]
  | .sinkFlush => [.word (word0 0x16 0)]
  | .outFlush => [.word (word0 0x17 0)]
  | .dwinClear => [.word (word0 0x18 0)]
  | .dwinPush => [.word (word0 0x19 0)]
  | .dwinDict => [.word (word0 0x1A 0)]
  | .mtReset => [.word (word0 0x20 0)]
  | .mtHash w => [.word (word0 0x21 0), .word w]
  | .mtLookup h => [.word (word0 0x22 h)]
  | .mtInsert h pos => [.word (word0 0x23 h), .word pos]
  | .mtShift b => [.word (word0 0x24 0), .word b]
  | .mtSeed stride first end_ => [.word (word0 0x25 stride), .word first, .word end_]
  | .mtSave => [.word (word0 0x26 0)]
  | .mtReseed => [.word (word0 0x27 0)]
  | .encBlock start => [.word (word0 0x30 0), .word start]
  | .decBlock ctxsel => [.word (word0 0x31 ctxsel)]
  | .feStart mode => [.word (word0 0x40 mode)]
  | .feBlock => [.word (word0 0x41 0)]
  | .feFinish => [.word (word0 0x42 0)]
  | .feRun mode => [.word (word0 0x43 mode)]
  | .fdOpen => [.word (word0 0x50 0)]
  | .fdBlock => [.word (word0 0x51 0)]
  | .fdAll => [.word (word0 0x52 0)]
  | .rdFill => [.word (word0 0x53 0)]
  | .rdConsume n => [.word (word0 0x54 0), .word n]
  | .wireToken lit mat => [.wire .token [Machine.tokenByte lit mat]]
  | .wireLengthExtMore => [.wire .lengthExt [255#8]]
  | .wireLengthExtLast b => [.wire .lengthExt [b]]
  | .wireOffset off => [.wire .offset (Machine.le16 off)]
  | .wireMagic => [.wire .magic (Machine.le32 c.magic)]
  | .wireFlg ind bck csz cck did => [.wire .flg [Machine.flgByte c.flg ⟨ind, bck, csz, cck, did⟩]]
  | .wireBd64K => [.wire .bd [Machine.bdByte c.bd 0]]
  | .wireBd256K => [.wire .bd [Machine.bdByte c.bd 1]]
  | .wireBd1M => [.wire .bd [Machine.bdByte c.bd 2]]
  | .wireBd4M => [.wire .bd [Machine.bdByte c.bd 3]]
  | .wireHeaderChecksum b => [.wire .headerChecksum [b]]
  | .wireBlockLength stored n => [.wire .blockLength (Machine.le32 (Machine.lengthWord stored n))]
  | .wireEndMark => [.wire .blockLength (Machine.le32 0)]
  | .wireBlockChecksum w => [.wire .blockChecksum (Machine.le32 w)]
  | .wireContentChecksum w => [.wire .contentChecksum (Machine.le32 w)]

/-- The bytes that an item carries on SRC. -/
def itemBytes : HostItem → List Byte
  | .wire _ b => b
  | .act (.feed b) => b
  | .act _ => []
  | .word _ => []

/-- The bytes of a wire unit (none for a command, whose words go to the command port). -/
def wireBytes (c : Config) (i : Instr) : List Byte := ((encode c i).map itemBytes).flatten

/-! ### One row of the opcode table -/

/-- The field of a lone unit of the opcode table from its width and bits alone. The table gives no field, and several rows share
bits (log 5): a class code is read as BD, another legal flag byte as FLG, FF as an extension byte, any other byte as a token. -/
def guessField (c : Config) (nbits w : Nat) : WireField :=
  if nbits ≤ 8 then
    let b : Byte := BitVec.ofNat 8 w
    if b = 255#8 then .lengthExt
    else if (Machine.parseBd c.bd b).isSome then .bd
    else if (Machine.parseFlg c.flg b).isSome then .flg
    else .token
  else if nbits ≤ 16 then .offset
  else if BitVec.ofNat 32 w = c.magic then .magic
  else .blockLength

/-- The bytes of a lone unit: as many as its width, the least significant first (R52). -/
def unitBytes (nbits w : Nat) : List Byte :=
  if nbits ≤ 8 then [BitVec.ofNat 8 w]
  else if nbits ≤ 16 then Machine.le16 (BitVec.ofNat 16 w)
  else Machine.le32 (BitVec.ofNat 32 w)

/-- The three command words in `w`: word k is bits 32k+31 down to 32k. -/
def tableWords (w : Nat) : List Word :=
  [BitVec.ofNat 32 w, BitVec.ofNat 32 (w / 4294967296), BitVec.ofNat 32 (w / 18446744073709551616)]

/-- What the host presents for a table row whose bits are `w`: the words of a command (as many as its format has, R70) when the
row is at least a word wide; a wire unit when it is narrower, or when the word is no command but the magic or the end mark. -/
def tableItems (nbits w : Nat) : List HostItem :=
  let unit := HostItem.wire (guessField Config.default nbits w) (unitBytes nbits w)
  if nbits < 32 then [unit]
  else
    match decodeCommand (tableWords w) with
    | .cmd _ used => ((tableWords w).take used).map HostItem.word
    | .illegal _ used =>
      if nbits = 32 ∧ (BitVec.ofNat 32 w = Config.default.magic ∨ w = 0) then [unit]
      else ((tableWords w).take used).map HostItem.word
    | .more => (tableWords w).map HostItem.word

/-- The instruction the decoder reads from a table row's bits (numbered as the table numbers them). -/
def decodeTableWord (nbits w : Nat) : Option Instr :=
  match fetch Config.default (tableItems nbits w) with
  | .instr i _ => some i
  | .illegal _ _ => none
  | .act _ _ => none
  | .idle => none

end Sys2Proof
end

