-- ==== Sys2Proof/Machine/WireUnits.lean ====
section
/-! DEFINITION. The wire units of the opcode table (30_encoding.md part B). LZ4-MF never executes a wire unit (R61): a unit reaches
it as bytes of SRC, which the host appends between commands (R8, R56), and the units FD and DEC read it there. So the meaning of a
wire row is that act of the host: SRC grows by the unit's bytes, no response is returned, nothing else changes (log 5). -/

namespace Sys2Proof.Machine

/-- The host appends bytes to SRC (R56). -/
def feedSrc (b : List Byte) (s : State) : State := { s with host := { s.host with src := s.host.src ++ b } }

/-- WIRE row of R80: the unit's bytes arrive on SRC. -/
def execWireToken (lit mat : BitVec 4) (s : State) : Host.Outcome State Fault Refusal :=
  .next (feedSrc (wireBytes s.cfg (.wireToken lit mat)) s)

/-- WIRE row of R81: the unit's bytes arrive on SRC. -/
def execWireLengthExtMore (s : State) : Host.Outcome State Fault Refusal :=
  .next (feedSrc (wireBytes s.cfg .wireLengthExtMore) s)

/-- WIRE row of R81: the unit's bytes arrive on SRC. -/
def execWireLengthExtLast (b : Byte) (s : State) : Host.Outcome State Fault Refusal :=
  .next (feedSrc (wireBytes s.cfg (.wireLengthExtLast b)) s)

/-- WIRE row of R84: the unit's bytes arrive on SRC. -/
def execWireOffset (off : BitVec 16) (s : State) : Host.Outcome State Fault Refusal :=
  .next (feedSrc (wireBytes s.cfg (.wireOffset off)) s)

/-- WIRE row of R87: the unit's bytes arrive on SRC. -/
def execWireMagic (s : State) : Host.Outcome State Fault Refusal :=
  .next (feedSrc (wireBytes s.cfg .wireMagic) s)

/-- WIRE row of R88: the unit's bytes arrive on SRC. -/
def execWireFlg (ind bck csz cck did : Bool) (s : State) : Host.Outcome State Fault Refusal :=
  .next (feedSrc (wireBytes s.cfg (.wireFlg ind bck csz cck did)) s)

/-- WIRE row of R89, class 0: the unit's bytes arrive on SRC. -/
def execWireBd64K (s : State) : Host.Outcome State Fault Refusal :=
  .next (feedSrc (wireBytes s.cfg .wireBd64K) s)

/-- WIRE row of R89, class 1: the unit's bytes arrive on SRC. -/
def execWireBd256K (s : State) : Host.Outcome State Fault Refusal :=
  .next (feedSrc (wireBytes s.cfg .wireBd256K) s)

/-- WIRE row of R89, class 2: the unit's bytes arrive on SRC. -/
def execWireBd1M (s : State) : Host.Outcome State Fault Refusal :=
  .next (feedSrc (wireBytes s.cfg .wireBd1M) s)

/-- WIRE row of R89, class 3: the unit's bytes arrive on SRC. -/
def execWireBd4M (s : State) : Host.Outcome State Fault Refusal :=
  .next (feedSrc (wireBytes s.cfg .wireBd4M) s)

/-- WIRE row of R91: the unit's bytes arrive on SRC. -/
def execWireHeaderChecksum (c : Byte) (s : State) : Host.Outcome State Fault Refusal :=
  .next (feedSrc (wireBytes s.cfg (.wireHeaderChecksum c)) s)

/-- WIRE row of R90: the unit's bytes arrive on SRC. -/
def execWireBlockLength (stored : Bool) (n : BitVec 31) (s : State) : Host.Outcome State Fault Refusal :=
  .next (feedSrc (wireBytes s.cfg (.wireBlockLength stored n)) s)

/-- WIRE row of R92: the unit's bytes arrive on SRC. -/
def execWireEndMark (s : State) : Host.Outcome State Fault Refusal :=
  .next (feedSrc (wireBytes s.cfg .wireEndMark) s)

/-- WIRE row of R94: the unit's bytes arrive on SRC. -/
def execWireBlockChecksum (c : Word) (s : State) : Host.Outcome State Fault Refusal :=
  .next (feedSrc (wireBytes s.cfg (.wireBlockChecksum c)) s)

/-- WIRE row of R93: the unit's bytes arrive on SRC. -/
def execWireContentChecksum (c : Word) (s : State) : Host.Outcome State Fault Refusal :=
  .next (feedSrc (wireBytes s.cfg (.wireContentChecksum c)) s)

end Sys2Proof.Machine
end

