-- ==== Sys2Proof/Machine/Dispatch.lean ====
section
/-! DEFINITION. The dispatch: one arm per constructor of Instr, each a direct call of that instruction's meaning. -/

namespace Sys2Proof.Machine

def exec (i : Instr) (s : State) : Host.Outcome State Fault Refusal :=
  match i with
  | .sysReset => Sys2Proof.Machine.execSysReset s
  | .csrRd reg => Sys2Proof.Machine.execCsrRd reg s
  | .csrWr reg value => Sys2Proof.Machine.execCsrWr reg value s
  | .dictLoad n => Sys2Proof.Machine.execDictLoad n s
  | .dictClear => Sys2Proof.Machine.execDictClear s
  | .winClear => Sys2Proof.Machine.execWinClear s
  | .winAppend n => Sys2Proof.Machine.execWinAppend n s
  | .winDrop n => Sys2Proof.Machine.execWinDrop n s
  | .dinLoad n => Sys2Proof.Machine.execDinLoad n s
  | .sinkFlush => Sys2Proof.Machine.execSinkFlush s
  | .outFlush => Sys2Proof.Machine.execOutFlush s
  | .dwinClear => Sys2Proof.Machine.execDwinClear s
  | .dwinPush => Sys2Proof.Machine.execDwinPush s
  | .dwinDict => Sys2Proof.Machine.execDwinDict s
  | .mtReset => Sys2Proof.Machine.execMtReset s
  | .mtHash word => Sys2Proof.Machine.execMtHash word s
  | .mtLookup h => Sys2Proof.Machine.execMtLookup h s
  | .mtInsert h pos => Sys2Proof.Machine.execMtInsert h pos s
  | .mtShift by_ => Sys2Proof.Machine.execMtShift by_ s
  | .mtSeed stride first end_ => Sys2Proof.Machine.execMtSeed stride first end_ s
  | .mtSave => Sys2Proof.Machine.execMtSave s
  | .mtReseed => Sys2Proof.Machine.execMtReseed s
  | .encBlock start => Sys2Proof.Machine.execEncBlock start s
  | .decBlock ctxsel => Sys2Proof.Machine.execDecBlock ctxsel s
  | .feStart mode => Sys2Proof.Machine.execFeStart mode s
  | .feBlock => Sys2Proof.Machine.execFeBlock s
  | .feFinish => Sys2Proof.Machine.execFeFinish s
  | .feRun mode => Sys2Proof.Machine.execFeRun mode s
  | .fdOpen => Sys2Proof.Machine.execFdOpen s
  | .fdBlock => Sys2Proof.Machine.execFdBlock s
  | .fdAll => Sys2Proof.Machine.execFdAll s
  | .rdFill => Sys2Proof.Machine.execRdFill s
  | .rdConsume n => Sys2Proof.Machine.execRdConsume n s
  | .wireToken lit mat => Sys2Proof.Machine.execWireToken lit mat s
  | .wireLengthExtMore => Sys2Proof.Machine.execWireLengthExtMore s
  | .wireLengthExtLast b => Sys2Proof.Machine.execWireLengthExtLast b s
  | .wireOffset off => Sys2Proof.Machine.execWireOffset off s
  | .wireMagic => Sys2Proof.Machine.execWireMagic s
  | .wireFlg ind bck csz cck did => Sys2Proof.Machine.execWireFlg ind bck csz cck did s
  | .wireBd64K => Sys2Proof.Machine.execWireBd64K s
  | .wireBd256K => Sys2Proof.Machine.execWireBd256K s
  | .wireBd1M => Sys2Proof.Machine.execWireBd1M s
  | .wireBd4M => Sys2Proof.Machine.execWireBd4M s
  | .wireHeaderChecksum c => Sys2Proof.Machine.execWireHeaderChecksum c s
  | .wireBlockLength stored n => Sys2Proof.Machine.execWireBlockLength stored n s
  | .wireEndMark => Sys2Proof.Machine.execWireEndMark s
  | .wireBlockChecksum c => Sys2Proof.Machine.execWireBlockChecksum c s
  | .wireContentChecksum c => Sys2Proof.Machine.execWireContentChecksum c s

end Sys2Proof.Machine
end

