-- ==== Sys2Proof/Machine/HostActs.lean ====
section
/-! DEFINITION. The acts of the host between commands (R8), and what a fetched item does apart from exec: waiting, a host act, an
illegal command word. -/

namespace Sys2Proof.Machine

/-- One act of the host. Power-on leaves the state of SYS.RESET (R271) and returns no response. -/
def hostAct (a : HostAct) (s : State) : State :=
  match a with
  | .feed b => feedSrc b s
  | .skip n => { s with host := { s.host with src := s.host.src.drop n } }
  | .drain n => { s with host := { s.host with snk := s.host.snk.drop n } }
  | .collect n => { s with host := { s.host with resp := s.host.resp.drop n } }
  | .powerOn => resetDevice s

/-- The state with another list of items still to come from the host. -/
def withInbox (items : List HostItem) (s : State) : State := { s with host := { s.host with inbox := items } }

/-- An illegal command word (R73 (a), (b)): the words are taken, no state changes, the response is REFUSED. -/
def illegalCommand (_r : CmdReject) (s : State) : State := refuse s

end Sys2Proof.Machine
end

