-- ==== Sys2Proof/Machine/Step.lean ====
section
/-! DEFINITION. One step: the next command on the port, run to completion (R8); or the host's next act; or, with nothing to do,
waiting (R261, R271). -/

namespace Sys2Proof.Machine

def step (s : State) : Host.Outcome State Fault Refusal :=
  match fetch s.cfg s.host.inbox with
  | .idle => .next s
  | .instr i rest => exec i (withInbox rest s)
  | .illegal r rest => .next (illegalCommand r (withInbox rest s))
  | .act a rest => .next (hostAct a (withInbox rest s))

/-- The state with an instruction of the opcode table presented first (log 8). -/
def State.withFetchWord (s : State) (nbits w : Nat) : State := withInbox (tableItems nbits w ++ s.host.inbox) s

end Sys2Proof.Machine
end

