-- ==== Sys2Proof/Safety.lean ====
section
/-! DEFINITION. What the statements take for granted of a state, and what a safe state is: the invariant `Inv` that every step
keeps (R24, R30 to R33, R63, R110, R170, R199). -/

namespace Sys2Proof.Machine

/-- The next `k` transfers succeed (R58). -/
def drawsOk (k : Nat) (s : State) : Bool := (s.host.draws.take k).all fun d => d == .ok

/-- Every transfer to come succeeds. -/
def allDrawsOk (s : State) : Bool := s.host.draws.all fun d => d == .ok

/-- SRC and the draws after successful transfers: `k` draws taken, SRC left with `src`, `out` appended to SNK. -/
def transferred (k : Nat) (src out : List Byte) (s : State) : State :=
  { s with host := { s.host with src := src, snk := s.host.snk ++ out, draws := s.host.draws.drop k } }

/-- A checksum field that is there only when its flag is set (R93, R94). -/
def checksumBytes (present : Bool) (v : Word) : List Byte := if present then le32 v else []

/-- `n` transfers succeed and the next one fails, with `k` bytes landed where it is a write (R57); `ds` are the draws after it. -/
def FailsAfter (n k : Nat) (ds : List IoDraw) (s : State) : Prop := drawsOk n s = true ∧ s.host.draws.drop n = .fail k :: ds

/-- `n` transfers succeed and leave SRC with `tail`; the next one, a SrcRead of `len` bytes, is IoFailure, by its draw or because
`tail` is too short and then lost (R56). `h` is the host's side after it. -/
def ReadFails (n len : Nat) (tail : List Byte) (s : State) (h : HostSide) : Prop :=
  (∃ k ds, FailsAfter n k ds s ∧ h = { s.host with src := tail, draws := ds }) ∨
  (drawsOk (n + 1) s = true ∧ tail.length < len ∧ h = { s.host with src := [], draws := s.host.draws.drop (n + 1) })

/-- The commands `l`, issued one after the other from `s`, all answer OK and lead to `t`, the responses left out (what R168 calls
'the same commands issued one by one'). -/
def OkAfter : List Instr → State → State → Prop
  | [], s, t => t = s
  | i :: l, s, t => ∃ v u, exec i s = .next (respond ⟨0x00, v⟩ u) ∧ OkAfter l u t

/-- The fields of a header, each as one transfer of FD.OPEN reads it (R181). -/
def headerFields (c : Config) (ind bck cck : Bool) (bsz : BitVec 2) (size : Option (BitVec 64)) (id : Option Word) :
    List (List Byte) :=
  let hdr := [flgByte c.flg ⟨ind, bck, size.isSome, cck, id.isSome⟩, bdByte c.bd bsz]
  [le32 c.magic, hdr] ++ size.toList.map le64 ++ id.toList.map le32 ++ [[headerChecksum c (hdr ++ sizeField size ++ idField id)]]

/-- What FE.BLOCK writes for a block, each as one transfer (R164): the length word, the body, the block checksum iff BCK. -/
def blockFields (c : Config) (bck : Bool) (w : Word) (body : List Byte) : List (List Byte) :=
  [le32 w, body] ++ if bck then [le32 (h32 c 0 body)] else []

/-- `p` is one of the positions that MT.SEED takes from a buffer `B` (R105): first, first + stride, … below `end_`, with a whole
4-byte prefix. -/
def SeedPos (B : List Byte) (stride first end_ p : Nat) : Prop :=
  (∃ k, p = first + k * stride) ∧ p < end_ ∧ p + 4 ≤ B.length

/-- `t1` is `t0` seeded (R105): under each hash, the highest seeded position; where none has that hash, the entry of `t0`. -/
def SeedResult (c : Config) (B : List Byte) (stride first end_ : Nat) (t0 t1 : Table) : Prop :=
  ∀ h,
    (∀ p, SeedPos B stride first end_ p → hashAt c B p = h →
      (∀ q, SeedPos B stride first end_ q → hashAt c B q = h → q ≤ p) → tableGet t1 h = some p) ∧
    ((∀ p, SeedPos B stride first end_ p → hashAt c B p ≠ h) → tableGet t1 h = tableGet t0 h)

/-- A sequence of the block format (R84): literals, offset, match length. -/
structure BlockSeq where
  lit : List Byte
  off : Nat
  mat : Nat
  deriving DecidableEq, Repr

/-- The bytes of a sequence, in the layout of R84. -/
def seqBytes (q : BlockSeq) : List Byte :=
  [tokenByte (nibble q.lit.length) (nibble (q.mat - 4))] ++ lengthExt q.lit.length ++ q.lit ++
    le16 (BitVec.ofNat 16 q.off) ++ lengthExt (q.mat - 4)

/-- The bytes of a coded block (R85): its sequences, then the last literals. The match nibble `nib` of the last token is free on
the decoder's side (R143). -/
def blockBytes (seqs : List BlockSeq) (nib : BitVec 4) (last : List Byte) : List Byte :=
  (seqs.map seqBytes).flatten ++ [tokenByte (nibble last.length) nib] ++ lengthExt last.length ++ last

/-- The `m` bytes of a match at distance `off` in the closed form of R146: with `Z` the context followed by the output, byte k is
Z[z − off + (k mod off)]. -/
def matchBytes (Z : List Byte) (off m : Nat) : List Byte :=
  (List.range m).map fun k => byteAt Z (Z.length - off + k % off)

/-- What a sequence adds to the output (R141, R146). -/
def seqOutput (ctx out : List Byte) (q : BlockSeq) : List Byte :=
  out ++ q.lit ++ matchBytes (ctx ++ (out ++ q.lit)) q.off q.mat

/-- A sequence is legal after the output so far (R84, R144): 1 ≤ offset ≤ 65535, at least 4 bytes of match, and the offset within
output and context. -/
def seqOk (ctx out : List Byte) (q : BlockSeq) : Prop :=
  1 ≤ q.off ∧ q.off ≤ 65535 ∧ 4 ≤ q.mat ∧ q.off ≤ out.length + q.lit.length + ctx.length

/-- The output of a list of sequences. -/
def seqsOutput (ctx : List Byte) : List BlockSeq → List Byte → List Byte
  | [], out => out
  | q :: rest, out => seqsOutput ctx rest (seqOutput ctx out q)

/-- Each sequence is legal where it stands. -/
def seqsOk (ctx : List Byte) : List BlockSeq → List Byte → Prop
  | [], _ => True
  | q :: rest, out => seqOk ctx out q ∧ seqsOk ctx rest (seqOutput ctx out q)

/-- Both table files are in canonical form, with indices below TABLE_SIZE and positions of POS_W bits (R24, R25). -/
abbrev TablesWf (s : State) : Prop := tableWf s.cfg s.t = true ∧ tableWf s.cfg s.tpl = true

/-- No buffer exceeds its capacity (R26, R63), and RPOS stays within OUT (R32). -/
abbrev BuffersFit (s : State) : Prop :=
  s.win.length ≤ Config.winCap ∧ s.sink.length ≤ Config.blockMax 3 ∧ s.din.length ≤ s.cfg.dinCap ∧
  s.out.length ≤ s.cfg.outCap ∧ s.dwin.length ≤ Config.windowSize ∧ s.dict.length ≤ Config.dictCap ∧
  s.rpos ≤ s.out.length

/-- Every valid entry of a table is below a bound (R110). -/
def tableBelow (n : Nat) (t : Table) : Bool := t.all fun e => decide (e.2 < n)

/-- The FE record (R30): never between the states that FE.FINISH passes through, Failed exactly with the kind IoFailure; and while
a frame is open, the retained window is bounded (R170), in independent mode it is the dictionary prefix (R166), the hasher exists
iff CCK (R169), and every entry of T points into WIN (R110). -/
abbrev FeOk (s : State) : Prop :=
  s.fe.state ≠ .terminatorWritten ∧ s.fe.state ≠ .trailerWritten ∧
  (s.fe.err = none ∨ s.fe.err = some .ioFailure) ∧ (s.fe.state = .failed ↔ s.fe.err = some .ioFailure) ∧
  s.fe.dlen ≤ Config.dictCap ∧
  (feActive s = true →
    s.win.length ≤ Config.windowSize ∧ tableBelow s.win.length s.t = true ∧ s.fe.ch.isSome = setCck s.fe.set ∧
    (setInd s.fe.set = true → s.win.length = s.fe.dlen ∧ tableBelow s.win.length s.tpl = true))

/-- The FD record (R31): Failed exactly with an error kind, a sub-cause only with RawCodecCorruption (R37); and while a frame is
open, the class is one of the four, the hasher exists iff CCK, DWIN is empty in independent mode, and OUT holds no more than the
class maximum (R188). -/
abbrev FdOk (s : State) : Prop :=
  (s.fd.state = .failed ↔ s.fd.err.isSome = true) ∧
  (s.fd.sub.isSome = true → s.fd.err = some .rawCodecCorruption) ∧
  (fdActive s = true →
    (∃ k, s.fd.bmax = Config.blockMax k) ∧ s.fd.ch.isSome = s.fd.cck ∧ (s.fd.ind = true → s.dwin = []) ∧
    s.out.length ≤ s.fd.bmax)

/-- The invariant of the machine: a valid configuration (R7), and the four parts above. -/
abbrev Inv (s : State) : Prop := s.cfg.valid ∧ TablesWf s ∧ BuffersFit s ∧ FeOk s ∧ FdOk s

end Sys2Proof.Machine
end

