-- ==== Sys2Proof/Certificates/Slice0/Obligations.lean ====
section
/-! DEFINITION. The statements for the provers, from the numbered rules of spec/. Each docstring names its rule.

Conventions: `respond r s` is `s` with the response `r` appended (R74) and nothing else changed, so an equation
`exec i s = .next (respond r { s with … })` states the whole frame: every piece of state that is not named is unchanged.
`drawsOk k s`: the next k transfers succeed (R58). -/

open Sys2Proof Sys2Proof.Machine

/-! ### Reset and registers -/

/-- R270. -/
def Obligations.ResetLeavesSpecValues : Prop :=
  (∀ h, tableGet State.reset.t h = none ∧ tableGet State.reset.tpl h = none) ∧
  State.reset.win = [] ∧ State.reset.sink = [] ∧ State.reset.din = [] ∧ State.reset.out = [] ∧ State.reset.dwin = [] ∧
  State.reset.dict = [] ∧ State.reset.settings.setWidth 32 = 0x1D#32 ∧ State.reset.dictId = 0 ∧ State.reset.csizeLo = 0 ∧
  State.reset.csizeHi = 0 ∧ State.reset.fe = ⟨.init, none, 0, none, 0⟩ ∧
  State.reset.fd = ⟨.closed, none, none, false, false, false, 0, none⟩ ∧ State.reset.hdr = ⟨0, 0, 0, 0, 0⟩ ∧
  State.reset.rpos = 0

/-- R213: OPC 0x01; every piece of state takes its reset value; ports, responses and configuration stay; power-on leaves the
same (R271). -/
def Obligations.SysResetReturnsToReset : Prop :=
  decodeCommand [word0 0x01 0] = .cmd .sysReset 1 ∧
  ∀ s : State,
    exec .sysReset s = .next (respond ⟨0x00, 0⟩ { State.reset with host := s.host, cfg := s.cfg }) ∧
    hostAct .powerOn s = { State.reset with host := s.host, cfg := s.cfg }

/-- R211: OPC 0x02, register number in A; CSR.RD returns the register of 10_state.md section 5 and changes nothing; a number
above 0x12 is refused. -/
def Obligations.CsrReadReturnsRegister : Prop :=
  (∀ reg, decodeCommand [word0 0x02 reg] = .cmd (.csrRd reg) 1) ∧
  ∀ s : State,
    (∀ e ∈ ([(0x00, s.settings.setWidth 32), (0x01, s.dictId), (0x02, s.csizeLo), (0x03, s.csizeHi), (0x04, feStatus s.fe),
        (0x05, fdStatus s.fd), (0x06, s.hdr.info), (0x07, s.hdr.blkmax), (0x08, s.hdr.csizeLo), (0x09, s.hdr.csizeHi),
        (0x0A, s.hdr.dictId), (0x0B, asWord s.win.length), (0x0C, asWord s.sink.length), (0x0D, asWord s.din.length),
        (0x0E, asWord s.out.length), (0x0F, asWord s.dwin.length), (0x10, asWord s.dict.length), (0x11, asWord s.rpos),
        (0x12, hwcfg s.cfg)] : List (BitVec 24 × Word)),
      exec (.csrRd e.1) s = .next (respond ⟨0x00, e.2⟩ s)) ∧
    (∀ reg : BitVec 24, 0x12 < reg.toNat → exec (.csrRd reg) s = .next (respond ⟨0xFF, 0⟩ s))

/-- R36, R37: the fields of the two status registers, and their other bits 0; both read 0 at reset. The numbers in the fields are
those of R30 (FE.STATE), R31 (FD.STATE), R240 (error kinds) and R242 (sub-causes). -/
def Obligations.StatusRegisterFields : Prop :=
  feStatus State.reset.fe = 0 ∧ fdStatus State.reset.fd = 0 ∧
  (∀ e ∈ ([(.init, 0), (.headerWritten, 1), (.blockLoop, 2), (.terminatorWritten, 3), (.trailerWritten, 4), (.done, 5),
      (.failed, 7)] : List (FeState × Nat)), feStateNum e.1 = e.2) ∧
  (∀ e ∈ ([(.closed, 0), (.blocks, 1), (.finished, 2), (.failed, 7)] : List (FdState × Nat)), fdStateNum e.1 = e.2) ∧
  (errField none = 0 ∧
    ∀ e ∈ ([(.ioFailure, 1), (.rawCodecCorruption, 2), (.headerParseError, 3), (.wrongMagic, 4), (.headerChecksumFail, 5),
      (.blockChecksumFail, 6), (.frameChecksumFail, 7), (.blockLengthOverflow, 8), (.blockSizeOverflow, 9)] :
      List (ErrKind × Nat)), errNum e.1 = e.2 ∧ errField (some e.1) = e.2) ∧
  (subField none = 0 ∧
    ∀ e ∈ ([(.truncatedInput, 1), (.literalOverrun, 2), (.zeroOffset, 3), (.offsetTooLarge, 4), (.outputOverrun, 5)] :
      List (SubCause × Nat)), subNum e.1 = e.2 ∧ subField (some e.1) = e.2) ∧
  ∀ s : State,
    ((feStatus s.fe).extractLsb' 0 3 = BitVec.ofNat 3 (feStateNum s.fe.state) ∧ (feStatus s.fe).getLsbD 3 = false ∧
      (feStatus s.fe).extractLsb' 4 4 = BitVec.ofNat 4 (errField s.fe.err) ∧ (feStatus s.fe).extractLsb' 8 24 = 0) ∧
    ((fdStatus s.fd).extractLsb' 0 3 = BitVec.ofNat 3 (fdStateNum s.fd.state) ∧ (fdStatus s.fd).getLsbD 3 = false ∧
      (fdStatus s.fd).extractLsb' 4 4 = BitVec.ofNat 4 (errField s.fd.err) ∧
      (fdStatus s.fd).extractLsb' 8 4 = BitVec.ofNat 4 (subField s.fd.sub) ∧ (fdStatus s.fd).extractLsb' 12 20 = 0)

/-- R39: the fields of HWCFG for every valid configuration, and its value with the default parameters. -/
def Obligations.HwcfgShowsParameters : Prop :=
  (∀ c : Config, c.valid →
    ((hwcfg c).extractLsb' 0 5).toNat = c.hashLog ∧ ((hwcfg c).extractLsb' 8 5).toNat = c.hcShift ∧
    ((hwcfg c).extractLsb' 16 8).toNat = c.seedStride ∧ (hwcfg c).extractLsb' 5 3 = 0 ∧ (hwcfg c).extractLsb' 13 3 = 0 ∧
    (hwcfg c).extractLsb' 24 8 = 0) ∧
  hwcfg Config.default = 0x0003180C

/-- R212: OPC 0x03, register number in A, value in W1; CSR.WR sets one of the four writable registers while FE is not active,
SETTINGS keeping value & 0x3F; every other case is refused. -/
def Obligations.CsrWriteSetsRegister : Prop :=
  (∀ reg v, decodeCommand [word0 0x03 reg, v] = .cmd (.csrWr reg v) 2) ∧
  ∀ (s : State) (reg : BitVec 24) (v : Word),
    (feActive s = false →
      (reg = 0x00 → ∃ t, exec (.csrWr reg v) s = .next (respond ⟨0x00, 0⟩ { s with settings := t }) ∧
        t.setWidth 32 = v &&& 0x3F#32) ∧
      (reg = 0x01 → exec (.csrWr reg v) s = .next (respond ⟨0x00, 0⟩ { s with dictId := v })) ∧
      (reg = 0x02 → exec (.csrWr reg v) s = .next (respond ⟨0x00, 0⟩ { s with csizeLo := v })) ∧
      (reg = 0x03 → exec (.csrWr reg v) s = .next (respond ⟨0x00, 0⟩ { s with csizeHi := v }))) ∧
    ((0x03 < reg.toNat ∨ feActive s = true) → exec (.csrWr reg v) s = .next (respond ⟨0xFF, 0⟩ s))

/-! ### Buffers -/

/-- R215, R216, R222: OPC 0x11, 0x12, 0x18; the three clearing commands, and where they are refused. -/
def Obligations.ClearCommandsEmptyTheirBuffer : Prop :=
  decodeCommand [word0 0x11 0] = .cmd .dictClear 1 ∧ decodeCommand [word0 0x12 0] = .cmd .winClear 1 ∧
  decodeCommand [word0 0x18 0] = .cmd .dwinClear 1 ∧
  ∀ s : State,
    exec .dictClear s =
      (if feActive s = true ∨ fdActive s = true then .next (respond ⟨0xFF, 0⟩ s)
       else .next (respond ⟨0x00, 0⟩ { s with dict := [] })) ∧
    exec .winClear s =
      (if feActive s = true then .next (respond ⟨0xFF, 0⟩ s) else .next (respond ⟨0x00, 0⟩ { s with win := [] })) ∧
    exec .dwinClear s =
      (if fdActive s = true then .next (respond ⟨0xFF, 0⟩ s) else .next (respond ⟨0x00, 0⟩ { s with dwin := [] }))

/-- R218: OPC 0x14, n in W1; WIN.DROP removes the front of WIN and leaves T as it is; refused when FE is active or for more
than WIN holds. -/
def Obligations.WinDropRemovesFront : Prop :=
  (∀ n, decodeCommand [word0 0x14 0, n] = .cmd (.winDrop n) 2) ∧
  ∀ (s : State) (n : Word),
    (∀ front back, feActive s = false → s.win = front ++ back → front.length = n.toNat →
      exec (.winDrop n) s = .next (respond ⟨0x00, asWord back.length⟩ { s with win := back })) ∧
    ((feActive s = true ∨ s.win.length < n.toNat) → exec (.winDrop n) s = .next (respond ⟨0xFF, 0⟩ s))

/-- R223, R224: OPC 0x19, 0x1A; DWIN.PUSH keeps the last 65536 bytes of old window and OUT, whatever RPOS; DWIN.DICT takes
DICT; both refused while FD is active. -/
def Obligations.DwinPushKeepsLastWindow : Prop :=
  decodeCommand [word0 0x19 0] = .cmd .dwinPush 1 ∧ decodeCommand [word0 0x1A 0] = .cmd .dwinDict 1 ∧
  ∀ s : State,
    (fdActive s = false →
      (∃ d, exec .dwinPush s = .next (respond ⟨0x00, asWord d.length⟩ { s with dwin := d }) ∧
        d <:+ s.dwin ++ s.out ∧ d.length = min (s.dwin.length + s.out.length) 65536) ∧
      exec .dwinDict s = .next (respond ⟨0x00, asWord s.dict.length⟩ { s with dwin := s.dict })) ∧
    (fdActive s = true →
      exec .dwinPush s = .next (respond ⟨0xFF, 0⟩ s) ∧ exec .dwinDict s = .next (respond ⟨0xFF, 0⟩ s))

/-- R214, R217, R219: the three loads, when the transfer succeeds and SRC holds `v` in front. -/
def Obligations.LoadsTakeBytesFromSrc : Prop :=
  ∀ (s : State) (n : Word) (v rest : List Byte), drawsOk 1 s = true → s.host.src = v ++ rest → v.length = n.toNat →
    (feActive s = false → fdActive s = false →
      ∃ d, exec (.dictLoad n) s = .next (respond ⟨0x00, asWord d.length⟩ { transferred 1 rest [] s with dict := d }) ∧
        d <:+ v ∧ d.length = min v.length 65536) ∧
    (feActive s = false → s.win.length + n.toNat ≤ 4259840 →
      exec (.winAppend n) s =
        .next (respond ⟨0x00, asWord (s.win.length + v.length)⟩ { transferred 1 rest [] s with win := s.win ++ v })) ∧
    (fdActive s = false → n.toNat ≤ s.cfg.dinCap →
      exec (.dinLoad n) s = .next (respond ⟨0x00, n⟩ { transferred 1 rest [] s with din := v }))

/-- R225, R56: a load whose transfer fails, or that finds too few bytes, answers (ERR 1, 0) and leaves its buffer as it was; a
source that is too short is left empty. -/
def Obligations.LoadFailureLeavesBuffer : Prop :=
  ∀ (s : State) (n : Word) (t : State),
    ((∃ k ds, s.host.draws = .fail k :: ds ∧ t = { s with host := { s.host with draws := ds } }) ∨
      (drawsOk 1 s = true ∧ s.host.src.length < n.toNat ∧ t = transferred 1 [] [] s)) →
    (feActive s = false → fdActive s = false → exec (.dictLoad n) s = .next (respond ⟨0x11, 0⟩ t)) ∧
    (feActive s = false → s.win.length + n.toNat ≤ 4259840 → exec (.winAppend n) s = .next (respond ⟨0x11, 0⟩ t)) ∧
    (fdActive s = false → n.toNat ≤ s.cfg.dinCap → exec (.dinLoad n) s = .next (respond ⟨0x11, 0⟩ t))

/-- R220, R221: the two flushes append to SNK and change no buffer; OUT.FLUSH starts at RPOS, which it does not move. -/
def Obligations.FlushesAppendToSnk : Prop :=
  ∀ s : State, drawsOk 1 s = true →
    exec .sinkFlush s = .next (respond ⟨0x00, asWord s.sink.length⟩ (transferred 1 s.host.src s.sink s)) ∧
    (∀ taken left, s.out = taken ++ left → taken.length = s.rpos →
      exec .outFlush s = .next (respond ⟨0x00, asWord left.length⟩ (transferred 1 s.host.src left s)))

/-- R225, R57: a flush whose transfer fails answers (ERR 1, 0); SNK has received some front part of the bytes. -/
def Obligations.FlushFailureLeavesFrontPart : Prop :=
  ∀ (s : State) (k : Nat) (ds : List IoDraw), s.host.draws = .fail k :: ds →
    (∃ landed, landed <+: s.sink ∧
      exec .sinkFlush s =
        .next (respond ⟨0x11, 0⟩ { s with host := { s.host with draws := ds, snk := s.host.snk ++ landed } })) ∧
    (∃ landed, landed <+: s.out.drop s.rpos ∧
      exec .outFlush s =
        .next (respond ⟨0x11, 0⟩ { s with host := { s.host with draws := ds, snk := s.host.snk ++ landed } }))

/-- R210: the commands refused by the state of FE and FD: no state change, no port transfer, response REFUSED. -/
def Obligations.RefusedByUnitState : Prop :=
  ∀ (s : State) (i : Instr),
    (feActive s = true →
      (i = .winClear ∨ (∃ n, i = .winAppend n) ∨ (∃ n, i = .winDrop n) ∨ i = .mtReset ∨ (∃ h p, i = .mtInsert h p) ∨
        (∃ d f e, i = .mtSeed d f e) ∨ (∃ b, i = .mtShift b) ∨ i = .mtSave ∨ i = .mtReseed ∨ (∃ n, i = .encBlock n) ∨
        (∃ n, i = .dictLoad n) ∨ i = .dictClear) →
      exec i s = .next (respond ⟨0xFF, 0⟩ s)) ∧
    (fdActive s = true →
      ((∃ n, i = .dinLoad n) ∨ i = .dwinClear ∨ i = .dwinPush ∨ i = .dwinDict ∨ (∃ c, i = .decBlock c) ∨
        (∃ n, i = .dictLoad n) ∨ i = .dictClear) →
      exec i s = .next (respond ⟨0xFF, 0⟩ s)) ∧
    ((s.fe.state = .init ∨ s.fe.state = .done) → (i = .feBlock ∨ i = .feFinish) →
      exec i s = .next (respond ⟨0xFF, 0⟩ s)) ∧
    (s.fd.state = .closed → (i = .fdBlock ∨ i = .rdFill) → exec i s = .next (respond ⟨0xFF, 0⟩ s))

/-- R73 (c), R63: operand values outside their range are refused, and loads that would exceed a capacity. -/
def Obligations.RefusedByOperandRange : Prop :=
  ∀ (s : State) (a : BitVec 24) (v w : Word),
    (s.cfg.tableSize ≤ a.toNat → exec (.mtLookup a) s = .next (respond ⟨0xFF, 0⟩ s)) ∧
    (s.cfg.tableSize ≤ a.toNat → exec (.mtInsert a v) s = .next (respond ⟨0xFF, 0⟩ s)) ∧
    ((a = 0 ∨ s.win.length < w.toNat) → exec (.mtSeed a v w) s = .next (respond ⟨0xFF, 0⟩ s)) ∧
    (s.win.length < v.toNat → exec (.encBlock v) s = .next (respond ⟨0xFF, 0⟩ s)) ∧
    (2 < a.toNat → exec (.decBlock a) s = .next (respond ⟨0xFF, 0⟩ s)) ∧
    (2 < a.toNat → exec (.feStart a) s = .next (respond ⟨0xFF, 0⟩ s)) ∧
    (2 < a.toNat → exec (.feRun a) s = .next (respond ⟨0xFF, 0⟩ s)) ∧
    (s.out.length - s.rpos < v.toNat → exec (.rdConsume v) s = .next (respond ⟨0xFF, 0⟩ s)) ∧
    (4259840 < s.win.length + v.toNat → exec (.winAppend v) s = .next (respond ⟨0xFF, 0⟩ s)) ∧
    (s.cfg.dinCap < v.toNat → exec (.dinLoad v) s = .next (respond ⟨0xFF, 0⟩ s))

/-! ### Match table -/

/-- R101, R100: OPC 0x21, word in W1; MT.HASH returns HASH(word), which is below TABLE_SIZE for every HASH, and is the
multiplicative mix by default. -/
def Obligations.HashIsTableIndex : Prop :=
  (∀ w, decodeCommand [word0 0x21 0, w] = .cmd (.mtHash w) 2) ∧
  ∀ (s : State) (w : Word),
    exec (.mtHash w) s = .next (respond ⟨0x00, asWord (hashWord s.cfg w)⟩ s) ∧
    hashWord s.cfg w < s.cfg.tableSize ∧
    (s.cfg.hash = .multiplicative → s.cfg.hashLog ≤ 31 →
      hashWord s.cfg w = (w.toNat * 2654435761) % 4294967296 / 2 ^ (32 - s.cfg.hashLog))

/-- R103: OPC 0x22, h in A; MT.LOOKUP returns the entry, or NONE for an invalid one, and changes nothing; an index out of range
is refused. -/
def Obligations.LookupReturnsEntry : Prop :=
  (∀ h, decodeCommand [word0 0x22 h] = .cmd (.mtLookup h) 1) ∧
  ∀ (s : State) (h : BitVec 24),
    (∀ c, h.toNat < s.cfg.tableSize → tableGet s.t h.toNat = some c →
      exec (.mtLookup h) s = .next (respond ⟨0x00, asWord c⟩ s)) ∧
    (h.toNat < s.cfg.tableSize → tableGet s.t h.toNat = none → exec (.mtLookup h) s = .next (respond ⟨0x01, 0⟩ s)) ∧
    (s.cfg.tableSize ≤ h.toNat → exec (.mtLookup h) s = .next (respond ⟨0xFF, 0⟩ s))

/-- R104: OPC 0x23, h in A, pos in W1; MT.INSERT overwrites one bucket and no other; refused when FE is active or the index is
out of range. -/
def Obligations.InsertOverwritesBucket : Prop :=
  (∀ h p, decodeCommand [word0 0x23 h, p] = .cmd (.mtInsert h p) 2) ∧
  ∀ (s : State) (h : BitVec 24) (p : Word),
    (feActive s = false → h.toNat < s.cfg.tableSize →
      ∃ t, exec (.mtInsert h p) s = .next (respond ⟨0x00, 0⟩ { s with t := t }) ∧
        ∀ g, tableGet t g = if g = h.toNat then some p.toNat else tableGet s.t g) ∧
    ((feActive s = true ∨ s.cfg.tableSize ≤ h.toNat) → exec (.mtInsert h p) s = .next (respond ⟨0xFF, 0⟩ s))

/-- R106: OPC 0x24, by in W1; MT.SHIFT subtracts from every entry, dropping those that would become negative; TPL is not
shifted; refused when FE is active. -/
def Obligations.ShiftSubtractsOrDrops : Prop :=
  (∀ b, decodeCommand [word0 0x24 0, b] = .cmd (.mtShift b) 2) ∧
  ∀ (s : State) (b : Word),
    (feActive s = false → tableSorted s.t = true →
      ∃ t, exec (.mtShift b) s = .next (respond ⟨0x00, 0⟩ { s with t := t }) ∧
        ∀ h, tableGet t h =
          match tableGet s.t h with
          | some c => if b.toNat ≤ c then some (c - b.toNat) else none
          | none => none) ∧
    (feActive s = true → exec (.mtShift b) s = .next (respond ⟨0xFF, 0⟩ s))

/-- R105: OPC 0x25, stride in A, first in W1, end in W2; MT.SEED inserts the positions of the progression, the highest winning
where hashes collide, and resets nothing; refused when FE is active, the stride is 0 or the end lies beyond WIN. -/
def Obligations.SeedInsertsProgression : Prop :=
  (∀ d f e, decodeCommand [word0 0x25 d, f, e] = .cmd (.mtSeed d f e) 3) ∧
  ∀ (s : State) (stride : BitVec 24) (first end_ : Word),
    (feActive s = false → stride ≠ 0 → end_.toNat ≤ s.win.length →
      ∃ t, exec (.mtSeed stride first end_) s = .next (respond ⟨0x00, 0⟩ { s with t := t }) ∧
        SeedResult s.cfg s.win stride.toNat first.toNat end_.toNat s.t t) ∧
    ((feActive s = true ∨ stride = 0 ∨ s.win.length < end_.toNat) →
      exec (.mtSeed stride first end_) s = .next (respond ⟨0xFF, 0⟩ s))

/-- R102, R107, R108: OPC 0x20, 0x26, 0x27; MT.RESET clears T, MT.SAVE copies T into TPL, MT.RESEED copies TPL into T; refused
when FE is active. -/
def Obligations.ResetSaveReseedTables : Prop :=
  decodeCommand [word0 0x20 0] = .cmd .mtReset 1 ∧ decodeCommand [word0 0x26 0] = .cmd .mtSave 1 ∧
  decodeCommand [word0 0x27 0] = .cmd .mtReseed 1 ∧
  ∀ s : State,
    (feActive s = false →
      (∃ t, exec .mtReset s = .next (respond ⟨0x00, 0⟩ { s with t := t }) ∧ ∀ h, tableGet t h = none) ∧
      exec .mtSave s = .next (respond ⟨0x00, 0⟩ { s with tpl := s.t }) ∧
      exec .mtReseed s = .next (respond ⟨0x00, 0⟩ { s with t := s.tpl })) ∧
    (feActive s = true →
      exec .mtReset s = .next (respond ⟨0xFF, 0⟩ s) ∧ exec .mtSave s = .next (respond ⟨0xFF, 0⟩ s) ∧
      exec .mtReseed s = .next (respond ⟨0xFF, 0⟩ s))

/-! ### Raw codec -/

/-- R81, R82, R83: reading a length field gives back the value written, whatever follows, and no other bytes spell it. -/
def Obligations.LengthFieldRoundTrip : Prop :=
  (∀ (v : Nat) (rest : List Byte), readLength (nibble v) (lengthExt v ++ rest) = some (v, rest)) ∧
  (∀ (nib : BitVec 4) (inp rest : List Byte) (v : Nat), readLength nib inp = some (v, rest) →
    nib = nibble v ∧ inp = lengthExt v ++ rest)

/-- R121, R128, R129: ENC.BLOCK puts the result of Enc(WIN, start, T) in place: OK with the code, no longer than the block, in
SINK, or WOULD_NOT_FIT with SINK empty; T is the table that Enc leaves, changed only by inserts of positions of WIN; WIN and TPL
stay. A code that SINK cannot hold is refused (log 10, the model's reading of R63). -/
def Obligations.EncBlockFitsOrWouldNotFit : Prop :=
  ∀ (s : State) (start : Word), feActive s = false → start.toNat ≤ s.win.length →
    ∃ (result : Option (List Byte)) (t : Table), encBlock s.cfg s.win start.toNat s.t = (result, t) ∧
      (∀ h, tableGet t h = tableGet s.t h ∨ ∃ p, tableGet t h = some p ∧ p < s.win.length ∧ start.toNat ≤ p) ∧
      (result = none ∧ exec (.encBlock start) s = .next (respond ⟨0x02, 0⟩ { s with t := t, sink := [] }) ∨
        ∃ code, result = some code ∧ code.length ≤ s.win.length - start.toNat ∧
          (code.length ≤ 4194304 →
            exec (.encBlock start) s = .next (respond ⟨0x00, asWord code.length⟩ { s with t := t, sink := code })) ∧
          (4194304 < code.length → exec (.encBlock start) s = .next (respond ⟨0xFF, 0⟩ s)))

/-- R130 (c): a block of 8 bytes or fewer is never probed and never fits. -/
def Obligations.ShortBlockNeverFits : Prop :=
  ∀ (s : State) (start : Word), feActive s = false → start.toNat ≤ s.win.length → s.win.length ≤ start.toNat + 8 →
    exec (.encBlock start) s = .next (respond ⟨0x02, 0⟩ { s with sink := [] })

/-- R130 (a), (b): whatever the table holds and whatever HASH is, a code that fits decodes back to the block, with the context
as context, and is no longer than the block. -/
def Obligations.EncodedBlockDecodesBack : Prop :=
  ∀ (c : Config) (B code : List Byte) (start cap : Nat) (t t1 : Table), start ≤ B.length → B.length - start ≤ cap →
    encBlock c B start t = (some code, t1) →
      decBlock code (B.take start) cap = .ok (B.drop start) ∧ code.length ≤ B.length - start

/-- R84, R85, R141 to R146: DEC decodes every block of legal sequences to the literals and the copies in the closed form of
R146, whatever the match nibble of the last token. -/
def Obligations.DecoderFollowsBlockLayout : Prop :=
  ∀ (ctx last : List Byte) (seqs : List BlockSeq) (nib : BitVec 4) (cap : Nat), seqsOk ctx seqs [] →
    (seqsOutput ctx seqs [] ++ last).length ≤ cap →
      decBlock (blockBytes seqs nib last) ctx cap = .ok (seqsOutput ctx seqs [] ++ last)

/-- R245 (d), R141: the checks of DEC on the first sequence, in their order. -/
def Obligations.DecoderChecksInOrder : Prop :=
  ∀ (ctx : List Byte) (cap : Nat),
    decBlock [] ctx cap = .error .truncatedInput ∧
    ∀ (tok : Byte) (rest : List Byte),
      (readLength (tokenLit tok) rest = none → decBlock (tok :: rest) ctx cap = .error .truncatedInput) ∧
      ∀ (L : Nat) (r1 : List Byte), readLength (tokenLit tok) rest = some (L, r1) →
        (r1.length < L → decBlock (tok :: rest) ctx cap = .error .literalOverrun) ∧
        (L ≤ r1.length → cap < L → decBlock (tok :: rest) ctx cap = .error .outputOverrun) ∧
        (L = r1.length → L ≤ cap → decBlock (tok :: rest) ctx cap = .ok r1) ∧
        (r1.length = L + 1 → L ≤ cap → decBlock (tok :: rest) ctx cap = .error .truncatedInput) ∧
        (∀ (lit r2 : List Byte) (b0 b1 : Byte), r1 = lit ++ b0 :: b1 :: r2 → lit.length = L → L ≤ cap →
          (u16Of b0 b1 = 0 → decBlock (tok :: rest) ctx cap = .error .zeroOffset) ∧
          (u16Of b0 b1 ≠ 0 → L + ctx.length < (u16Of b0 b1).toNat →
            decBlock (tok :: rest) ctx cap = .error .offsetTooLarge) ∧
          (u16Of b0 b1 ≠ 0 → (u16Of b0 b1).toNat ≤ L + ctx.length → readLength (tokenMat tok) r2 = none →
            decBlock (tok :: rest) ctx cap = .error .truncatedInput) ∧
          (∀ (v : Nat) (r3 : List Byte), u16Of b0 b1 ≠ 0 → (u16Of b0 b1).toNat ≤ L + ctx.length →
            readLength (tokenMat tok) r2 = some (v, r3) → cap < L + (v + 4) →
            decBlock (tok :: rest) ctx cap = .error .outputOverrun))

/-- R140: DEC.BLOCK on the bytes of DIN with the selected context; the decoded bytes are within OUT_CAP (R153). -/
def Obligations.DecBlockFillsOut : Prop :=
  ∀ (s : State) (sel : BitVec 24) (ctx : List Byte), fdActive s = false →
    ((sel = 0 ∧ ctx = []) ∨ (sel = 1 ∧ ctx = s.dwin) ∨ (sel = 2 ∧ ctx = s.dict)) →
    (∀ o, decBlock s.din ctx s.cfg.outCap = .ok o →
      exec (.decBlock sel) s = .next (respond ⟨0x00, asWord o.length⟩ { s with out := o, rpos := 0 }) ∧
      o.length ≤ s.cfg.outCap) ∧
    (∀ u, decBlock s.din ctx s.cfg.outCap = .error u →
      exec (.decBlock sel) s = .next (respond ⟨0x12, asWord (subNum u)⟩ { s with out := [], rpos := 0 }))

/-! ### Frame encoder -/

/-- R161, R162, R163: FE.START writes the header, latches SETTINGS, sets the window to the dictionary, seeds T and saves it. -/
def Obligations.FeStartWritesHeader : Prop :=
  ∀ (s : State) (mode : BitVec 24), mode.toNat ≤ 2 → drawsOk 1 s = true → 1 ≤ s.cfg.seedStride →
    ∃ (size id : List Byte) (t : Table) (hdr : List Byte),
      (mode = 0 → size = []) ∧ (mode = 1 → size = le64 (s.csizeHi ++ s.csizeLo)) ∧
      (mode = 2 → size = le64 (BitVec.ofNat 64 s.host.src.length)) ∧
      id = (if setDid s.settings then le32 s.dictId else []) ∧
      hdr = [flgByte s.cfg.flg ⟨setInd s.settings, setBck s.settings, decide (mode ≠ 0), setCck s.settings, setDid s.settings⟩,
        bdByte s.cfg.bd (setBsz s.settings)] ++ size ++ id ∧
      SeedResult s.cfg s.dict s.cfg.seedStride 0 s.dict.length [] t ∧
      exec (.feStart mode) s =
        .next (respond ⟨0x00, asWord (5 + hdr.length)⟩
          { transferred 1 s.host.src (le32 s.cfg.magic ++ hdr ++ [headerChecksum s.cfg hdr]) s with
            win := s.dict, t := t, tpl := t, sink := []
            fe := { state := .headerWritten, err := none, dlen := s.dict.length, set := s.settings
                    ch := if setCck s.settings then some (hasherInit 0) else none } })

/-- R164, R166: FE.BLOCK on a non-empty SRC: the block is coded or stored, the checksum follows iff BCK, the content hasher
consumes the chunk, and the window and the table go through PostBlock. -/
def Obligations.FeBlockWritesBlock : Prop :=
  ∀ s : State, feActive s = true → s.host.src ≠ [] → drawsOk (if setBck s.fe.set then 4 else 3) s = true →
    ∃ (chunk rest code body : List Byte) (w : Word) (t : Table) (fits : Bool),
      s.host.src = chunk ++ rest ∧ chunk.length = min (Config.blockMax (setBsz s.fe.set)) s.host.src.length ∧
      encBlock s.cfg (s.win ++ chunk) s.win.length s.t = (if fits then some code else none, t) ∧
      (fits = true → w = asWord code.length ∧ body = code) ∧
      (fits = false → w = 0x80000000 + asWord chunk.length ∧ body = chunk ∧ code = []) ∧
      exec .feBlock s =
        .next (respond ⟨0x00, w⟩
          { transferred (if setBck s.fe.set then 4 else 3) rest
              (le32 w ++ body ++ checksumBytes (setBck s.fe.set) (h32 s.cfg 0 body)) s with
            sink := code
            win := if setInd s.fe.set then (s.win ++ chunk).take s.fe.dlen else lastK 65536 (s.win ++ chunk)
            t := if setInd s.fe.set then s.tpl
              else if 65536 < (s.win ++ chunk).length then tableShift ((s.win ++ chunk).length - 65536) t else t
            fe := { s.fe with state := .blockLoop, ch := s.fe.ch.map fun hs => hasherWrite hs chunk } })

/-- R164: FE.BLOCK on an empty SRC answers END, as often as it is repeated. -/
def Obligations.FeBlockEndsOnEmptySrc : Prop :=
  ∀ s : State, feActive s = true → s.host.src = [] → drawsOk 1 s = true →
    exec .feBlock s =
      .next (respond ⟨0x03, 0⟩ { transferred 1 [] [] s with fe := { s.fe with state := .blockLoop } })

/-- R167: FE.FINISH writes the end mark, then the content checksum iff there is a content hasher; FE is Done. -/
def Obligations.FeFinishWritesEndMark : Prop :=
  ∀ s : State, feActive s = true →
    (s.fe.ch = none → drawsOk 1 s = true →
      exec .feFinish s =
        .next (respond ⟨0x00, 0⟩ { transferred 1 s.host.src [0, 0, 0, 0] s with fe := { s.fe with state := .done } })) ∧
    (∀ hs, s.fe.ch = some hs → drawsOk 2 s = true →
      exec .feFinish s =
        .next (respond ⟨0x00, h32 s.cfg hs.seed hs.data⟩
          { transferred 2 s.host.src ([0, 0, 0, 0] ++ le32 (h32 s.cfg hs.seed hs.data)) s with
            fe := { s.fe with state := .done, ch := none } }))

/-- R168, R165, R171 (b): FE.RUN compresses the whole of SRC in ceil(S / BLOCK_MAX) blocks, and the frame costs at most 27
bytes and 4 or 8 more per block over S. It is FE.START, FE.BLOCK as long as it answers OK, and FE.FINISH, one after the other. -/
def Obligations.FeRunCompressesAll : Prop :=
  ∀ (s : State) (mode : BitVec 24), mode.toNat ≤ 2 →
    (allDrawsOk s = true →
      ∃ (t : State) (frame : List Byte) (k : Nat),
        exec (.feRun mode) s = .next t ∧ t.fe.state = .done ∧ t.fe.err = none ∧ t.fe.ch = none ∧ t.host.src = [] ∧
        t.host.snk = s.host.snk ++ frame ∧
        k = (s.host.src.length + (Config.blockMax (setBsz s.settings) - 1)) / Config.blockMax (setBsz s.settings) ∧
        t.host.resp = s.host.resp ++ [⟨0x00, asWord k⟩] ∧
        frame.length ≤ 27 + s.host.src.length + (if setBck s.settings then 8 else 4) * k) ∧
    (∀ (n : Nat) (t u w : State) (v : Word), OkAfter (.feStart mode :: List.replicate n .feBlock) s t →
      exec .feBlock t = .next (respond ⟨0x03, 0⟩ u) → exec .feFinish u = .next (respond ⟨0x00, v⟩ w) →
        exec (.feRun mode) s = .next (respond ⟨0x00, asWord n⟩ w))

/-- R172, R250, R57: a failed transfer of an FE command puts FE in Failed with kind 1 and answers (ERR 1, 0), after every change
the pseudocode made before it: the header write of FE.START; the read of FE.BLOCK, and each of its writes (WIN extended, T and
FE.CH updated, PostBlock not done); the end mark of FE.FINISH, and its checksum; and in FE.RUN whatever the same commands one
after the other end in (R168). -/
def Obligations.FeIoFailureEntersFailed : Prop :=
  ∀ (s : State) (k : Nat) (ds : List IoDraw),
    (FailsAfter 0 k ds s → ∀ mode : BitVec 24, mode.toNat ≤ 2 →
      ∃ landed, landed <+: startHeader mode s ∧ exec (.feStart mode) s =
        .next (respond ⟨0x11, 0⟩
          { s with
            host := { s.host with draws := ds, snk := s.host.snk ++ landed }
            fe := { s.fe with set := s.settings, ch := none, state := .failed, err := some .ioFailure } })) ∧
    (FailsAfter 0 k ds s → feActive s = true →
      exec .feBlock s =
        .next (respond ⟨0x11, 0⟩
          { s with
            host := { s.host with draws := ds }
            fe := { s.fe with state := .failed, err := some .ioFailure } })) ∧
    (∀ i, FailsAfter (1 + i) k ds s → i < (if setBck s.fe.set then 3 else 2) → feActive s = true → s.host.src ≠ [] →
      ∃ (chunk rest code body landed : List Byte) (w : Word) (t : Table) (fits : Bool),
        s.host.src = chunk ++ rest ∧ chunk.length = min (Config.blockMax (setBsz s.fe.set)) s.host.src.length ∧
        encBlock s.cfg (s.win ++ chunk) s.win.length s.t = (if fits then some code else none, t) ∧
        (fits = true → w = asWord code.length ∧ body = code) ∧
        (fits = false → w = 0x80000000 + asWord chunk.length ∧ body = chunk ∧ code = []) ∧
        landed <+: (blockFields s.cfg (setBck s.fe.set) w body).getD i [] ∧
        exec .feBlock s =
          .next (respond ⟨0x11, 0⟩
            { s with
              host := { s.host with
                src := rest, draws := ds
                snk := s.host.snk ++ ((blockFields s.cfg (setBck s.fe.set) w body).take i).flatten ++ landed }
              win := s.win ++ chunk, t := t, sink := code
              fe := { s.fe with
                state := .failed, err := some .ioFailure, ch := s.fe.ch.map fun hs => hasherWrite hs chunk } })) ∧
    (FailsAfter 0 k ds s → feActive s = true →
      ∃ landed, landed <+: [0, 0, 0, 0] ∧ exec .feFinish s =
        .next (respond ⟨0x11, 0⟩
          { s with
            host := { s.host with draws := ds, snk := s.host.snk ++ landed }
            fe := { s.fe with state := .failed, err := some .ioFailure } })) ∧
    (FailsAfter 1 k ds s → feActive s = true → ∀ hs, s.fe.ch = some hs →
      ∃ landed, landed <+: le32 (h32 s.cfg hs.seed hs.data) ∧ exec .feFinish s =
        .next (respond ⟨0x11, 0⟩
          { s with
            host := { s.host with draws := ds, snk := s.host.snk ++ [0, 0, 0, 0] ++ landed }
            fe := { s.fe with state := .failed, err := some .ioFailure } })) ∧
    (∀ (mode : BitVec 24) (n : Nat) (t u w : State),
      (exec (.feStart mode) s = .next (respond ⟨0x11, 0⟩ u) → exec (.feRun mode) s = .next (respond ⟨0x11, 0⟩ u)) ∧
      (OkAfter (.feStart mode :: List.replicate n .feBlock) s t →
        (exec .feBlock t = .next (respond ⟨0x11, 0⟩ u) → exec (.feRun mode) s = .next (respond ⟨0x11, 0⟩ u)) ∧
        (exec .feBlock t = .next (respond ⟨0x03, 0⟩ u) → exec .feFinish u = .next (respond ⟨0x11, 0⟩ w) →
          exec (.feRun mode) s = .next (respond ⟨0x11, 0⟩ w))))

/-! ### Frame decoder and adapter -/

/-- R181, R38: FD.OPEN accepts every header that R162 constructs, with every choice of flags, class, size and id, and shows it
in the FD record and the header registers. -/
def Obligations.FdOpenAcceptsHeader : Prop :=
  ∀ (s : State) (ind bck cck : Bool) (bsz : BitVec 2) (size : Option (BitVec 64)) (id : Option Word) (rest : List Byte),
    s.cfg.valid → s.host.src = headerBytes s.cfg ind bck cck bsz size id ++ rest →
    drawsOk (3 + size.toList.length + id.toList.length) s = true →
      exec .fdOpen s =
        .next (respond ⟨0x00, asWord (headerBytes s.cfg ind bck cck bsz size id).length⟩
          { transferred (3 + size.toList.length + id.toList.length) rest [] s with
            din := [], out := [], rpos := 0, dwin := if ind then [] else s.dict
            fd := { state := .blocks, err := none, sub := none, ind := ind, bck := bck, cck := cck
                    bmax := Config.blockMax bsz, ch := if cck then some (hasherInit 0) else none }
            hdr := { info := (0 : BitVec 16) ++ bdByte s.cfg.bd bsz ++
                       flgByte s.cfg.flg ⟨ind, bck, size.isSome, cck, id.isSome⟩
                     blkmax := asWord (Config.blockMax bsz)
                     csizeLo := match size with | some v => v.extractLsb' 0 32 | none => 0
                     csizeHi := match size with | some v => v.extractLsb' 32 32 | none => 0
                     dictId := match id with | some v => v | none => 0 } })

/-- R181, R197, R38: FD.OPEN stops at the first bad field of the header: WrongMagic, then HeaderParseError for FLG or BD; FD is
Failed, the header registers are 0, OUT is empty. -/
def Obligations.FdOpenRejectsBadHeader : Prop :=
  ∀ (s : State) (m0 m1 m2 m3 : Byte) (rest : List Byte), s.host.src = m0 :: m1 :: m2 :: m3 :: rest →
    (drawsOk 1 s = true → u32Of m0 m1 m2 m3 ≠ s.cfg.magic →
      exec .fdOpen s =
        .next (respond ⟨0x14, 0⟩
          { transferred 1 rest [] s with
            din := [], out := [], rpos := 0, dwin := [], hdr := ⟨0, 0, 0, 0, 0⟩
            fd := ⟨.failed, some .wrongMagic, none, false, false, false, 0, none⟩ })) ∧
    (∀ (flg bd : Byte) (rest2 : List Byte), drawsOk 2 s = true → u32Of m0 m1 m2 m3 = s.cfg.magic →
      rest = flg :: bd :: rest2 →
      (flg.extractLsb' 6 2 ≠ 1#2 ∨ flg.getLsbD s.cfg.flg.rsv = true ∨
        (bd ≠ s.cfg.bd.c0 ∧ bd ≠ s.cfg.bd.c1 ∧ bd ≠ s.cfg.bd.c2 ∧ bd ≠ s.cfg.bd.c3)) →
      exec .fdOpen s =
        .next (respond ⟨0x13, 0⟩
          { transferred 2 rest2 [] s with
            din := [], out := [], rpos := 0, dwin := [], hdr := ⟨0, 0, 0, 0, 0⟩
            fd := ⟨.failed, some .headerParseError, none, false, false, false, 0, none⟩ }))

/-- R181, R182: a header, with or without content size and dictionary id, whose checksum byte is not the one recomputed over
everything between magic and checksum is HeaderChecksumFail. -/
def Obligations.FdOpenRejectsBadChecksum : Prop :=
  ∀ (s : State) (ind bck cck : Bool) (bsz : BitVec 2) (size : Option (BitVec 64)) (id : Option Word) (hc : Byte)
    (hdr rest : List Byte), s.cfg.valid →
    hdr = [flgByte s.cfg.flg ⟨ind, bck, size.isSome, cck, id.isSome⟩, bdByte s.cfg.bd bsz] ++ sizeField size ++ idField id →
    s.host.src = le32 s.cfg.magic ++ hdr ++ [hc] ++ rest → hc ≠ headerChecksum s.cfg hdr →
    drawsOk (3 + size.toList.length + id.toList.length) s = true →
      exec .fdOpen s =
        .next (respond ⟨0x15, 0⟩
          { transferred (3 + size.toList.length + id.toList.length) rest [] s with
            din := [], out := [], rpos := 0, dwin := [], hdr := ⟨0, 0, 0, 0, 0⟩
            fd := ⟨.failed, some .headerChecksumFail, none, false, false, false, 0, none⟩ })

/-- R184, R187, R188, R189: FD.BLOCK on a data block, stored or coded, whose checksum (if FD.BCK) and size are right. -/
def Obligations.FdBlockDecodesBlock : Prop :=
  ∀ (s : State) (stored : Bool) (b o rest : List Byte), fdActive s = true → (stored = true ∨ b ≠ []) →
    b.length ≤ s.cfg.dinCap → s.cfg.dinCap ≤ 2147483647 →
    s.host.src = le32 (lengthWord stored (BitVec.ofNat 31 b.length)) ++ b ++
      checksumBytes s.fd.bck (h32 s.cfg 0 b) ++ rest →
    drawsOk (if s.fd.bck then 3 else 2) s = true → o.length ≤ s.fd.bmax →
    (stored = true → o = b) →
    (stored = false → decBlock b (if s.fd.ind then s.dict else s.dwin) s.cfg.outCap = .ok o) →
      exec .fdBlock s =
        .next (respond ⟨0x00, asWord o.length⟩
          { transferred (if s.fd.bck then 3 else 2) rest [] s with
            din := b, out := o, rpos := 0, dwin := if s.fd.ind then s.dwin else lastK 65536 (s.dwin ++ o)
            fd := { s.fd with ch := s.fd.ch.map fun hs => hasherWrite hs o } })

/-- R190, R92, R93: FD.BLOCK on the end mark: the content checksum is verified if there is a hasher; FD is Finished, or Failed
with FrameChecksumFail. -/
def Obligations.FdBlockEndMark : Prop :=
  ∀ (s : State) (rest : List Byte), fdActive s = true →
    (s.fd.ch = none → s.host.src = [0, 0, 0, 0] ++ rest → drawsOk 1 s = true →
      exec .fdBlock s =
        .next (respond ⟨0x03, 0⟩
          { transferred 1 rest [] s with din := [], out := [], rpos := 0, fd := { s.fd with state := .finished } })) ∧
    (∀ hs v, s.fd.ch = some hs → s.host.src = [0, 0, 0, 0] ++ le32 v ++ rest → drawsOk 2 s = true →
      (v = h32 s.cfg hs.seed hs.data →
        exec .fdBlock s =
          .next (respond ⟨0x03, 0⟩
            { transferred 2 rest [] s with din := [], out := [], rpos := 0, fd := { s.fd with state := .finished } })) ∧
      (v ≠ h32 s.cfg hs.seed hs.data →
        exec .fdBlock s =
          .next (respond ⟨0x17, 0⟩
            { transferred 2 rest [] s with
              din := [], out := [], rpos := 0
              fd := { s.fd with state := .failed, err := some .frameChecksumFail, sub := none } })))

/-- R186, R187, R188, R245 (c): what FD.BLOCK raises on a bad data block, in the order of the checks. -/
def Obligations.FdBlockRejectsBadBlock : Prop :=
  ∀ (s : State) (w : Word) (rest : List Byte), fdActive s = true → w ≠ 0 → s.host.src = le32 w ++ rest →
    (s.cfg.dinCap < (wordCount w).toNat → drawsOk 1 s = true →
      exec .fdBlock s =
        .next (respond ⟨0x18, 0⟩
          { transferred 1 rest [] s with
            din := [], out := [], rpos := 0
            fd := { s.fd with state := .failed, err := some .blockLengthOverflow, sub := none } })) ∧
    (∀ (b rest2 : List Byte), (wordCount w).toNat ≤ s.cfg.dinCap → b.length = (wordCount w).toNat →
      (∀ v, rest = b ++ le32 v ++ rest2 → s.fd.bck = true → v ≠ h32 s.cfg 0 b → drawsOk 3 s = true →
        exec .fdBlock s =
          .next (respond ⟨0x16, 0⟩
            { transferred 3 rest2 [] s with
              din := b, out := [], rpos := 0
              fd := { s.fd with state := .failed, err := some .blockChecksumFail, sub := none } })) ∧
      (rest = b ++ checksumBytes s.fd.bck (h32 s.cfg 0 b) ++ rest2 → drawsOk (if s.fd.bck then 3 else 2) s = true →
        (∀ u, wordStored w = false →
          decBlock b (if s.fd.ind then s.dict else s.dwin) s.cfg.outCap = .error u →
          exec .fdBlock s =
            .next (respond ⟨0x12, asWord (subNum u)⟩
              { transferred (if s.fd.bck then 3 else 2) rest2 [] s with
                din := b, out := [], rpos := 0
                fd := { s.fd with state := .failed, err := some .rawCodecCorruption, sub := some u } })) ∧
        (∀ o, s.fd.bmax < o.length →
          ((wordStored w = true ∧ o = b) ∨ (wordStored w = false ∧
            decBlock b (if s.fd.ind then s.dict else s.dwin) s.cfg.outCap = .ok o)) →
          exec .fdBlock s =
            .next (respond ⟨0x19, 0⟩
              { transferred (if s.fd.bck then 3 else 2) rest2 [] s with
                din := b, out := [], rpos := 0, dwin := if s.fd.ind then s.dwin else lastK 65536 (s.dwin ++ o)
                fd := { s.fd with state := .failed, err := some .blockSizeOverflow, sub := none } }))))

/-- R251, R160, R184: in Failed, FE.BLOCK, FE.FINISH, FD.BLOCK and RD.FILL repeat the recorded error and change nothing;
FD.BLOCK in Finished empties OUT, reads nothing and answers END. -/
def Obligations.TerminalStatesStay : Prop :=
  ∀ s : State,
    (∀ k, s.fe.state = .failed → s.fe.err = some k →
      exec .feBlock s = .next (respond ⟨0x10 + BitVec.ofNat 8 (errNum k), 0⟩ s) ∧
      exec .feFinish s = .next (respond ⟨0x10 + BitVec.ofNat 8 (errNum k), 0⟩ s)) ∧
    (∀ k, s.fd.state = .failed → s.fd.err = some k →
      exec .fdBlock s = .next (respond ⟨0x10 + BitVec.ofNat 8 (errNum k), asWord (subField s.fd.sub)⟩ s) ∧
      exec .rdFill s = .next (respond ⟨0x10 + BitVec.ofNat 8 (errNum k), asWord (subField s.fd.sub)⟩ s)) ∧
    (s.fd.state = .finished → exec .fdBlock s = .next (respond ⟨0x03, 0⟩ { s with out := [], rpos := 0 }))

/-- R197, R250, R56: a read that fails, or that finds fewer bytes than it asks for, puts FD in Failed with kind 1, with OUT
emptied, and answers (ERR 1, 0), after every change made before it: each field of the header in FD.OPEN and FD.ALL; and in
FD.BLOCK the length word, the content checksum after the end mark, the bytes of a block, and its checksum (DIN then holds the
block). -/
def Obligations.FdIoFailureEntersFailed : Prop :=
  ∀ (s : State) (h : HostSide),
    (∀ (pre post : List (List Byte)) (v tail : List Byte) (ind bck cck : Bool) (bsz : BitVec 2) (size : Option (BitVec 64))
      (id : Option Word) (i : Instr), (pre = [] ∨ s.cfg.valid) → headerFields s.cfg ind bck cck bsz size id = pre ++ v :: post →
      s.host.src = pre.flatten ++ tail → ReadFails pre.length v.length tail s h → (i = .fdOpen ∨ i = .fdAll) →
        exec i s =
          .next (respond ⟨0x11, 0⟩
            { s with
              host := h, din := [], out := [], rpos := 0, dwin := [], hdr := ⟨0, 0, 0, 0, 0⟩
              fd := ⟨.failed, some .ioFailure, none, false, false, false, 0, none⟩ })) ∧
    (fdActive s = true → ∀ b tail : List Byte,
      (ReadFails 0 4 s.host.src s h ∧ b = [] ∨
        (∃ hs, s.fd.ch = some hs ∧ s.host.src = [0, 0, 0, 0] ++ tail ∧ ReadFails 1 4 tail s h ∧ b = []) ∨
        (∃ w, w ≠ 0 ∧ (wordCount w).toNat ≤ s.cfg.dinCap ∧
          ((s.host.src = le32 w ++ tail ∧ ReadFails 1 (wordCount w).toNat tail s h ∧ b = []) ∨
            (s.fd.bck = true ∧ s.host.src = le32 w ++ b ++ tail ∧ b.length = (wordCount w).toNat ∧
              ReadFails 2 4 tail s h)))) →
        exec .fdBlock s =
          .next (respond ⟨0x11, 0⟩
            { s with
              host := h, din := b, out := [], rpos := 0
              fd := { s.fd with state := .failed, err := some .ioFailure, sub := none } }))

/-- R193: RD.FILL reads nothing while OUT is not consumed; else it is FD.BLOCK, answering END when no byte came. -/
def Obligations.RdFillRefillsOnce : Prop :=
  ∀ s : State, (s.fd.state = .blocks ∨ s.fd.state = .finished) →
    (s.rpos < s.out.length → exec .rdFill s = .next (respond ⟨0x00, asWord (s.out.length - s.rpos)⟩ s)) ∧
    (s.out.length ≤ s.rpos → ∀ t : State,
      (∀ v, exec .fdBlock s = .next (respond ⟨0x00, v⟩ t) → t.out ≠ [] →
        exec .rdFill s = .next (respond ⟨0x00, asWord t.out.length⟩ t)) ∧
      (∀ v, exec .fdBlock s = .next (respond ⟨0x00, v⟩ t) → t.out = [] →
        exec .rdFill s = .next (respond ⟨0x03, 0⟩ t)) ∧
      (exec .fdBlock s = .next (respond ⟨0x03, 0⟩ t) → t.out = [] ∧ exec .rdFill s = .next (respond ⟨0x03, 0⟩ t)) ∧
      (exec .fdBlock s = .next t → t.fd.state = .failed → exec .rdFill s = .next t))

/-- R194: OPC 0x54, n in W1; RD.CONSUME advances RPOS; refused when more is asked than is left. -/
def Obligations.RdConsumeAdvances : Prop :=
  (∀ n, decodeCommand [word0 0x54 0, n] = .cmd (.rdConsume n) 2) ∧
  ∀ (s : State) (n : Word),
    (s.rpos + n.toNat ≤ s.out.length →
      exec (.rdConsume n) s =
        .next (respond ⟨0x00, asWord (s.out.length - s.rpos - n.toNat)⟩ { s with rpos := s.rpos + n.toNat })) ∧
    (s.out.length - s.rpos < n.toNat → exec (.rdConsume n) s = .next (respond ⟨0xFF, 0⟩ s))

/-- R171 (a), R168, R192, R189: FE.RUN on any input, then FD.ALL on the frame with the same dictionary and configuration, gives
the input back, for every settings value and every table; what follows the frame in SRC is left there. -/
def Obligations.FrameRoundTrip : Prop :=
  ∀ (s : State) (mode : BitVec 24), s.cfg.valid → mode.toNat ≤ 2 → allDrawsOk s = true → s.dict.length ≤ 65536 →
    ∃ (t : State) (frame : List Byte), exec (.feRun mode) s = .next t ∧ t.host.snk = s.host.snk ++ frame ∧
      ∀ (r : State) (rest : List Byte), r.cfg = s.cfg → r.dict = s.dict → allDrawsOk r = true →
        r.host.src = frame ++ rest →
          ∃ u, exec .fdAll r = .next u ∧ u.host.snk = r.host.snk ++ s.host.src ∧ u.host.src = rest ∧ u.out = [] ∧
            u.fd.state = .finished ∧ u.host.resp = r.host.resp ++ [t.host.resp.getLastD ⟨0, 0⟩]

/-- R192, R184, R188: FD.ALL on a frame of stored blocks, with or without checksums: header, blocks, end mark and, if CCK, the
content checksum; every block goes to SNK and FD is Finished. -/
def Obligations.FdAllDecodesStoredBlocks : Prop :=
  ∀ (s : State) (ind bck cck : Bool) (bsz : BitVec 2) (blocks : List (List Byte)) (rest : List Byte), s.cfg.valid →
    (∀ b ∈ blocks, b.length ≤ Config.blockMax bsz) → allDrawsOk s = true →
    s.host.src = headerBytes s.cfg ind bck cck bsz none none ++
      (blocks.map fun b =>
        le32 (lengthWord true (BitVec.ofNat 31 b.length)) ++ b ++ checksumBytes bck (h32 s.cfg 0 b)).flatten ++
      [0, 0, 0, 0] ++ checksumBytes cck (h32 s.cfg 0 blocks.flatten) ++ rest →
      ∃ t, exec .fdAll s = .next t ∧ t.host.snk = s.host.snk ++ blocks.flatten ∧ t.host.src = rest ∧ t.out = [] ∧ t.rpos = 0 ∧
        t.fd.state = .finished ∧ t.fd.err = none ∧ t.host.resp = s.host.resp ++ [⟨0x00, asWord blocks.length⟩]

/-- R192, R181, R184, R197, R250: FD.ALL is FD.OPEN, then FD.BLOCK and a write of OUT to SNK (as OUT.FLUSH writes it) as long as
they answer OK, and it stops at the first error: of the header, when nothing is written to SNK; of a block, when the blocks before
it are written; of a write, which is then a failure of FD. At the end mark it answers the number of blocks. -/
def Obligations.FdAllStopsOnBadHeader : Prop :=
  ∀ s t : State,
    (∀ k, exec .fdOpen s = .next t → t.fd.err = some k →
      exec .fdAll s = .next t ∧ t.host.snk = s.host.snk ∧ t.fd.state = .failed) ∧
    (∀ n, OkAfter (.fdOpen :: (List.replicate n [.fdBlock, .outFlush]).flatten) s t → ∀ (u : State) (r : Response),
      exec .fdBlock t = .next (respond r u) →
        (u.fd.state = .failed → exec .fdAll s = .next (respond r u) ∧ u.host.snk = t.host.snk) ∧
        (r.status = 0x00 → ∀ k ds, u.host.draws = .fail k :: ds →
          ∃ landed, landed <+: u.out ∧ exec .fdAll s =
            .next (respond ⟨0x11, 0⟩
              { u with
                host := { u.host with draws := ds, snk := u.host.snk ++ landed }
                out := [], rpos := 0
                fd := { u.fd with state := .failed, err := some .ioFailure, sub := none } })) ∧
        (r.status = 0x03 → exec .fdAll s = .next (respond ⟨0x00, asWord n⟩ u)))

/-! ### Wire units and the host -/

/-- R80 to R94, R56: each wire unit reaches SRC as the bytes its rule gives it; nothing else changes (the model's reading of
the wire rows, log 5). -/
def Obligations.WireUnitsReachSrc : Prop :=
  ∀ (s : State) (i : Instr) (b : List Byte),
    ((∃ l m, i = .wireToken l m ∧ b = [l ++ m]) ∨ (i = .wireLengthExtMore ∧ b = [255]) ∨
      (∃ x, i = .wireLengthExtLast x ∧ b = [x]) ∨ (∃ o, i = .wireOffset o ∧ b = le16 o) ∨
      (i = .wireMagic ∧ b = le32 s.cfg.magic) ∨
      (∃ f1 f2 f3 f4 f5, i = .wireFlg f1 f2 f3 f4 f5 ∧ b = [flgByte s.cfg.flg ⟨f1, f2, f3, f4, f5⟩]) ∨
      (i = .wireBd64K ∧ b = [s.cfg.bd.c0]) ∨ (i = .wireBd256K ∧ b = [s.cfg.bd.c1]) ∨
      (i = .wireBd1M ∧ b = [s.cfg.bd.c2]) ∨ (i = .wireBd4M ∧ b = [s.cfg.bd.c3]) ∨
      (∃ x, i = .wireHeaderChecksum x ∧ b = [x]) ∨
      (∃ st n, i = .wireBlockLength st n ∧ b = le32 (BitVec.ofBool st ++ n)) ∨ (i = .wireEndMark ∧ b = [0, 0, 0, 0]) ∨
      (∃ x, i = .wireBlockChecksum x ∧ b = le32 x) ∨ (∃ x, i = .wireContentChecksum x ∧ b = le32 x)) →
    exec i s = .next { s with host := { s.host with src := s.host.src ++ b } }

/-- R88: with the default layout a FLG byte is legal exactly when FLG & 0xC2 = 0x40, and R91: HC is the top byte of H32. -/
def Obligations.DefaultHeaderFields : Prop :=
  (∀ b : Byte, (parseFlg Config.default.flg b).isSome = true ↔ b &&& 0xC2 = 0x40) ∧
  (∀ hdr : List Byte, headerChecksum Config.default hdr = (h32 Config.default 0 hdr).extractLsb' 24 8) ∧
  (∀ (b : Byte) (k : BitVec 2), parseBd Config.default.bd b = some k ↔ b.toNat = (4 + k.toNat) * 16)

/-- R12: writing in pieces equals writing the concatenation, for every H32. -/
def Obligations.HasherPiecesEqualWhole : Prop :=
  ∀ (c : Config) (seed : Word) (a b : List Byte),
    hasherFinish c (hasherWrite (hasherWrite (hasherInit seed) a) b) = hasherFinish c (hasherWrite (hasherInit seed) (a ++ b)) ∧
    hasherFinish c (hasherWrite (hasherInit seed) a) = h32 c seed a

/-- R8, R56, R271, R284: the host's acts between commands, the bytes of an illegal wire unit among them; with nothing
presented, or with a command whose words are not all there, the device waits (the model's command port, log 3). -/
def Obligations.HostActsBetweenCommands : Prop :=
  ∀ (s : State) (rest : List HostItem) (b : List Byte) (n : Nat) (w0 : Word),
    (s.host.inbox = .act (.feed b) :: rest →
      step s = .next { s with host := { s.host with inbox := rest, src := s.host.src ++ b } }) ∧
    (s.host.inbox = .act (.skip n) :: rest →
      step s = .next { s with host := { s.host with inbox := rest, src := s.host.src.drop n } }) ∧
    (s.host.inbox = .act (.drain n) :: rest →
      step s = .next { s with host := { s.host with inbox := rest, snk := s.host.snk.drop n } }) ∧
    (s.host.inbox = .act (.collect n) :: rest →
      step s = .next { s with host := { s.host with inbox := rest, resp := s.host.resp.drop n } }) ∧
    (∀ f e, s.host.inbox = .wire f b :: rest → decodeWire s.cfg f b = .error e →
      step s = .next { s with host := { s.host with inbox := rest, src := s.host.src ++ b } }) ∧
    (s.host.inbox = [] → step s = .next s) ∧
    (s.host.inbox = [.word w0] →
      (opcOf w0).toNat ∈ [0x03, 0x10, 0x13, 0x14, 0x15, 0x21, 0x23, 0x24, 0x25, 0x30, 0x54] → step s = .next s)

/-! ### Encodings and the machine as a whole -/

/-- R70, R72, and R80 to R94 for the wire units: decoding what the encoder presents gives the instruction back, with every
operand, for every valid configuration, and takes exactly its items. -/
def Obligations.DecodeOfEncode : Prop :=
  ∀ (c : Config) (i : Instr) (rest : List HostItem), c.valid → i.wellFormed = true →
    fetch c (encode c i ++ rest) = .instr i rest

/-- R72: words of programs P1 to P4 (95_test_vectors.md) decode to the instructions beside them there. -/
def Obligations.ProgramWordsDecode : Prop :=
  decodeCommand [0x01000000] = .cmd .sysReset 1 ∧
  decodeCommand [0x03000000, 0x25] = .cmd (.csrWr 0 0x25) 2 ∧
  decodeCommand [0x25000003, 0, 0x10] = .cmd (.mtSeed 3 0 0x10) 3 ∧
  decodeCommand [0x31000002] = .cmd (.decBlock 2) 1 ∧
  decodeCommand [0x41000000] = .cmd .feBlock 1 ∧
  decodeCommand [0x54000000, 0xC] = .cmd (.rdConsume 0xC) 2

/-- R8, R70: when the items at the front decode to an instruction, the step is exec of it, after its items are taken. -/
def Obligations.StepRunsDecodedInstruction : Prop :=
  ∀ (s : State) (i : Instr) (rest : List HostItem), s.cfg.valid → i.wellFormed = true →
    s.host.inbox = encode s.cfg i ++ rest →
      step s = exec i { s with host := { s.host with inbox := rest } }

/-- R73 (a), (b): an unknown opcode takes one word; a non-zero A that must be 0 takes all words of the format; no state changes
and the response is REFUSED. -/
def Obligations.IllegalWordsAreRefused : Prop :=
  ∀ (s : State) (w0 w1 : Word) (rest : List HostItem),
    (s.host.inbox = .word w0 :: rest →
      (opcOf w0).toNat ∉ [0x01, 0x02, 0x03, 0x10, 0x11, 0x12, 0x13, 0x14, 0x15, 0x16, 0x17, 0x18, 0x19, 0x1A, 0x20, 0x21,
        0x22, 0x23, 0x24, 0x25, 0x26, 0x27, 0x30, 0x31, 0x40, 0x41, 0x42, 0x43, 0x50, 0x51, 0x52, 0x53, 0x54] →
      step s = .next (respond ⟨0xFF, 0⟩ { s with host := { s.host with inbox := rest } })) ∧
    (s.host.inbox = .word w0 :: rest → fieldA w0 ≠ 0 →
      (opcOf w0).toNat ∈ [0x01, 0x11, 0x12, 0x16, 0x17, 0x18, 0x19, 0x1A, 0x20, 0x26, 0x27, 0x41, 0x42, 0x50, 0x51, 0x52,
        0x53] →
      step s = .next (respond ⟨0xFF, 0⟩ { s with host := { s.host with inbox := rest } })) ∧
    (s.host.inbox = .word w0 :: .word w1 :: rest → fieldA w0 ≠ 0 →
      (opcOf w0).toNat ∈ [0x10, 0x13, 0x14, 0x15, 0x21, 0x24, 0x30, 0x54] →
      step s = .next (respond ⟨0xFF, 0⟩ { s with host := { s.host with inbox := rest } }))

/-- R76, R74: a command returns exactly one response, and leaves the host's items and the configuration as they are. -/
def Obligations.OneResponsePerCommand : Prop :=
  ∀ (i : Instr) (s : State), i.isCommand = true →
    ∃ (t : State) (r : Response), exec i s = .next t ∧ t.host.resp = s.host.resp ++ [r] ∧ t.host.inbox = s.host.inbox ∧
      t.cfg = s.cfg

/-- R7, R57, 93 part 1: no step stops the machine; the configuration never changes; unless the host drains it, SNK only grows,
and the draws are taken from the front. -/
def Obligations.StepsNeverStop : Prop :=
  ∀ s : State, ∃ t, step s = .next t ∧ t.cfg = s.cfg ∧ t.host.draws <:+ s.host.draws ∧
    (s.host.snk <+: t.host.snk ∨ ∃ n, .act (.drain n) ∈ s.host.inbox ∧ t.host.snk = s.host.snk.drop n)

/-- R252, R62: FE commands leave FD and its buffers as they are, FD commands leave FE, its buffers and the tables; neither
changes the dictionary or the writable registers. -/
def Obligations.UnitsAreIndependent : Prop :=
  ∀ (s t : State) (mode : BitVec 24) (i : Instr), exec i s = .next t →
    ((i = .feStart mode ∨ i = .feBlock ∨ i = .feFinish ∨ i = .feRun mode) →
      t.fd = s.fd ∧ t.hdr = s.hdr ∧ t.din = s.din ∧ t.out = s.out ∧ t.dwin = s.dwin ∧ t.rpos = s.rpos ∧
      t.dict = s.dict ∧ t.settings = s.settings ∧ t.dictId = s.dictId ∧ t.csizeLo = s.csizeLo ∧ t.csizeHi = s.csizeHi) ∧
    ((i = .fdOpen ∨ i = .fdBlock ∨ i = .fdAll ∨ i = .rdFill) →
      t.fe = s.fe ∧ t.win = s.win ∧ t.sink = s.sink ∧ t.t = s.t ∧ t.tpl = s.tpl ∧
      t.dict = s.dict ∧ t.settings = s.settings ∧ t.dictId = s.dictId ∧ t.csizeLo = s.csizeLo ∧ t.csizeHi = s.csizeHi)

/-- R63, R24, R30, R31, R110, R170, R188, R199: the invariant of the machine is kept by every step. -/
def Obligations.StepKeepsInvariant : Prop :=
  ∀ s t : State, Inv s → step s = .next t → Inv t

/-- R270: the invariant holds at reset. -/
def Obligations.ResetMeetsInvariant : Prop := Inv State.reset
end

