-- ==== Sys2Proof/Laws/Table.lean ====
section
/-! SUPPORT. The table files (R24, R25): what a read sees after each operation, and that every operation keeps the canonical form
(log 6). -/

namespace Sys2Proof.Machine

/-! ### Reads after writes -/

@[simp] theorem tableGet_nil (h : Nat) : tableGet [] h = none := rfl

/-- An entry below every index of a list is not in it. -/
theorem tableGet_eq_none {t : Table} {h : Nat} (ht : ∀ e ∈ t, e.1 ≠ h) : tableGet t h = none := by
  induction t with
  | nil => rfl
  | cons e t ih =>
    have := ht e (by simp)
    simp only [tableGet, this, if_false]
    exact ih fun e he => ht e (by simp [he])

theorem tableGet_mem {t : Table} {h p : Nat} (ht : tableGet t h = some p) : (h, p) ∈ t := by
  induction t with
  | nil => cases ht
  | cons e t ih =>
    obtain ⟨i, c⟩ := e
    simp only [tableGet] at ht
    split at ht
    · subst_vars; cases ht; simp
    · simp [ih ht]

/-- R104: after `T[h] <- p` the bucket h holds p and every other bucket what it held. -/
theorem tableGet_tableSet (t : Table) (h p k : Nat) :
    tableGet (tableSet t h p) k = if k = h then some p else tableGet t k := by
  induction t with
  | nil => simp only [tableSet, tableGet, eq_comm]
  | cons e t ih =>
    obtain ⟨i, c⟩ := e
    simp only [tableSet]
    split
    · simp only [tableGet, eq_comm]
    · split
      · rename_i h1 h2; subst h2
        by_cases hk : k = h
        · simp [tableGet, hk]
        · simp [tableGet, hk, Ne.symm hk]
      · rename_i h1 h2
        simp only [tableGet, ih]
        by_cases hik : i = k
        · subst hik; simp [Ne.symm h2]
        · simp [hik]

/-! ### The canonical form -/

theorem tableSorted_cons {e : Nat × Nat} {t : Table} :
    tableSorted (e :: t) = true ↔ (∀ f ∈ t, e.1 < f.1) ∧ tableSorted t = true := by
  induction t generalizing e with
  | nil => simp [tableSorted]
  | cons g t ih =>
    simp only [tableSorted, Bool.and_eq_true, decide_eq_true_eq, List.mem_cons, forall_eq_or_imp]
    constructor
    · rintro ⟨h1, h2⟩
      exact ⟨⟨h1, fun f hf => h1.trans ((ih.1 h2).1 f hf)⟩, h2⟩
    · rintro ⟨⟨h1, -⟩, h2⟩
      exact ⟨h1, h2⟩

theorem tableWf_iff {c : Config} {t : Table} :
    tableWf c t = true ↔ tableSorted t = true ∧ ∀ e ∈ t, e.1 < c.tableSize ∧ e.2 < 4294967296 := by
  simp [tableWf]

@[simp] theorem tableWf_nil (c : Config) : tableWf c [] = true := rfl

/-- Every entry of a table after a write was there before or is the one written. -/
theorem mem_tableSet {t : Table} {h p : Nat} {e : Nat × Nat} (he : e ∈ tableSet t h p) : e = (h, p) ∨ e ∈ t := by
  induction t with
  | nil => simpa [tableSet] using he
  | cons f t ih =>
    obtain ⟨i, c⟩ := f
    simp only [tableSet] at he
    split at he
    · simpa using he
    · split at he
      · rcases List.mem_cons.1 he with h1 | h1 <;> simp [h1]
      · rcases List.mem_cons.1 he with h1 | h1
        · simp [h1]
        · rcases ih h1 with h2 | h2 <;> simp [h2]

theorem tableSorted_tableSet {t : Table} (h p : Nat) (ht : tableSorted t = true) : tableSorted (tableSet t h p) = true := by
  induction t with
  | nil => rfl
  | cons f t ih =>
    obtain ⟨i, c⟩ := f
    have hc := tableSorted_cons.1 ht
    simp only [tableSet]
    split
    · rename_i hi
      refine tableSorted_cons.2 ⟨fun e he => ?_, ht⟩
      rcases List.mem_cons.1 he with rfl | he
      · exact hi
      · exact hi.trans (hc.1 e he)
    · split
      · rename_i hi; subst hi
        exact tableSorted_cons.2 ⟨hc.1, hc.2⟩
      · refine tableSorted_cons.2 ⟨fun e he => ?_, ih hc.2⟩
        rcases mem_tableSet he with rfl | he
        · simp only; omega
        · exact hc.1 e he

/-- A write of a bucket that exists with a position of POS_W bits keeps the canonical form. -/
theorem tableWf_tableSet {c : Config} {t : Table} {h p : Nat} (ht : tableWf c t = true) (hh : h < c.tableSize)
    (hp : p < 4294967296) : tableWf c (tableSet t h p) = true := by
  rw [tableWf_iff] at ht ⊢
  refine ⟨tableSorted_tableSet h p ht.1, fun e he => ?_⟩
  rcases mem_tableSet he with rfl | he
  · exact ⟨hh, hp⟩
  · exact ht.2 e he

/-- Every entry of a shifted table comes from one that was large enough. -/
theorem mem_tableShift {n : Nat} {t : Table} {e : Nat × Nat} :
    e ∈ tableShift n t ↔ ∃ c, (e.1, c) ∈ t ∧ n ≤ c ∧ e.2 = c - n := by
  induction t with
  | nil => simp [tableShift]
  | cons f t ih =>
    obtain ⟨i, d⟩ := f
    simp only [tableShift]
    split
    · rename_i hn
      simp only [List.mem_cons, ih, Prod.mk.injEq]
      constructor
      · rintro (rfl | ⟨c, h1, h2, h3⟩)
        · exact ⟨d, .inl ⟨rfl, rfl⟩, hn, rfl⟩
        · exact ⟨c, .inr h1, h2, h3⟩
      · rintro ⟨c, ⟨h0, rfl⟩ | h1, h2, h3⟩
        · exact .inl (Prod.ext h0 h3)
        · exact .inr ⟨c, h1, h2, h3⟩
    · rename_i hn
      simp only [ih, List.mem_cons, Prod.mk.injEq]
      constructor
      · rintro ⟨c, h1, h2, h3⟩
        exact ⟨c, .inr h1, h2, h3⟩
      · rintro ⟨c, ⟨-, rfl⟩ | h1, h2, h3⟩
        · exact absurd h2 hn
        · exact ⟨c, h1, h2, h3⟩

/-- MT.SHIFT (R106) keeps the canonical form. -/
theorem tableWf_tableShift {c : Config} {t : Table} (n : Nat) (ht : tableWf c t = true) :
    tableWf c (tableShift n t) = true := by
  rw [tableWf_iff] at ht ⊢
  refine ⟨?_, fun e he => ?_⟩
  · obtain ⟨hs, -⟩ := ht
    induction t with
    | nil => rfl
    | cons f t ih =>
      obtain ⟨i, d⟩ := f
      have hc := tableSorted_cons.1 hs
      simp only [tableShift]
      split
      · refine tableSorted_cons.2 ⟨fun e he => ?_, ih hc.2⟩
        obtain ⟨x, hx, -⟩ := mem_tableShift.1 he
        exact hc.1 (e.1, x) hx
      · exact ih hc.2
  · obtain ⟨x, hx, hn, h2⟩ := mem_tableShift.1 he
    have := ht.2 _ hx
    exact ⟨this.1, by simp only at this; omega⟩

/-- Two canonical tables that read alike are equal: the form has one table for each contents. -/
theorem table_ext {t u : Table} (ht : tableSorted t = true) (hu : tableSorted u = true)
    (h : ∀ k, tableGet t k = tableGet u k) : t = u := by
  induction t generalizing u with
  | nil =>
    cases u with
    | nil => rfl
    | cons f u => have := h f.1; simp [tableGet] at this
  | cons e t ih =>
    obtain ⟨i, c⟩ := e
    cases u with
    | nil => have := h i; simp [tableGet] at this
    | cons f u =>
      obtain ⟨j, d⟩ := f
      have hct := tableSorted_cons.1 ht
      have hcu := tableSorted_cons.1 hu
      have hij : i = j := by
        by_contra hne
        have h1 := h i
        have h2 := h j
        simp only [tableGet, if_true, hne, Ne.symm hne, if_false] at h1 h2
        have m1 := hcu.1 _ (tableGet_mem h1.symm)
        have m2 := hct.1 _ (tableGet_mem h2)
        simp only at m1 m2
        omega
      subst hij
      have h1 := h i
      simp only [tableGet, if_true, Option.some.injEq] at h1
      subst h1
      congr 1
      refine ih hct.2 hcu.2 fun k => ?_
      by_cases hk : i = k
      · subst hk
        rw [tableGet_eq_none fun e he => (hct.1 e he).ne', tableGet_eq_none fun e he => (hcu.1 e he).ne']
      · simpa [tableGet, hk] using h k

/-- MT.SHIFT (R106) on a canonical table: each entry loses `n`, one that would become negative is dropped. -/
theorem tableGet_tableShift {t : Table} (ht : tableSorted t = true) (n k : Nat) :
    tableGet (tableShift n t) k = (tableGet t k).bind fun c => if n ≤ c then some (c - n) else none := by
  induction t with
  | nil => rfl
  | cons f t ih =>
    obtain ⟨i, d⟩ := f
    have hc := tableSorted_cons.1 ht
    have ih := ih hc.2
    by_cases hik : i = k
    · subst hik
      have hn : tableGet (tableShift n t) i = none :=
        tableGet_eq_none fun e he => by
          obtain ⟨x, hx, -⟩ := mem_tableShift.1 he
          exact (hc.1 _ hx).ne'
      by_cases hd : n ≤ d <;> simp [tableShift, tableGet, hd, hn]
    · by_cases hd : n ≤ d <;> simp [tableShift, tableGet, hd, hik, ih]

/-! ### Insertions by hash (R109, R129, R105) -/

/-- R101: a table index is below TABLE_SIZE. -/
theorem hashWord_lt (c : Config) (w : Word) : hashWord c w < c.tableSize := by
  have h : 0 < c.tableSize := Nat.two_pow_pos _
  unfold hashWord
  split <;> exact Nat.mod_lt _ h

theorem hashAt_lt (c : Config) (B : List Byte) (p : Nat) : hashAt c B p < c.tableSize := hashWord_lt c _

theorem tableWf_tableInsert {c : Config} {t : Table} (B : List Byte) {q : Nat} (hq : q < 4294967296)
    (ht : tableWf c t = true) : tableWf c (tableInsert c B q t) = true :=
  tableWf_tableSet ht (hashAt_lt c B q) hq

theorem tableWf_tableInsertRange {c : Config} (B : List Byte) (k : Nat) : ∀ {q : Nat} {t : Table}, q + k ≤ 4294967296 →
    tableWf c t = true → tableWf c (tableInsertRange c B q k t) = true := by
  induction k with
  | zero => intro q t _ ht; exact ht
  | succ k ih => intro q t hq ht; exact ih (by omega) (tableWf_tableInsert B (by omega) ht)

/-- Seeding (R105) keeps the canonical form while positions fit POS_W. -/
theorem tableWf_tableSeed {c : Config} (B : List Byte) (stride e : Nat) (he : e ≤ 4294967296) (turns : Nat) :
    ∀ {p : Nat} {t : Table}, tableWf c t = true → tableWf c (tableSeed c B stride e turns p t) = true := by
  induction turns with
  | zero => intro p t ht; exact ht
  | succ k ih =>
    intro p t ht
    simp only [tableSeed]
    split
    · refine ih ?_
      split
      · exact tableWf_tableInsert B (by omega) ht
      · exact ht
    · exact ht

/-! ### Bounds on the positions (R110) -/

theorem tableBelow_iff {n : Nat} {t : Table} : tableBelow n t = true ↔ ∀ e ∈ t, e.2 < n := by simp [tableBelow]

@[simp] theorem tableBelow_nil (n : Nat) : tableBelow n [] = true := rfl

theorem tableBelow_mono {n k : Nat} {t : Table} (h : tableBelow n t = true) (hk : n ≤ k) : tableBelow k t = true := by
  rw [tableBelow_iff] at h ⊢
  exact fun e he => (h e he).trans_le hk

theorem tableBelow_tableSet {n : Nat} {t : Table} {h p : Nat} (ht : tableBelow n t = true) (hp : p < n) :
    tableBelow n (tableSet t h p) = true := by
  rw [tableBelow_iff] at ht ⊢
  intro e he
  rcases mem_tableSet he with rfl | he
  · exact hp
  · exact ht e he

theorem tableBelow_tableInsertRange {c : Config} (B : List Byte) {n : Nat} (k : Nat) : ∀ {q : Nat} {t : Table}, q + k ≤ n →
    tableBelow n t = true → tableBelow n (tableInsertRange c B q k t) = true := by
  induction k with
  | zero => intro q t _ ht; exact ht
  | succ k ih => intro q t hq ht; exact ih (by omega) (tableBelow_tableSet ht (by omega))

theorem tableBelow_tableSeed {c : Config} (B : List Byte) (stride e : Nat) {n : Nat} (he : e ≤ n) (turns : Nat) :
    ∀ {p : Nat} {t : Table}, tableBelow n t = true → tableBelow n (tableSeed c B stride e turns p t) = true := by
  induction turns with
  | zero => intro p t ht; exact ht
  | succ k ih =>
    intro p t ht
    simp only [tableSeed]
    split
    · refine ih ?_
      split
      · exact tableBelow_tableSet ht (by omega)
      · exact ht
    · exact ht

/-- After the shift by `k` (R106, R166) every entry lies below the shifted bound. -/
theorem tableBelow_tableShift {n k : Nat} {t : Table} (ht : tableBelow n t = true) :
    tableBelow (n - k) (tableShift k t) = true := by
  rw [tableBelow_iff] at ht ⊢
  intro e he
  obtain ⟨c, hc, hk, h2⟩ := mem_tableShift.1 he
  have := ht _ hc
  simp only at this
  omega

/-- The two table files of the reset state are in canonical form. -/
theorem reset_tablesWf : TablesWf State.reset := ⟨rfl, rfl⟩

end Sys2Proof.Machine
end

