-- ==== Sys2Proof/Laws/Wire.lean ====
section
/-! SUPPORT. Byte sequences and the fields of the wire format (R10, R11, R80 to R92): each reader gives back what its writer
wrote. -/

namespace Sys2Proof.Machine

/-! ### Little-endian words (R11) -/

@[simp] theorem le16_length (v : BitVec 16) : (le16 v).length = 2 := rfl
@[simp] theorem le32_length (v : Word) : (le32 v).length = 4 := rfl
@[simp] theorem le64_length (v : BitVec 64) : (le64 v).length = 8 := rfl

theorem u16Of_split (v : BitVec 16) : u16Of (v.extractLsb' 0 8) (v.extractLsb' 8 8) = v := by
  apply BitVec.eq_of_getLsbD_eq
  intro i hi
  simp only [u16Of, BitVec.getLsbD_append, BitVec.getLsbD_extractLsb']
  by_cases h : i < 8
  · simp [h]
  · have h1 : i - 8 < 8 := by omega
    have h2 : 8 + (i - 8) = i := by omega
    simp [h, h1, h2]

theorem u32Of_split (v : Word) :
    u32Of (v.extractLsb' 0 8) (v.extractLsb' 8 8) (v.extractLsb' 16 8) (v.extractLsb' 24 8) = v := by
  apply BitVec.eq_of_getLsbD_eq
  intro i hi
  simp only [u32Of, BitVec.getLsbD_append, BitVec.getLsbD_extractLsb']
  by_cases h : i < 8
  · simp [h]
  · by_cases h8 : i - 8 < 8
    · have h2 : 8 + (i - 8) = i := by omega
      simp [h, h8, h2]
    · by_cases h16 : i - 8 - 8 < 8
      · have h2 : 16 + (i - 8 - 8) = i := by omega
        simp [h, h8, h16, h2]
      · have h3 : i - 8 - 8 - 8 < 8 := by omega
        have h2 : 24 + (i - 8 - 8 - 8) = i := by omega
        simp [h, h8, h16, h3, h2]

/-- Four bytes written as a word read back as that word, whatever follows. -/
@[simp] theorem u32At_le32 (v : Word) (rest : List Byte) : u32At (le32 v ++ rest) 0 = v := by
  simpa [u32At, le32, byteAt] using u32Of_split v

@[simp] theorem u32At_le32_nil (v : Word) : u32At (le32 v) 0 = v := by simpa using u32At_le32 v []

/-- The low word of eight bytes written as a doubleword. -/
theorem u32At_le64_lo (v : BitVec 64) (rest : List Byte) : u32At (le64 v ++ rest) 0 = v.extractLsb' 0 32 := by
  simp only [u32At, le64, byteAt, List.cons_append, List.getD_cons_zero, List.getD_cons_succ]
  rw [← u32Of_split (v.extractLsb' 0 32)]
  congr 1 <;> (ext i hi; simp; try omega)

/-- The high word of eight bytes written as a doubleword. -/
theorem u32At_le64_hi (v : BitVec 64) (rest : List Byte) : u32At (le64 v ++ rest) 4 = v.extractLsb' 32 32 := by
  simp only [u32At, le64, byteAt, List.cons_append, List.getD_cons_zero, List.getD_cons_succ]
  rw [← u32Of_split (v.extractLsb' 32 32)]
  congr 1 <;> (apply BitVec.eq_of_getLsbD_eq; intro i hi; simp only [BitVec.getLsbD_extractLsb'])
  · simp [show i < 32 by omega]
  · simp [show 8 + i < 32 by omega, show 32 + (8 + i) = 40 + i by omega]
  · simp [show 16 + i < 32 by omega, show 32 + (16 + i) = 48 + i by omega]
  · simp [show 24 + i < 32 by omega, show 32 + (24 + i) = 56 + i by omega]

/-! ### Slices (R10) -/

@[simp] theorem lastK_length (k : Nat) (b : List Byte) : (lastK k b).length = min b.length k := by
  simp [lastK]; omega

theorem lastK_suffix (k : Nat) (b : List Byte) : lastK k b <:+ b := List.drop_suffix ..

theorem lastK_of_le {k : Nat} {b : List Byte} (h : b.length ≤ k) : lastK k b = b := by
  have : b.length - k = 0 := by omega
  simp [lastK, this]

@[simp] theorem slice_length (B : List Byte) (i j : Nat) : (slice B i j).length = min (j - i) (B.length - i) := by
  simp [slice]

/-- What comes before, and from, a position of a buffer. -/
theorem slice_append_drop {B : List Byte} {i j : Nat} (h : i ≤ j) : slice B i j ++ B.drop j = B.drop i := by
  have : B.drop j = (B.drop i).drop (j - i) := by rw [List.drop_drop]; congr 1; omega
  rw [slice, this, List.take_append_drop]

/-! ### Token and lengths (R80 to R82) -/

@[simp] theorem tokenLit_tokenByte (l m : BitVec 4) : tokenLit (tokenByte l m) = l := by
  revert l m; decide

@[simp] theorem tokenMat_tokenByte (l m : BitVec 4) : tokenMat (tokenByte l m) = m := by
  revert l m; decide

/-- The bytes `k` times 255 and then a last one read as their sum (R82). -/
theorem readExt_replicate (k : Nat) (b : Byte) (hb : b ≠ 255#8) (rest : List Byte) :
    readExt (List.replicate k 255#8 ++ b :: rest) = some (255 * k + b.toNat, rest) := by
  induction k with
  | zero => simp [readExt, hb]
  | succ k ih =>
    simp only [List.replicate_succ, List.cons_append, readExt, if_true, ih, Option.map_some]
    congr 2
    ring

/-- The extension bytes of a value from 15 on read as what is above 15. -/
theorem readExt_lengthExt {v : Nat} (hv : 15 ≤ v) (rest : List Byte) :
    readExt (lengthExt v ++ rest) = some (v - 15, rest) := by
  have h1 : ¬ v < 15 := by omega
  have h2 : (v - 15) % 255 < 255 := Nat.mod_lt _ (by omega)
  have h3 : (BitVec.ofNat 8 ((v - 15) % 255)) ≠ 255#8 := by
    intro h
    have := congrArg BitVec.toNat h
    simp only [BitVec.toNat_ofNat] at this
    omega
  simp only [lengthExt, h1, if_false, List.append_assoc, List.singleton_append, readExt_replicate _ _ h3,
    Option.some.injEq, Prod.mk.injEq, and_true, BitVec.toNat_ofNat]
  omega

/-- How many extension bytes a length has (R81). -/
theorem lengthExt_length (v : Nat) : (lengthExt v).length = if v < 15 then 0 else (v - 15) / 255 + 1 := by
  by_cases h : v < 15 <;> simp [lengthExt, h]

/-! ### FLG and BD (R88, R89) -/

theorem flagBit_getLsbD (b : Bool) (k : Fin 6) (i : Nat) (hi : i < 8) :
    (flagBit b k).getLsbD i = (b && decide (k.val = i)) := by
  revert b k i; decide

/-- One bit of a FLG byte (R88). -/
theorem flgByte_getLsbD (l : FlgLayout) (f : HdrFlags) (i : Nat) (hi : i < 8) :
    (flgByte l f).getLsbD i =
      (decide (i = 6) || (f.ind && decide (l.ind.val = i)) || (f.bck && decide (l.bck.val = i)) ||
        (f.csz && decide (l.csz.val = i)) || (f.cck && decide (l.cck.val = i)) || (f.did && decide (l.did.val = i))) := by
  have h6 : (0x40#8).getLsbD i = decide (i = 6) := by interval_cases i <;> rfl
  simp [flgByte, flagBit_getLsbD _ _ _ hi, h6]

/-- R88: reading a written FLG byte gives its flags, for every layout of six different bits. -/
theorem parseFlg_flgByte {l : FlgLayout} (hl : l.valid) (f : HdrFlags) : parseFlg l (flgByte l f) = some f := by
  obtain ⟨h1, h2, h3, h4, h5⟩ : (l.ind ≠ l.bck ∧ l.ind ≠ l.csz ∧ l.ind ≠ l.cck ∧ l.ind ≠ l.rsv ∧ l.ind ≠ l.did) ∧
      (l.bck ≠ l.csz ∧ l.bck ≠ l.cck ∧ l.bck ≠ l.rsv ∧ l.bck ≠ l.did) ∧ (l.csz ≠ l.cck ∧ l.csz ≠ l.rsv ∧ l.csz ≠ l.did) ∧
      (l.cck ≠ l.rsv ∧ l.cck ≠ l.did) ∧ l.rsv ≠ l.did := by
    simpa [FlgLayout.valid, not_or, and_assoc] using hl
  have hf : ∀ k : Fin 6, (flgByte l f).getLsbD k = ((f.ind && decide (l.ind = k)) || (f.bck && decide (l.bck = k)) ||
      (f.csz && decide (l.csz = k)) || (f.cck && decide (l.cck = k)) || (f.did && decide (l.did = k))) := by
    intro k
    have hk : ¬ k.val = 6 := by omega
    rw [flgByte_getLsbD l f k.val (by omega)]
    simp [hk, Fin.ext_iff]
  have hv : (flgByte l f).extractLsb' 6 2 = 1#2 := by
    apply BitVec.eq_of_getLsbD_eq
    intro i hi
    have a1 := l.ind.isLt
    have a2 := l.bck.isLt
    have a3 := l.csz.isLt
    have a4 := l.cck.isLt
    have a5 := l.did.isLt
    have b1 : ¬ l.ind.val = 6 + i := by omega
    have b2 : ¬ l.bck.val = 6 + i := by omega
    have b3 : ¬ l.csz.val = 6 + i := by omega
    have b4 : ¬ l.cck.val = 6 + i := by omega
    have b5 : ¬ l.did.val = 6 + i := by omega
    simp only [BitVec.getLsbD_extractLsb', hi, decide_true, Bool.true_and, flgByte_getLsbD l f (6 + i) (by omega), b1, b2, b3,
      b4, b5, decide_false, Bool.and_false, Bool.or_false]
    interval_cases i <;> rfl
  have hr : (flgByte l f).getLsbD l.rsv = false := by
    simp [hf, h1, h2, h3, h4, Ne.symm h5]
  simp only [parseFlg, hv, hr, and_self, if_true, Option.some.injEq]
  cases f
  simp [hf, h1, h2, h3, h4, Ne.symm h1.1, Ne.symm h1.2.1, Ne.symm h1.2.2.1, Ne.symm h1.2.2.2.2, Ne.symm h2.1, Ne.symm h2.2.1,
    Ne.symm h2.2.2.2, Ne.symm h3.1, Ne.symm h3.2.2, Ne.symm h4.2]

/-- R89: reading a written BD byte gives its class, for four different codes. -/
theorem parseBd_bdByte {c : BdCodes} (hc : c.valid) (k : BitVec 2) : parseBd c (bdByte c k) = some k := by
  have h : (c.c0 ≠ c.c1 ∧ c.c0 ≠ c.c2 ∧ c.c0 ≠ c.c3) ∧ (c.c1 ≠ c.c2 ∧ c.c1 ≠ c.c3) ∧ c.c2 ≠ c.c3 := by
    simpa [BdCodes.valid, not_or, and_assoc] using hc
  obtain ⟨h0, h1, h2⟩ := h
  have hk : k = 0#2 ∨ k = 1#2 ∨ k = 2#2 ∨ k = 3#2 := by revert k; decide
  rcases hk with rfl | rfl | rfl | rfl <;>
    simp [bdByte, parseBd, h0.1.symm, h0.2.1.symm, h0.2.2.symm, h1.1.symm, h1.2.symm, h2.symm]

/-! ### Length words (R90, R92) -/

@[simp] theorem wordStored_lengthWord (st : Bool) (n : BitVec 31) : wordStored (lengthWord st n) = st := by
  simp only [wordStored, lengthWord, BitVec.getLsbD_append]
  simp

@[simp] theorem wordCount_lengthWord (st : Bool) (n : BitVec 31) : wordCount (lengthWord st n) = n := by
  apply BitVec.eq_of_getLsbD_eq
  intro i hi
  simp only [wordCount, lengthWord, BitVec.getLsbD_extractLsb', BitVec.getLsbD_append]
  simp [hi]

/-- R92: a length word is the end mark only when it is not STORED and counts no byte. -/
theorem lengthWord_eq_zero {st : Bool} {n : BitVec 31} : lengthWord st n = 0#32 ↔ st = false ∧ n = 0#31 := by
  constructor
  · intro h
    have h1 := wordStored_lengthWord st n
    have h2 := wordCount_lengthWord st n
    rw [h] at h1 h2
    exact ⟨h1.symm, h2.symm⟩
  · rintro ⟨rfl, rfl⟩; rfl

/-- Writing the fields of a word again gives the word. -/
theorem lengthWord_fields (w : Word) : lengthWord (wordStored w) (wordCount w) = w := by
  apply BitVec.eq_of_getLsbD_eq
  intro i hi
  simp only [lengthWord, wordStored, wordCount, BitVec.getLsbD_append, BitVec.getLsbD_extractLsb', Nat.zero_add]
  by_cases h : i < 31
  · simp [h]
  · have : i = 31 := by omega
    subst this; simp

end Sys2Proof.Machine
end

