-- ==== Sys2Proof/Laws/Codec.lean ====
section
/-! SUPPORT. The raw codec (41_raw_block_encoder.md, 42_raw_block_decoder.md): the bounds on what it writes, and the table after a
scan. -/

namespace Sys2Proof.Machine

/-! ### The sink of the encoder (R128) -/

/-- Put writes all of its bytes, within the capacity. -/
theorem encPut_eq_some {cap : Nat} {v k k1 : List Byte} (h : encPut cap v k = some k1) : k1 = k ++ v ∧ k1.length ≤ cap := by
  simp only [encPut] at h
  split at h
  · cases h; simp only [List.length_append, true_and]; assumption
  · cases h

/-- A sequence that was emitted stands whole at the end of the sink (R84, R126). -/
theorem emitSequence_eq_some {cap : Nat} {lit k k1 : List Byte} {off m : Nat} (h : emitSequence cap lit off m k = some k1) :
    k1 = k ++ seqBytes ⟨lit, off, m⟩ ∧ k1.length ≤ cap := by
  simp only [emitSequence, Option.bind_eq_some_iff] at h
  obtain ⟨a, ha, b, hb, c, hc, d, hd, he⟩ := h
  obtain ⟨rfl, -⟩ := encPut_eq_some ha
  obtain ⟨rfl, -⟩ := encPut_eq_some hb
  obtain ⟨rfl, -⟩ := encPut_eq_some hc
  obtain ⟨rfl, -⟩ := encPut_eq_some hd
  obtain ⟨rfl, hl⟩ := encPut_eq_some he
  exact ⟨by simp [seqBytes], hl⟩

/-- The last literals that were emitted stand whole at the end of the sink (R85, R127). -/
theorem emitLast_eq_some {cap : Nat} {lit k k1 : List Byte} (h : emitLast cap lit k = some k1) :
    k1 = k ++ ([tokenByte (nibble lit.length) 0#4] ++ lengthExt lit.length ++ lit) ∧ k1.length ≤ cap := by
  simp only [emitLast, Option.bind_eq_some_iff] at h
  obtain ⟨a, ha, b, hb, hc⟩ := h
  obtain ⟨rfl, -⟩ := encPut_eq_some ha
  obtain ⟨rfl, -⟩ := encPut_eq_some hb
  obtain ⟨rfl, hl⟩ := encPut_eq_some hc
  exact ⟨by simp, hl⟩

/-- A scan never writes past the capacity of the sink. -/
theorem encScan_length {c : Config} {B : List Byte} {cap : Nat} (turns : Nat) : ∀ {p anchor : Nat} {sink code : List Byte}
    {t t1 : Table}, encScan c B cap turns p anchor sink t = (some code, t1) → code.length ≤ cap := by
  induction turns with
  | zero =>
    intro p anchor sink code t t1 h
    simp only [encScan, Prod.mk.injEq] at h
    exact (emitLast_eq_some h.1).2
  | succ n ih =>
    intro p anchor sink code t t1 h
    simp only [encScan] at h
    split at h
    · split at h
      · exact ih h
      · split at h
        · cases h
        · exact ih h
    · simp only [Prod.mk.injEq] at h
      exact (emitLast_eq_some h.1).2

/-- R120: a code is never longer than the bytes it stands for. -/
theorem encBlock_length {c : Config} {B code : List Byte} {start : Nat} {t t1 : Table}
    (h : encBlock c B start t = (some code, t1)) : code.length ≤ B.length - start := encScan_length _ h

/-! ### Matches found (R123 to R125) -/

theorem acceptCand_eq_some {B : List Byte} {cand : Option Nat} {p q : Nat} {w : Word} (h : acceptCand B cand p w = some q) :
    cand = some q ∧ q < p ∧ p - q ≤ 65535 ∧ u32At B q = w := by
  unfold acceptCand at h
  split at h
  · cases h
  · split at h
    · cases h; rename_i hc; exact ⟨rfl, hc.1, hc.2.1, hc.2.2⟩
    · cases h

/-- Forward extension only grows, keeps the bytes equal, and leaves the last five bytes to the literals. -/
theorem extendForward_spec (B : List Byte) (c p turns m : Nat) :
    m ≤ extendForward B c p turns m ∧
    (p + m + 5 ≤ B.length → p + extendForward B c p turns m + 5 ≤ B.length) ∧
    (∀ i, m ≤ i → i < extendForward B c p turns m → byteAt B (c + i) = byteAt B (p + i)) := by
  induction turns generalizing m with
  | zero => exact ⟨le_rfl, id, fun i h1 h2 => by simp only [extendForward] at h2; omega⟩
  | succ n ih =>
    by_cases h : p + m + 5 < B.length ∧ byteAt B (c + m) = byteAt B (p + m)
    · have e : extendForward B c p (n + 1) m = extendForward B c p n (m + 1) := if_pos h
      rw [e]
      obtain ⟨h1, h2, h3⟩ := ih (m + 1)
      refine ⟨by omega, fun _ => h2 (by omega), fun i hi hi2 => ?_⟩
      by_cases he : i = m
      · subst he; exact h.2
      · exact h3 i (by omega) hi2
    · have e : extendForward B c p (n + 1) m = m := if_neg h
      rw [e]
      exact ⟨le_rfl, id, fun i h1 h2 => by omega⟩

/-- Backward extension stays behind the anchor and inside the buffer, and keeps the bytes equal. -/
theorem extendBackward_spec (B : List Byte) (anchor turns p c : Nat) (hp : anchor ≤ p) :
    anchor + extendBackward B anchor turns p c ≤ p ∧ extendBackward B anchor turns p c ≤ c ∧
    (∀ i, 1 ≤ i → i ≤ extendBackward B anchor turns p c → byteAt B (p - i) = byteAt B (c - i)) := by
  induction turns generalizing p c with
  | zero => exact ⟨by simpa [extendBackward] using hp, by simp [extendBackward], fun i h1 h2 => by simp only [extendBackward] at h2; omega⟩
  | succ n ih =>
    by_cases h : anchor < p ∧ 0 < c ∧ byteAt B (p - 1) = byteAt B (c - 1)
    · have e : extendBackward B anchor (n + 1) p c = extendBackward B anchor n (p - 1) (c - 1) + 1 := if_pos h
      rw [e]
      obtain ⟨h1, h2, h3⟩ := ih (p - 1) (c - 1) (by omega)
      refine ⟨by omega, by omega, fun i hi hi2 => ?_⟩
      by_cases he : i = 1
      · subst he; exact h.2.2
      · have := h3 (i - 1) (by omega) (by omega)
        rwa [show p - 1 - (i - 1) = p - i by omega, show c - 1 - (i - 1) = c - i by omega] at this
    · have e : extendBackward B anchor (n + 1) p c = 0 := if_neg h
      rw [e]
      exact ⟨by omega, by omega, fun i h1 h2 => by omega⟩

/-! ### The table after a scan (R129) -/

/-- A scan keeps any property of the table that an insertion of a position of the buffer keeps. -/
theorem encScan_table {c : Config} {B : List Byte} {cap : Nat} {P : Table → Prop}
    (hP : ∀ t q, q < B.length → P t → P (tableInsert c B q t)) (turns : Nat) :
    ∀ {p anchor : Nat} {sink : List Byte} {t : Table}, P t → P (encScan c B cap turns p anchor sink t).2 := by
  have hR : ∀ k q t, q + k ≤ B.length → P t → P (tableInsertRange c B q k t) := by
    intro k
    induction k with
    | zero => intro q t _ ht; exact ht
    | succ k ih => intro q t hq ht; exact ih (q + 1) _ (by omega) (hP t q (by omega) ht)
  induction turns with
  | zero => intro p anchor sink t ht; exact ht
  | succ n ih =>
    intro p anchor sink t ht
    simp only [encScan]
    split
    · rename_i hp
      simp only [Config.minMatch, Config.lastLiterals] at hp
      have h1 := hP t p (by omega) ht
      split
      · exact ih h1
      · split
        · exact h1
        · rename_i q _ _ _ _
          obtain ⟨e1, e2, -⟩ := extendForward_spec B q p B.length 4
          refine ih (hR _ _ _ ?_ h1)
          have := e2 (by omega)
          omega
    · exact ht

theorem tableWf_encBlock {c : Config} {B : List Byte} {start : Nat} {t : Table} (hB : B.length ≤ 4294967296)
    (ht : tableWf c t = true) : tableWf c (encBlock c B start t).2 = true :=
  encScan_table (P := fun t => tableWf c t = true) (fun _ _ hq h => tableWf_tableInsert B (by omega) h) _ ht

theorem tableBelow_encBlock {c : Config} {B : List Byte} {start : Nat} {t : Table} (ht : tableBelow B.length t = true) :
    tableBelow B.length (encBlock c B start t).2 = true :=
  encScan_table (P := fun t => tableBelow B.length t = true) (fun _ _ hq h => tableBelow_tableSet h hq) _ ht

/-! ### The decoder (R141, R146) -/

/-- A match copy appends its bytes and changes none before them. -/
theorem copyMatch_length (ctx : List Byte) (off m : Nat) (out : List Byte) :
    (copyMatch ctx off m out).length = out.length + m := by
  induction m generalizing out with
  | zero => rfl
  | succ m ih => simp only [copyMatch, ih, List.length_append, List.length_singleton]; omega

theorem copyMatch_extends (ctx : List Byte) (off m : Nat) (out : List Byte) : out <+: copyMatch ctx off m out := by
  induction m generalizing out with
  | zero => exact List.prefix_rfl
  | succ m ih => exact (List.prefix_append _ _).trans (ih _)

/-- R145: decoded output never exceeds the capacity. -/
theorem decLoop_length {ctx : List Byte} {cap : Nat} (turns : Nat) : ∀ {inp out o : List Byte},
    decLoop ctx cap turns inp out = .ok o → o.length ≤ cap := by
  induction turns with
  | zero => intro inp out o h; cases h
  | succ n ih =>
    intro inp out o h
    cases inp with
    | nil => cases h
    | cons tok rest =>
      simp only [decLoop] at h
      repeat' split at h
      all_goals first
        | exact ih h
        | (cases h; done)
        | (cases h; simp only [List.length_append, List.length_take]; omega)

theorem decBlock_length {inp ctx o : List Byte} {cap : Nat} (h : decBlock inp ctx cap = .ok o) : o.length ≤ cap :=
  decLoop_length _ h

end Sys2Proof.Machine
end

