-- ==== Sys2Proof/Laws/PerInstr.lean ====
section
/-! SUPPORT. Statements for all instructions, made per instruction: the shape of each encoding (R70, R80 to R94). -/

/-- A command is presented as one to three words (R70), a wire unit as one unit of 1, 2 or 4 bytes (R52). -/
def Sys2Proof.Laws.encoding.Statement (i : Sys2Proof.Instr) : Prop :=
  ∀ c : Sys2Proof.Config,
    (i.isCommand = true ∧ ∃ ws : List Sys2Proof.Word,
      Sys2Proof.encode c i = ws.map Sys2Proof.HostItem.word ∧ 1 ≤ ws.length ∧ ws.length ≤ 3) ∨
    (i.isCommand = false ∧ ∃ f b, Sys2Proof.encode c i = [Sys2Proof.HostItem.wire f b] ∧ (b.length = 1 ∨ b.length = 2 ∨ b.length = 4))

namespace Sys2Proof.Laws.encoding

theorem sysReset : Statement .sysReset := fun _ => .inl ⟨rfl, [_], rfl, by simp, by simp⟩
theorem csrRd (reg : BitVec 24) : Statement (.csrRd reg) := fun _ => .inl ⟨rfl, [_], rfl, by simp, by simp⟩
theorem csrWr (reg : BitVec 24) (value : Word) : Statement (.csrWr reg value) := fun _ => .inl ⟨rfl, [_, _], rfl, by simp, by simp⟩
theorem dictLoad (n : Word) : Statement (.dictLoad n) := fun _ => .inl ⟨rfl, [_, _], rfl, by simp, by simp⟩
theorem dictClear : Statement .dictClear := fun _ => .inl ⟨rfl, [_], rfl, by simp, by simp⟩
theorem winClear : Statement .winClear := fun _ => .inl ⟨rfl, [_], rfl, by simp, by simp⟩
theorem winAppend (n : Word) : Statement (.winAppend n) := fun _ => .inl ⟨rfl, [_, _], rfl, by simp, by simp⟩
theorem winDrop (n : Word) : Statement (.winDrop n) := fun _ => .inl ⟨rfl, [_, _], rfl, by simp, by simp⟩
theorem dinLoad (n : Word) : Statement (.dinLoad n) := fun _ => .inl ⟨rfl, [_, _], rfl, by simp, by simp⟩
theorem sinkFlush : Statement .sinkFlush := fun _ => .inl ⟨rfl, [_], rfl, by simp, by simp⟩
theorem outFlush : Statement .outFlush := fun _ => .inl ⟨rfl, [_], rfl, by simp, by simp⟩
theorem dwinClear : Statement .dwinClear := fun _ => .inl ⟨rfl, [_], rfl, by simp, by simp⟩
theorem dwinPush : Statement .dwinPush := fun _ => .inl ⟨rfl, [_], rfl, by simp, by simp⟩
theorem dwinDict : Statement .dwinDict := fun _ => .inl ⟨rfl, [_], rfl, by simp, by simp⟩
theorem mtReset : Statement .mtReset := fun _ => .inl ⟨rfl, [_], rfl, by simp, by simp⟩
theorem mtHash (word : Word) : Statement (.mtHash word) := fun _ => .inl ⟨rfl, [_, _], rfl, by simp, by simp⟩
theorem mtLookup (h : BitVec 24) : Statement (.mtLookup h) := fun _ => .inl ⟨rfl, [_], rfl, by simp, by simp⟩
theorem mtInsert (h : BitVec 24) (pos : Word) : Statement (.mtInsert h pos) := fun _ => .inl ⟨rfl, [_, _], rfl, by simp, by simp⟩
theorem mtShift (by_ : Word) : Statement (.mtShift by_) := fun _ => .inl ⟨rfl, [_, _], rfl, by simp, by simp⟩
theorem mtSeed (stride : BitVec 24) (first : Word) (end_ : Word) : Statement (.mtSeed stride first end_) := fun _ => .inl ⟨rfl, [_, _, _], rfl, by simp, by simp⟩
theorem mtSave : Statement .mtSave := fun _ => .inl ⟨rfl, [_], rfl, by simp, by simp⟩
theorem mtReseed : Statement .mtReseed := fun _ => .inl ⟨rfl, [_], rfl, by simp, by simp⟩
theorem encBlock (start : Word) : Statement (.encBlock start) := fun _ => .inl ⟨rfl, [_, _], rfl, by simp, by simp⟩
theorem decBlock (ctxsel : BitVec 24) : Statement (.decBlock ctxsel) := fun _ => .inl ⟨rfl, [_], rfl, by simp, by simp⟩
theorem feStart (mode : BitVec 24) : Statement (.feStart mode) := fun _ => .inl ⟨rfl, [_], rfl, by simp, by simp⟩
theorem feBlock : Statement .feBlock := fun _ => .inl ⟨rfl, [_], rfl, by simp, by simp⟩
theorem feFinish : Statement .feFinish := fun _ => .inl ⟨rfl, [_], rfl, by simp, by simp⟩
theorem feRun (mode : BitVec 24) : Statement (.feRun mode) := fun _ => .inl ⟨rfl, [_], rfl, by simp, by simp⟩
theorem fdOpen : Statement .fdOpen := fun _ => .inl ⟨rfl, [_], rfl, by simp, by simp⟩
theorem fdBlock : Statement .fdBlock := fun _ => .inl ⟨rfl, [_], rfl, by simp, by simp⟩
theorem fdAll : Statement .fdAll := fun _ => .inl ⟨rfl, [_], rfl, by simp, by simp⟩
theorem rdFill : Statement .rdFill := fun _ => .inl ⟨rfl, [_], rfl, by simp, by simp⟩
theorem rdConsume (n : Word) : Statement (.rdConsume n) := fun _ => .inl ⟨rfl, [_, _], rfl, by simp, by simp⟩
theorem wireToken (lit : BitVec 4) (mat : BitVec 4) : Statement (.wireToken lit mat) := fun _ => .inr ⟨rfl, _, _, rfl, .inl rfl⟩
theorem wireLengthExtMore : Statement .wireLengthExtMore := fun _ => .inr ⟨rfl, _, _, rfl, .inl rfl⟩
theorem wireLengthExtLast (b : Byte) : Statement (.wireLengthExtLast b) := fun _ => .inr ⟨rfl, _, _, rfl, .inl rfl⟩
theorem wireOffset (off : BitVec 16) : Statement (.wireOffset off) := fun _ => .inr ⟨rfl, _, _, rfl, .inr (.inl rfl)⟩
theorem wireMagic : Statement .wireMagic := fun _ => .inr ⟨rfl, _, _, rfl, .inr (.inr rfl)⟩
theorem wireFlg (ind bck csz cck did : Bool) : Statement (.wireFlg ind bck csz cck did) := fun _ => .inr ⟨rfl, _, _, rfl, .inl rfl⟩
theorem wireBd64K : Statement .wireBd64K := fun _ => .inr ⟨rfl, _, _, rfl, .inl rfl⟩
theorem wireBd256K : Statement .wireBd256K := fun _ => .inr ⟨rfl, _, _, rfl, .inl rfl⟩
theorem wireBd1M : Statement .wireBd1M := fun _ => .inr ⟨rfl, _, _, rfl, .inl rfl⟩
theorem wireBd4M : Statement .wireBd4M := fun _ => .inr ⟨rfl, _, _, rfl, .inl rfl⟩
theorem wireHeaderChecksum (c : Byte) : Statement (.wireHeaderChecksum c) := fun _ => .inr ⟨rfl, _, _, rfl, .inl rfl⟩
theorem wireBlockLength (stored : Bool) (n : BitVec 31) : Statement (.wireBlockLength stored n) := fun _ => .inr ⟨rfl, _, _, rfl, .inr (.inr rfl)⟩
theorem wireEndMark : Statement .wireEndMark := fun _ => .inr ⟨rfl, _, _, rfl, .inr (.inr rfl)⟩
theorem wireBlockChecksum (c : Word) : Statement (.wireBlockChecksum c) := fun _ => .inr ⟨rfl, _, _, rfl, .inr (.inr rfl)⟩
theorem wireContentChecksum (c : Word) : Statement (.wireContentChecksum c) := fun _ => .inr ⟨rfl, _, _, rfl, .inr (.inr rfl)⟩

end Sys2Proof.Laws.encoding
end

