-- ==== Sys2Proof/Laws/State.lean ====
section
/-! SUPPORT. The constants of R7 as numbers, and the fields of a state after each named update, one lemma per field, so that no
proof unfolds an update. -/

namespace Sys2Proof.Machine

theorem windowSize_eq : Config.windowSize = 65536 := rfl
theorem dictCap_eq : Config.dictCap = 65536 := rfl
theorem winCap_eq : Config.winCap = 4259840 := rfl
theorem minMatch_eq : Config.minMatch = 4 := rfl
theorem lastLiterals_eq : Config.lastLiterals = 5 := rfl
theorem maxOffset_eq : Config.maxOffset = 65535 := rfl
theorem hashSeed_eq : Config.hashSeed = 0 := rfl

/-- R7: a class maximum is one of four values, the largest 4194304. -/
theorem blockMax_cases (k : BitVec 2) :
    Config.blockMax k = 65536 ∨ Config.blockMax k = 262144 ∨ Config.blockMax k = 1048576 ∨ Config.blockMax k = 4194304 := by
  unfold Config.blockMax
  split
  · simp
  · split
    · simp
    · split <;> simp

theorem blockMax_le (k : BitVec 2) : Config.blockMax k ≤ 4194304 := by
  rcases blockMax_cases k with h | h | h | h <;> omega

theorem blockMax_pos (k : BitVec 2) : 0 < Config.blockMax k := by
  rcases blockMax_cases k with h | h | h | h <;> omega

@[simp] theorem respond_t (r : Response) (s : State) : (respond r s).t = s.t := rfl
@[simp] theorem respond_tpl (r : Response) (s : State) : (respond r s).tpl = s.tpl := rfl
@[simp] theorem respond_win (r : Response) (s : State) : (respond r s).win = s.win := rfl
@[simp] theorem respond_sink (r : Response) (s : State) : (respond r s).sink = s.sink := rfl
@[simp] theorem respond_din (r : Response) (s : State) : (respond r s).din = s.din := rfl
@[simp] theorem respond_out (r : Response) (s : State) : (respond r s).out = s.out := rfl
@[simp] theorem respond_dwin (r : Response) (s : State) : (respond r s).dwin = s.dwin := rfl
@[simp] theorem respond_dict (r : Response) (s : State) : (respond r s).dict = s.dict := rfl
@[simp] theorem respond_settings (r : Response) (s : State) : (respond r s).settings = s.settings := rfl
@[simp] theorem respond_dictId (r : Response) (s : State) : (respond r s).dictId = s.dictId := rfl
@[simp] theorem respond_csizeLo (r : Response) (s : State) : (respond r s).csizeLo = s.csizeLo := rfl
@[simp] theorem respond_csizeHi (r : Response) (s : State) : (respond r s).csizeHi = s.csizeHi := rfl
@[simp] theorem respond_fe (r : Response) (s : State) : (respond r s).fe = s.fe := rfl
@[simp] theorem respond_fd (r : Response) (s : State) : (respond r s).fd = s.fd := rfl
@[simp] theorem respond_hdr (r : Response) (s : State) : (respond r s).hdr = s.hdr := rfl
@[simp] theorem respond_rpos (r : Response) (s : State) : (respond r s).rpos = s.rpos := rfl
@[simp] theorem respond_cfg (r : Response) (s : State) : (respond r s).cfg = s.cfg := rfl
@[simp] theorem respond_host_inbox (r : Response) (s : State) : (respond r s).host.inbox = s.host.inbox := rfl
@[simp] theorem respond_host_src (r : Response) (s : State) : (respond r s).host.src = s.host.src := rfl
@[simp] theorem respond_host_snk (r : Response) (s : State) : (respond r s).host.snk = s.host.snk := rfl
@[simp] theorem respond_host_draws (r : Response) (s : State) : (respond r s).host.draws = s.host.draws := rfl
@[simp] theorem respond_host_resp (r : Response) (s : State) : (respond r s).host.resp = s.host.resp ++ [r] := rfl

@[simp] theorem feedSrc_t (b : List Byte) (s : State) : (feedSrc b s).t = s.t := rfl
@[simp] theorem feedSrc_tpl (b : List Byte) (s : State) : (feedSrc b s).tpl = s.tpl := rfl
@[simp] theorem feedSrc_win (b : List Byte) (s : State) : (feedSrc b s).win = s.win := rfl
@[simp] theorem feedSrc_sink (b : List Byte) (s : State) : (feedSrc b s).sink = s.sink := rfl
@[simp] theorem feedSrc_din (b : List Byte) (s : State) : (feedSrc b s).din = s.din := rfl
@[simp] theorem feedSrc_out (b : List Byte) (s : State) : (feedSrc b s).out = s.out := rfl
@[simp] theorem feedSrc_dwin (b : List Byte) (s : State) : (feedSrc b s).dwin = s.dwin := rfl
@[simp] theorem feedSrc_dict (b : List Byte) (s : State) : (feedSrc b s).dict = s.dict := rfl
@[simp] theorem feedSrc_settings (b : List Byte) (s : State) : (feedSrc b s).settings = s.settings := rfl
@[simp] theorem feedSrc_dictId (b : List Byte) (s : State) : (feedSrc b s).dictId = s.dictId := rfl
@[simp] theorem feedSrc_csizeLo (b : List Byte) (s : State) : (feedSrc b s).csizeLo = s.csizeLo := rfl
@[simp] theorem feedSrc_csizeHi (b : List Byte) (s : State) : (feedSrc b s).csizeHi = s.csizeHi := rfl
@[simp] theorem feedSrc_fe (b : List Byte) (s : State) : (feedSrc b s).fe = s.fe := rfl
@[simp] theorem feedSrc_fd (b : List Byte) (s : State) : (feedSrc b s).fd = s.fd := rfl
@[simp] theorem feedSrc_hdr (b : List Byte) (s : State) : (feedSrc b s).hdr = s.hdr := rfl
@[simp] theorem feedSrc_rpos (b : List Byte) (s : State) : (feedSrc b s).rpos = s.rpos := rfl
@[simp] theorem feedSrc_cfg (b : List Byte) (s : State) : (feedSrc b s).cfg = s.cfg := rfl
@[simp] theorem feedSrc_host_inbox (b : List Byte) (s : State) : (feedSrc b s).host.inbox = s.host.inbox := rfl
@[simp] theorem feedSrc_host_src (b : List Byte) (s : State) : (feedSrc b s).host.src = s.host.src ++ b := rfl
@[simp] theorem feedSrc_host_snk (b : List Byte) (s : State) : (feedSrc b s).host.snk = s.host.snk := rfl
@[simp] theorem feedSrc_host_draws (b : List Byte) (s : State) : (feedSrc b s).host.draws = s.host.draws := rfl
@[simp] theorem feedSrc_host_resp (b : List Byte) (s : State) : (feedSrc b s).host.resp = s.host.resp := rfl

@[simp] theorem withInbox_t (l : List HostItem) (s : State) : (withInbox l s).t = s.t := rfl
@[simp] theorem withInbox_tpl (l : List HostItem) (s : State) : (withInbox l s).tpl = s.tpl := rfl
@[simp] theorem withInbox_win (l : List HostItem) (s : State) : (withInbox l s).win = s.win := rfl
@[simp] theorem withInbox_sink (l : List HostItem) (s : State) : (withInbox l s).sink = s.sink := rfl
@[simp] theorem withInbox_din (l : List HostItem) (s : State) : (withInbox l s).din = s.din := rfl
@[simp] theorem withInbox_out (l : List HostItem) (s : State) : (withInbox l s).out = s.out := rfl
@[simp] theorem withInbox_dwin (l : List HostItem) (s : State) : (withInbox l s).dwin = s.dwin := rfl
@[simp] theorem withInbox_dict (l : List HostItem) (s : State) : (withInbox l s).dict = s.dict := rfl
@[simp] theorem withInbox_settings (l : List HostItem) (s : State) : (withInbox l s).settings = s.settings := rfl
@[simp] theorem withInbox_dictId (l : List HostItem) (s : State) : (withInbox l s).dictId = s.dictId := rfl
@[simp] theorem withInbox_csizeLo (l : List HostItem) (s : State) : (withInbox l s).csizeLo = s.csizeLo := rfl
@[simp] theorem withInbox_csizeHi (l : List HostItem) (s : State) : (withInbox l s).csizeHi = s.csizeHi := rfl
@[simp] theorem withInbox_fe (l : List HostItem) (s : State) : (withInbox l s).fe = s.fe := rfl
@[simp] theorem withInbox_fd (l : List HostItem) (s : State) : (withInbox l s).fd = s.fd := rfl
@[simp] theorem withInbox_hdr (l : List HostItem) (s : State) : (withInbox l s).hdr = s.hdr := rfl
@[simp] theorem withInbox_rpos (l : List HostItem) (s : State) : (withInbox l s).rpos = s.rpos := rfl
@[simp] theorem withInbox_cfg (l : List HostItem) (s : State) : (withInbox l s).cfg = s.cfg := rfl
@[simp] theorem withInbox_host_inbox (l : List HostItem) (s : State) : (withInbox l s).host.inbox = l := rfl
@[simp] theorem withInbox_host_src (l : List HostItem) (s : State) : (withInbox l s).host.src = s.host.src := rfl
@[simp] theorem withInbox_host_snk (l : List HostItem) (s : State) : (withInbox l s).host.snk = s.host.snk := rfl
@[simp] theorem withInbox_host_draws (l : List HostItem) (s : State) : (withInbox l s).host.draws = s.host.draws := rfl
@[simp] theorem withInbox_host_resp (l : List HostItem) (s : State) : (withInbox l s).host.resp = s.host.resp := rfl

@[simp] theorem transferred_t (k : Nat) (a b : List Byte) (s : State) : (transferred k a b s).t = s.t := rfl
@[simp] theorem transferred_tpl (k : Nat) (a b : List Byte) (s : State) : (transferred k a b s).tpl = s.tpl := rfl
@[simp] theorem transferred_win (k : Nat) (a b : List Byte) (s : State) : (transferred k a b s).win = s.win := rfl
@[simp] theorem transferred_sink (k : Nat) (a b : List Byte) (s : State) : (transferred k a b s).sink = s.sink := rfl
@[simp] theorem transferred_din (k : Nat) (a b : List Byte) (s : State) : (transferred k a b s).din = s.din := rfl
@[simp] theorem transferred_out (k : Nat) (a b : List Byte) (s : State) : (transferred k a b s).out = s.out := rfl
@[simp] theorem transferred_dwin (k : Nat) (a b : List Byte) (s : State) : (transferred k a b s).dwin = s.dwin := rfl
@[simp] theorem transferred_dict (k : Nat) (a b : List Byte) (s : State) : (transferred k a b s).dict = s.dict := rfl
@[simp] theorem transferred_settings (k : Nat) (a b : List Byte) (s : State) : (transferred k a b s).settings = s.settings := rfl
@[simp] theorem transferred_dictId (k : Nat) (a b : List Byte) (s : State) : (transferred k a b s).dictId = s.dictId := rfl
@[simp] theorem transferred_csizeLo (k : Nat) (a b : List Byte) (s : State) : (transferred k a b s).csizeLo = s.csizeLo := rfl
@[simp] theorem transferred_csizeHi (k : Nat) (a b : List Byte) (s : State) : (transferred k a b s).csizeHi = s.csizeHi := rfl
@[simp] theorem transferred_fe (k : Nat) (a b : List Byte) (s : State) : (transferred k a b s).fe = s.fe := rfl
@[simp] theorem transferred_fd (k : Nat) (a b : List Byte) (s : State) : (transferred k a b s).fd = s.fd := rfl
@[simp] theorem transferred_hdr (k : Nat) (a b : List Byte) (s : State) : (transferred k a b s).hdr = s.hdr := rfl
@[simp] theorem transferred_rpos (k : Nat) (a b : List Byte) (s : State) : (transferred k a b s).rpos = s.rpos := rfl
@[simp] theorem transferred_cfg (k : Nat) (a b : List Byte) (s : State) : (transferred k a b s).cfg = s.cfg := rfl
@[simp] theorem transferred_host_inbox (k : Nat) (a b : List Byte) (s : State) : (transferred k a b s).host.inbox = s.host.inbox := rfl
@[simp] theorem transferred_host_src (k : Nat) (a b : List Byte) (s : State) : (transferred k a b s).host.src = a := rfl
@[simp] theorem transferred_host_snk (k : Nat) (a b : List Byte) (s : State) : (transferred k a b s).host.snk = s.host.snk ++ b := rfl
@[simp] theorem transferred_host_draws (k : Nat) (a b : List Byte) (s : State) : (transferred k a b s).host.draws = s.host.draws.drop k := rfl
@[simp] theorem transferred_host_resp (k : Nat) (a b : List Byte) (s : State) : (transferred k a b s).host.resp = s.host.resp := rfl

@[simp] theorem resetDevice_t (s : State) : (resetDevice s).t = State.reset.t := rfl
@[simp] theorem resetDevice_tpl (s : State) : (resetDevice s).tpl = State.reset.tpl := rfl
@[simp] theorem resetDevice_win (s : State) : (resetDevice s).win = State.reset.win := rfl
@[simp] theorem resetDevice_sink (s : State) : (resetDevice s).sink = State.reset.sink := rfl
@[simp] theorem resetDevice_din (s : State) : (resetDevice s).din = State.reset.din := rfl
@[simp] theorem resetDevice_out (s : State) : (resetDevice s).out = State.reset.out := rfl
@[simp] theorem resetDevice_dwin (s : State) : (resetDevice s).dwin = State.reset.dwin := rfl
@[simp] theorem resetDevice_dict (s : State) : (resetDevice s).dict = State.reset.dict := rfl
@[simp] theorem resetDevice_settings (s : State) : (resetDevice s).settings = State.reset.settings := rfl
@[simp] theorem resetDevice_dictId (s : State) : (resetDevice s).dictId = State.reset.dictId := rfl
@[simp] theorem resetDevice_csizeLo (s : State) : (resetDevice s).csizeLo = State.reset.csizeLo := rfl
@[simp] theorem resetDevice_csizeHi (s : State) : (resetDevice s).csizeHi = State.reset.csizeHi := rfl
@[simp] theorem resetDevice_fe (s : State) : (resetDevice s).fe = State.reset.fe := rfl
@[simp] theorem resetDevice_fd (s : State) : (resetDevice s).fd = State.reset.fd := rfl
@[simp] theorem resetDevice_hdr (s : State) : (resetDevice s).hdr = State.reset.hdr := rfl
@[simp] theorem resetDevice_rpos (s : State) : (resetDevice s).rpos = State.reset.rpos := rfl
@[simp] theorem resetDevice_cfg (s : State) : (resetDevice s).cfg = s.cfg := rfl
@[simp] theorem resetDevice_host (s : State) : (resetDevice s).host = s.host := rfl

/-- A response is appended: two states answered alike are the same state. -/
theorem respond_injective {r r' : Response} {s s' : State} (h : respond r s = respond r' s') : r = r' ∧ s = s' := by
  obtain ⟨_, _, _, _, _, _, _, _, _, _, _, _, _, _, _, _, ⟨_, _, _, _, _⟩, _⟩ := s
  obtain ⟨_, _, _, _, _, _, _, _, _, _, _, _, _, _, _, _, ⟨_, _, _, _, _⟩, _⟩ := s'
  simp_all [respond]

end Sys2Proof.Machine
end

