-- ==== Sys2Proof/Laws/Ports.lean ====
section
/-! SUPPORT. The port primitives (R56, R57, R58): what each answers when its draw succeeds, when it fails, and in every case. -/

namespace Sys2Proof.Machine

@[simp] theorem bind_done {α β : Type} (a : α) (s : State) (f : α → State → Run β) : (Run.done a s).bind f = f a s := rfl

@[simp] theorem bind_raised {α β : Type} (k : ErrKind) (u : Option SubCause) (s : State) (f : α → State → Run β) :
    (Run.raised k u s : Run α).bind f = .raised k u s := rfl

/-- A run of two pieces that ends with a value ran both to a value. -/
theorem bind_eq_done {α β : Type} {r : Run α} {f : α → State → Run β} {b : β} {t : State} (h : r.bind f = .done b t) :
    ∃ a s, r = .done a s ∧ f a s = .done b t := by
  cases r with
  | done a s => exact ⟨a, s, rfl, h⟩
  | raised k u s => cases h

/-- A draw that is at the front, or none, succeeds and is taken. -/
theorem takeDraw_ok {s : State} (h : drawsOk 1 s = true) :
    takeDraw s = (.ok, transferred 1 s.host.src [] s) := by
  obtain ⟨_, _, _, _, _, _, _, _, _, _, _, _, _, _, _, _, ⟨_, _, _, draws, _⟩, _⟩ := s
  cases draws with
  | nil => simp [takeDraw, transferred]
  | cons d ds => simp_all [drawsOk, takeDraw, transferred]

theorem takeDraw_fail {s : State} {k : Nat} {ds : List IoDraw} (h : s.host.draws = .fail k :: ds) :
    takeDraw s = (.fail k, { s with host := { s.host with draws := ds } }) := by
  simp [takeDraw, h]

/-- After `j` transfers the draws left are as good as before. -/
theorem drawsOk_transferred {s : State} {j k : Nat} {a b : List Byte} (h : drawsOk (j + k) s = true) :
    drawsOk k (transferred j a b s) = true := by
  simp only [drawsOk, List.all_eq_true] at h ⊢
  intro d hd
  apply h d
  rw [List.take_add]
  exact List.mem_append_right _ (by simpa using hd)

theorem drawsOk_mono {s : State} {j k : Nat} (hjk : j ≤ k) (h : drawsOk k s = true) : drawsOk j s = true := by
  simp only [drawsOk, List.all_eq_true] at h ⊢
  exact fun d hd => h d ((List.take_subset_take_left _ hjk) hd)

@[simp] theorem drawsOk_zero (s : State) : drawsOk 0 s = true := by simp [drawsOk]

theorem drawsOk_of_all {s : State} (k : Nat) (h : allDrawsOk s = true) : drawsOk k s = true := by
  simp only [allDrawsOk, drawsOk, List.all_eq_true] at h ⊢
  exact fun d hd => h d (List.mem_of_mem_take hd)

theorem allDrawsOk_transferred {s : State} {j : Nat} {a b : List Byte} (h : allDrawsOk s = true) :
    allDrawsOk (transferred j a b s) = true := by
  simp only [allDrawsOk, List.all_eq_true] at h ⊢
  exact fun d hd => h d (List.mem_of_mem_drop hd)

/-- Transfers one after the other are one transfer. -/
@[simp] theorem transferred_transferred (j k : Nat) (a a' b b' : List Byte) (s : State) :
    transferred k a' b' (transferred j a b s) = transferred (j + k) a' (b ++ b') s := by
  simp [transferred, List.drop_drop, List.append_assoc]

/-- SrcRead of the bytes in front. -/
theorem srcRead_ok {s : State} {n : Nat} {v rest : List Byte} (hd : drawsOk 1 s = true) (hs : s.host.src = v ++ rest)
    (hv : v.length = n) : srcRead n s = .done v (transferred 1 rest [] s) := by
  subst hv
  simp [srcRead, takeDraw_ok hd, hs, transferred]

/-- SrcRead of more than SRC holds. -/
theorem srcRead_short {s : State} {n : Nat} (hd : drawsOk 1 s = true) (hs : s.host.src.length < n) :
    srcRead n s = .raised .ioFailure none (transferred 1 [] [] s) := by
  have : ¬ n ≤ s.host.src.length := by omega
  simp [srcRead, takeDraw_ok hd, this, transferred]

theorem srcRead_fail {s : State} {n k : Nat} {ds : List IoDraw} (h : s.host.draws = .fail k :: ds) :
    srcRead n s = .raised .ioFailure none { s with host := { s.host with draws := ds } } := by
  simp [srcRead, takeDraw_fail h]

theorem srcReadUpTo_ok {s : State} (n : Nat) (hd : drawsOk 1 s = true) :
    srcReadUpTo n s = .done (s.host.src.take n) (transferred 1 (s.host.src.drop n) [] s) := by
  simp [srcReadUpTo, takeDraw_ok hd, transferred]

theorem srcReadUpTo_fail {s : State} {n k : Nat} {ds : List IoDraw} (h : s.host.draws = .fail k :: ds) :
    srcReadUpTo n s = .raised .ioFailure none { s with host := { s.host with draws := ds } } := by
  simp [srcReadUpTo, takeDraw_fail h]

theorem snkWrite_ok {s : State} (v : List Byte) (hd : drawsOk 1 s = true) :
    snkWrite v s = .done () (transferred 1 s.host.src v s) := by
  simp [snkWrite, takeDraw_ok hd, transferred]

theorem snkWrite_fail {s : State} {v : List Byte} {k : Nat} {ds : List IoDraw} (h : s.host.draws = .fail k :: ds) :
    snkWrite v s =
      .raised .ioFailure none { s with host := { s.host with draws := ds, snk := s.host.snk ++ v.take k } } := by
  simp [snkWrite, takeDraw_fail h]

/-- The two states `s` and `t` differ at most in the ports: SRC, SNK and the draws, with SNK grown and the draws taken from the
front. -/
def PortsOnly (s t : State) : Prop :=
  ∃ src snk draws, t = { s with host := { s.host with src := src, snk := s.host.snk ++ snk, draws := draws } } ∧
    draws <:+ s.host.draws ∧ src <:+ s.host.src

/-- Everything a draw can do. -/
theorem takeDraw_portsOnly (s : State) : PortsOnly s (takeDraw s).2 := by
  obtain ⟨_, _, _, _, _, _, _, _, _, _, _, _, _, _, _, _, ⟨_, src, _, draws, _⟩, _⟩ := s
  cases draws with
  | nil => exact ⟨src, [], [], by simp [takeDraw], List.suffix_rfl, List.suffix_rfl⟩
  | cons d ds => exact ⟨src, [], ds, by simp [takeDraw], by simp, List.suffix_rfl⟩

/-- Everything SrcRead can do: a value of `n` bytes or IoFailure, and only the ports change. -/
theorem srcRead_cases (n : Nat) (s : State) :
    (∃ v t, srcRead n s = .done v t ∧ PortsOnly s t ∧ v.length = n ∧ s.host.src = v ++ t.host.src) ∨
    (∃ t, srcRead n s = .raised .ioFailure none t ∧ PortsOnly s t) := by
  obtain ⟨src, snk, draws, ht, hd, hs⟩ := takeDraw_portsOnly s
  cases h : takeDraw s with
  | mk d s1 =>
    rw [h] at ht
    have hsrc : s1.host.src = s.host.src := by
      revert h
      cases hdr : s.host.draws <;> simp only [takeDraw, hdr] <;> rintro ⟨⟩ <;> rfl
    simp only at ht
    cases d with
    | fail k => exact .inr ⟨s1, by simp [srcRead, h], src, snk, draws, ht, hd, hs⟩
    | ok =>
      by_cases hn : n ≤ s1.host.src.length
      · refine .inl ⟨_, _, by simp [srcRead, h, hn]; exact ⟨rfl, rfl⟩, ⟨s.host.src.drop n, snk, draws, ?_, hd, List.drop_suffix ..⟩, ?_, ?_⟩
        · rw [hsrc, ht]
        · simp [hn]
        · simp [hsrc]
      · refine .inr ⟨_, by simp [srcRead, h, hn]; rfl, [], snk, draws, ?_, hd, List.nil_suffix⟩
        rw [ht]

/-- Everything SrcReadUpTo can do. -/
theorem srcReadUpTo_cases (n : Nat) (s : State) :
    (∃ t, srcReadUpTo n s = .done (s.host.src.take n) t ∧ PortsOnly s t ∧ t.host.src = s.host.src.drop n) ∨
    (∃ t, srcReadUpTo n s = .raised .ioFailure none t ∧ PortsOnly s t) := by
  cases hdr : s.host.draws with
  | nil =>
    refine .inl ⟨{ s with host := { s.host with src := s.host.src.drop n } }, by simp [srcReadUpTo, takeDraw, hdr],
      ⟨s.host.src.drop n, [], s.host.draws, by simp, List.suffix_rfl, List.drop_suffix ..⟩, rfl⟩
  | cons d ds =>
    cases d with
    | ok =>
      refine .inl ⟨_, by simp [srcReadUpTo, takeDraw, hdr]; rfl, ⟨s.host.src.drop n, [], ds, ?_, by simp [hdr], List.drop_suffix ..⟩, rfl⟩
      simp
    | fail k => exact .inr ⟨_, srcReadUpTo_fail hdr, s.host.src, [], ds, by simp, by simp [hdr], List.suffix_rfl⟩

theorem failsAfter_zero {k : Nat} {ds : List IoDraw} {s : State} : FailsAfter 0 k ds s ↔ s.host.draws = .fail k :: ds := by
  simp [FailsAfter]

/-- The transfers before the failing one succeed. -/
theorem FailsAfter.drawsOk {n j k : Nat} {ds : List IoDraw} {s : State} (h : FailsAfter n k ds s) (hj : j ≤ n) :
    drawsOk j s = true := drawsOk_mono hj h.1

theorem FailsAfter.transferred {j n k : Nat} {ds : List IoDraw} {a b : List Byte} {s : State} (h : FailsAfter (j + n) k ds s) :
    FailsAfter n k ds (transferred j a b s) := by
  refine ⟨drawsOk_transferred h.1, ?_⟩
  rw [transferred_host_draws, List.drop_drop]
  exact h.2

theorem ReadFails.drawsOk {n j len : Nat} {tail : List Byte} {s : State} {h : HostSide} (hr : ReadFails n len tail s h)
    (hj : j ≤ n) : drawsOk j s = true := by
  obtain ⟨k, ds, hf, -⟩ | ⟨hd, -, -⟩ := hr
  · exact hf.drawsOk hj
  · exact drawsOk_mono (by omega) hd

/-- The read that ReadFails speaks of, when it is the next transfer. -/
theorem ReadFails.srcRead {len : Nat} {s : State} {h : HostSide} (hr : ReadFails 0 len s.host.src s h) :
    srcRead len s = .raised .ioFailure none { s with host := h } := by
  obtain ⟨k, ds, hf, rfl⟩ | ⟨hd, hl, rfl⟩ := hr
  · rw [srcRead_fail (failsAfter_zero.1 hf)]
  · rw [srcRead_short hd hl]
    simp [Machine.transferred]

theorem ReadFails.transferred {j n len : Nat} {a tail : List Byte} {s : State} {h : HostSide}
    (hr : ReadFails (j + n) len tail s h) : ReadFails n len tail (transferred j a [] s) h := by
  obtain ⟨k, ds, hf, rfl⟩ | ⟨hd, hl, rfl⟩ := hr
  · exact .inl ⟨k, ds, hf.transferred, by simp [Machine.transferred]⟩
  · refine .inr ⟨drawsOk_transferred hd, hl, ?_⟩
    simp [Machine.transferred, Nat.add_assoc]

/-- Two lists of commands after each other. -/
theorem okAfter_append {l l' : List Instr} {s t : State} :
    OkAfter (l ++ l') s t ↔ ∃ u, OkAfter l s u ∧ OkAfter l' u t := by
  induction l generalizing s with
  | nil => simp [OkAfter]
  | cons i l ih =>
    simp only [List.cons_append, OkAfter, ih]
    constructor
    · rintro ⟨v, u, h, w, h1, h2⟩; exact ⟨w, ⟨v, u, h, h1⟩, h2⟩
    · rintro ⟨w, ⟨v, u, h, h1⟩, h2⟩; exact ⟨v, u, h, w, h1, h2⟩

/-- Everything SnkWrite can do. -/
theorem snkWrite_cases (v : List Byte) (s : State) :
    (∃ t, snkWrite v s = .done () t ∧ PortsOnly s t) ∨ (∃ t, snkWrite v s = .raised .ioFailure none t ∧ PortsOnly s t) := by
  cases hdr : s.host.draws with
  | nil =>
    exact .inl ⟨{ s with host := { s.host with snk := s.host.snk ++ v } }, by simp [snkWrite, takeDraw, hdr], s.host.src, v, s.host.draws, by simp, List.suffix_rfl, List.suffix_rfl⟩
  | cons d ds =>
    cases d with
    | ok => exact .inl ⟨_, by simp [snkWrite, takeDraw, hdr]; rfl, s.host.src, v, ds, by simp, by simp [hdr], List.suffix_rfl⟩
    | fail k => exact .inr ⟨_, snkWrite_fail hdr, s.host.src, v.take k, ds, by simp, by simp [hdr], List.suffix_rfl⟩

theorem PortsOnly.refl (s : State) : PortsOnly s s :=
  ⟨s.host.src, [], s.host.draws, by simp, List.suffix_rfl, List.suffix_rfl⟩

theorem PortsOnly.trans {s t u : State} (h : PortsOnly s t) (g : PortsOnly t u) : PortsOnly s u := by
  obtain ⟨a, b, c, rfl, h1, h2⟩ := h
  obtain ⟨a', b', c', rfl, g1, g2⟩ := g
  exact ⟨a', b ++ b', c', by simp, g1.trans h1, g2.trans h2⟩

end Sys2Proof.Machine
end

