-- ==== Sys2Proof/Tests/Slice0.lean ====
section
/-! SUPPORT. Small tests, each with its expected result from spec/ (95_test_vectors.md unless said), and for each obligation with
hypotheses a state and operands that meet them all. -/

namespace Sys2Proof.Tests

open Sys2Proof Sys2Proof.Machine

/-! ### Helpers -/

/-- The outcome is a next state with the property. -/
def holdsAfter (o : Host.Outcome State Fault Refusal) (p : State → Bool) : Bool :=
  match o with
  | .next s => p s
  | .fault _ => false
  | .refused _ => false

/-- The last response is (status, value). -/
def answered (status value : Nat) (s : State) : Bool :=
  s.host.resp.getLast? == some ⟨BitVec.ofNat 8 status, BitVec.ofNat 32 value⟩

def bytes (l : List Nat) : List Byte := l.map (BitVec.ofNat 8)

def reset : State := State.reset

/-- Reset, with bytes on SRC. -/
def withSrc (l : List Nat) : State := { reset with host := { HostSide.reset with src := bytes l } }

/-- Reset, with the next draw failing after `k` bytes. -/
def failing (k : Nat) : State := { reset with host := { HostSide.reset with draws := [.fail k] } }

/-- "0123456789abcdef". -/
def dict16 : List Byte :=
  bytes [0x30, 0x31, 0x32, 0x33, 0x34, 0x35, 0x36, 0x37, 0x38, 0x39, 0x61, 0x62, 0x63, 0x64, 0x65, 0x66]

/-- "a" × n. -/
def as (n : Nat) : List Byte := List.replicate n 0x61

/-- The code of vector E5 to E8 and X3: one literal "a", a match of `m` + 4, five literals. -/
def codeA (tok : Nat) : List Nat := [tok, 0x61, 0x01, 0x00, 0x50, 0x61, 0x61, 0x61, 0x61, 0x61]

/-- Header of vector F1 (reset settings), and of SETTINGS 0x19. -/
def header1D : List Nat := [0x04, 0x22, 0x4D, 0x18, 0x64, 0x70, 0xBB]
def header19 : List Nat := [0x04, 0x22, 0x4D, 0x18, 0x60, 0x70, 0x78]

/-- An open frame of the encoder, with given settings. -/
def encoding (set : BitVec 6) (ch : Option Hasher) : State :=
  { reset with fe := { state := .headerWritten, err := none, dlen := 0, ch := ch, set := set } }

/-- An open frame of the decoder in the 64 KiB class. -/
def decoding (bck : Bool) (ch : Option Hasher) : State :=
  { reset with
    fd := { state := .blocks, err := none, sub := none, ind := true, bck := bck, cck := ch.isSome, bmax := 65536, ch := ch } }

/-- `s` with `l` on SRC and the draws `d` to come. -/
def portsOf (l : List Nat) (d : List IoDraw) (s : State) : State :=
  { s with host := { s.host with src := bytes l, draws := d } }

def srcOf (l : List Nat) (s : State) : State := { s with host := { s.host with src := bytes l } }

/-! ### Well-formed instructions, and one ill-formed term for each check -/

theorem test_wellFormed :
    (Instr.wireLengthExtLast 254).wellFormed = true ∧ (Instr.wireLengthExtLast 255).wellFormed = false ∧
    (Instr.wireOffset 1).wellFormed = true ∧ (Instr.wireOffset 0).wellFormed = false ∧
    (Instr.wireBlockLength true 0).wellFormed = true ∧ (Instr.wireBlockLength false 0).wellFormed = false ∧
    (Instr.mtSeed 0 0 0).wellFormed = true := by decide

/-! ### Decoding: words and bytes written out from R70, R72 and R80 to R94 -/

theorem test_decode_system :
    decodeCommand [0x01000000] = .cmd .sysReset 1 ∧ decodeCommand [0x02000012] = .cmd (.csrRd 0x12) 1 ∧
    decodeCommand [0x03000001, 7] = .cmd (.csrWr 1 7) 2 := by decide

theorem test_decode_buffers :
    decodeCommand [0x10000000, 0x10] = .cmd (.dictLoad 0x10) 2 ∧ decodeCommand [0x11000000] = .cmd .dictClear 1 ∧
    decodeCommand [0x12000000] = .cmd .winClear 1 ∧ decodeCommand [0x13000000, 0x11] = .cmd (.winAppend 0x11) 2 ∧
    decodeCommand [0x14000000, 3] = .cmd (.winDrop 3) 2 ∧ decodeCommand [0x15000000, 9] = .cmd (.dinLoad 9) 2 ∧
    decodeCommand [0x16000000] = .cmd .sinkFlush 1 ∧ decodeCommand [0x17000000] = .cmd .outFlush 1 ∧
    decodeCommand [0x18000000] = .cmd .dwinClear 1 ∧ decodeCommand [0x19000000] = .cmd .dwinPush 1 ∧
    decodeCommand [0x1A000000] = .cmd .dwinDict 1 := by decide

theorem test_decode_table :
    decodeCommand [0x20000000] = .cmd .mtReset 1 ∧ decodeCommand [0x21000000, 0x64636261] = .cmd (.mtHash 0x64636261) 2 ∧
    decodeCommand [0x22000630] = .cmd (.mtLookup 0x630) 1 ∧ decodeCommand [0x23000630, 0x64] = .cmd (.mtInsert 0x630 100) 2 ∧
    decodeCommand [0x24000000, 8] = .cmd (.mtShift 8) 2 ∧ decodeCommand [0x25000003, 0, 0x10] = .cmd (.mtSeed 3 0 16) 3 ∧
    decodeCommand [0x26000000] = .cmd .mtSave 1 ∧ decodeCommand [0x27000000] = .cmd .mtReseed 1 := by decide

theorem test_decode_units :
    decodeCommand [0x30000000, 0x10] = .cmd (.encBlock 16) 2 ∧ decodeCommand [0x31000002] = .cmd (.decBlock 2) 1 ∧
    decodeCommand [0x40000001] = .cmd (.feStart 1) 1 ∧ decodeCommand [0x41000000] = .cmd .feBlock 1 ∧
    decodeCommand [0x42000000] = .cmd .feFinish 1 ∧ decodeCommand [0x43000002] = .cmd (.feRun 2) 1 ∧
    decodeCommand [0x50000000] = .cmd .fdOpen 1 ∧ decodeCommand [0x51000000] = .cmd .fdBlock 1 ∧
    decodeCommand [0x52000000] = .cmd .fdAll 1 ∧ decodeCommand [0x53000000] = .cmd .rdFill 1 ∧
    decodeCommand [0x54000000, 0x0C] = .cmd (.rdConsume 12) 2 := by decide

/-- Y10, Y11, Y12: an unknown opcode, a non-zero A in F0 and in F2; a command whose second word is missing. -/
theorem test_decode_illegal :
    decodeCommand [0x99000000] = .illegal .unknownOpcode 1 ∧ decodeCommand [0x01000001] = .illegal .nonzeroA 1 ∧
    decodeCommand [0x13000005, 3] = .illegal .nonzeroA 2 ∧ decodeCommand [0x13000000] = .more := by decide

theorem test_decode_wire :
    decodeWire Config.default .token [0x1F] = .ok (.wireToken 1 15) ∧
    decodeWire Config.default .lengthExt [0xFF] = .ok .wireLengthExtMore ∧
    decodeWire Config.default .lengthExt [0xFE] = .ok (.wireLengthExtLast 0xFE) ∧
    decodeWire Config.default .offset [0x0C, 0x01] = .ok (.wireOffset 0x010C) ∧
    decodeWire Config.default .offset [0x00, 0x00] = .error .zeroOffset ∧
    decodeWire Config.default .magic [0x04, 0x22, 0x4D, 0x18] = .ok .wireMagic ∧
    decodeWire Config.default .magic [0x05, 0x22, 0x4D, 0x18] = .error .wrongMagic ∧
    decodeWire Config.default .token [] = .error .wrongSize := by decide

/-- FLG 0x5D is dependent, BCK, CSZ, CCK, DID; 0x66 sets the reserved bit; 0xA4 has version 10 (H2, H3). -/
theorem test_decode_header :
    decodeWire Config.default .flg [0x5D] = .ok (.wireFlg false true true true true) ∧
    decodeWire Config.default .flg [0x66] = .error .reservedFlg ∧
    decodeWire Config.default .flg [0xA4] = .error .reservedFlg ∧
    decodeWire Config.default .bd [0x40] = .ok .wireBd64K ∧ decodeWire Config.default .bd [0x50] = .ok .wireBd256K ∧
    decodeWire Config.default .bd [0x60] = .ok .wireBd1M ∧ decodeWire Config.default .bd [0x70] = .ok .wireBd4M ∧
    decodeWire Config.default .bd [0x30] = .error .unknownBd ∧ decodeWire Config.default .bd [0x71] = .error .unknownBd ∧
    decodeWire Config.default .headerChecksum [0xBB] = .ok (.wireHeaderChecksum 0xBB) := by decide

/-- The length words of F4 and F3, the end mark and the empty stored block (K14); the checksums of F5 and F3. -/
theorem test_decode_block_words :
    decodeWire Config.default .blockLength [0x05, 0, 0, 0x80] = .ok (.wireBlockLength true 5) ∧
    decodeWire Config.default .blockLength [0x0A, 0, 0, 0] = .ok (.wireBlockLength false 10) ∧
    decodeWire Config.default .blockLength [0, 0, 0, 0] = .ok .wireEndMark ∧
    decodeWire Config.default .blockLength [0, 0, 0, 0x80] = .ok (.wireBlockLength true 0) ∧
    decodeWire Config.default .blockChecksum [0x94, 0x0D, 0x54, 0xB4] = .ok (.wireBlockChecksum 0xB4540D94) ∧
    decodeWire Config.default .contentChecksum [0x04, 0x38, 0xB5, 0x31] = .ok (.wireContentChecksum 0x31B53804) := by
  decide

/-- The host's view of table rows, and the first step after reset with such a row. -/
theorem test_table_word :
    decodeTableWord 32 0x01000000 = some .sysReset ∧ decodeTableWord 96 0x25000000 = some (.mtSeed 0 0 0) ∧
    decodeTableWord 64 0x1100000003000000 = some (.csrWr 0 0x11000000) ∧
    decodeTableWord 8 0xFF = some .wireLengthExtMore ∧ decodeTableWord 32 0x184D2204 = some .wireMagic ∧
    decodeTableWord 16 0x0105 = some (.wireOffset 0x105) ∧ decodeTableWord 32 0x99000000 = none := by decide

theorem test_withFetchWord :
    holdsAfter (step (State.reset.withFetchWord 32 0x02000000)) (fun s => answered 0 0x1D s && s.host.inbox.isEmpty) = true ∧
    holdsAfter (step (State.reset.withFetchWord 16 0x0105)) (fun s => s.host.src == bytes [5, 1] && s.host.resp.isEmpty) =
      true := by decide

/-! ### One step of each command -/

/-- Y15. -/
theorem test_sysReset :
    holdsAfter (exec .sysReset { encoding 4 none with settings := 0, win := as 3 })
      (fun s => answered 0 0 s && s.settings == 0x1D#6 && s.fe == FeRec.reset && s.win.isEmpty) = true := by decide

/-- Y1, Y2. -/
theorem test_csrRd :
    holdsAfter (exec (.csrRd 0) reset) (answered 0 0x1D) = true ∧
    holdsAfter (exec (.csrRd 0x12) reset) (answered 0 0x0003180C) = true := by decide

/-- Z1: state 7, kind 2, sub 3; Y6. -/
theorem test_csrRd_status :
    holdsAfter (exec (.csrRd 5) { reset with
      fd := { FdRec.reset with state := .failed, err := some .rawCodecCorruption, sub := some .zeroOffset } })
      (answered 0 0x327) = true ∧
    holdsAfter (exec (.csrRd 0x13) reset) (answered 0xFF 0) = true := by decide

/-- Y4, Y5. -/
theorem test_csrWr :
    holdsAfter (exec (.csrWr 0 0xFFFFFFFF) reset) (fun s => answered 0 0 s && s.settings == 0x3F#6) = true ∧
    holdsAfter (exec (.csrWr 4 1) reset) (answered 0xFF 0) = true := by decide

/-- P2, step 6. -/
theorem test_dictLoad :
    holdsAfter (exec (.dictLoad 2) (withSrc [1, 2, 3]))
      (fun s => answered 0 2 s && s.dict == bytes [1, 2] && s.host.src == bytes [3]) = true := by decide

/-- R215. -/
theorem test_dictClear :
    holdsAfter (exec .dictClear { reset with dict := dict16 }) (fun s => answered 0 0 s && s.dict.isEmpty) = true := by
  decide

/-- R216. -/
theorem test_winClear :
    holdsAfter (exec .winClear { reset with win := dict16, t := [(1, 2)] })
      (fun s => answered 0 0 s && s.win.isEmpty && s.t == [(1, 2)]) = true := by decide

/-- P2, step 3; Y13. -/
theorem test_winAppend :
    holdsAfter (exec (.winAppend 2) { withSrc [8, 9] with win := bytes [7] })
      (fun s => answered 0 3 s && s.win == bytes [7, 8, 9]) = true ∧
    holdsAfter (exec (.winAppend 5) (withSrc [1, 2, 3]))
      (fun s => answered 0x11 0 s && s.win.isEmpty && s.host.src.isEmpty) = true := by decide

/-- R218. -/
theorem test_winDrop :
    holdsAfter (exec (.winDrop 1) { reset with win := bytes [7, 8, 9] }) (fun s => answered 0 2 s && s.win == bytes [8, 9]) =
      true := by decide

/-- P2, step 7. -/
theorem test_dinLoad :
    holdsAfter (exec (.dinLoad 2) { withSrc [1, 2, 3] with din := dict16 })
      (fun s => answered 0 2 s && s.din == bytes [1, 2]) = true := by decide

/-- P2, step 5. -/
theorem test_sinkFlush :
    holdsAfter (exec .sinkFlush { reset with sink := bytes [1, 2] })
      (fun s => answered 0 2 s && s.host.snk == bytes [1, 2] && s.sink == bytes [1, 2]) = true := by decide

/-- P3, step 10: a peek from RPOS on. -/
theorem test_outFlush :
    holdsAfter (exec .outFlush { reset with out := as 20, rpos := 8 })
      (fun s => answered 0 12 s && s.host.snk == as 12 && s.rpos == 8) = true := by decide

/-- R222. -/
theorem test_dwinClear :
    holdsAfter (exec .dwinClear { reset with dwin := dict16 }) (fun s => answered 0 0 s && s.dwin.isEmpty) = true := by
  decide

/-- R223. -/
theorem test_dwinPush :
    holdsAfter (exec .dwinPush { reset with dwin := bytes [1], out := bytes [2, 3], rpos := 2 })
      (fun s => answered 0 3 s && s.dwin == bytes [1, 2, 3]) = true := by decide

/-- R224. -/
theorem test_dwinDict :
    holdsAfter (exec .dwinDict { reset with dwin := bytes [1], dict := dict16 })
      (fun s => answered 0 16 s && s.dwin == dict16) = true := by decide

/-- M13. -/
theorem test_mtReset :
    holdsAfter (exec .mtReset { reset with t := [(1, 2)], tpl := [(3, 4)] }) (fun s => s.t.isEmpty && s.tpl == [(3, 4)]) =
      true := by decide

/-- The table of 95_test_vectors.md section 2; M14. -/
theorem test_mtHash :
    holdsAfter (exec (.mtHash 0x64636261) reset) (answered 0 0x630) = true ∧
    holdsAfter (exec (.mtHash 0xFFFFFFFF) reset) (answered 0 1564) = true := by decide

/-- M1, M4, M12. -/
theorem test_mtLookup :
    holdsAfter (exec (.mtLookup 0x630) reset) (answered 1 0) = true ∧
    holdsAfter (exec (.mtLookup 0) { reset with t := [(0, 0)] }) (answered 0 0) = true ∧
    holdsAfter (exec (.mtLookup 0x1000) reset) (answered 0xFF 0) = true := by decide

/-- M3: the last writer wins. -/
theorem test_mtInsert :
    holdsAfter (exec (.mtInsert 0x630 200) { reset with t := [(0x630, 100)] })
      (fun s => answered 0 0 s && s.t == [(0x630, 200)]) = true := by decide

/-- M5. -/
theorem test_mtShift :
    holdsAfter (exec (.mtShift 8) { reset with t := [(0, 0), (0x253, 7), (0x630, 100), (0x800, 8)] })
      (fun s => answered 0 0 s && s.t == [(0x630, 92), (0x800, 0)]) = true := by decide

/-- M8, M11. -/
theorem test_mtSeed :
    holdsAfter (exec (.mtSeed 3 0 12) { reset with
      win := bytes [0x61, 0x62, 0x63, 0x61, 0x62, 0x63, 0x61, 0x62, 0x63, 0x61, 0x62, 0x63] })
      (fun s => s.t == [(1280, 6)]) = true ∧
    holdsAfter (exec (.mtSeed 0 0 4) { reset with win := dict16 }) (answered 0xFF 0) = true := by decide

/-- M10. -/
theorem test_mtSeed_dictionary :
    holdsAfter (exec (.mtSeed 3 0 16) { reset with win := dict16 })
      (fun s => s.t == [(1155, 9), (1284, 0), (1302, 3), (1321, 6), (1597, 12)]) = true := by decide

/-- P1, step 8. -/
theorem test_mtSave :
    holdsAfter (exec .mtSave { reset with t := [(1, 2)] }) (fun s => s.tpl == [(1, 2)] && s.t == [(1, 2)]) = true := by
  decide

/-- P1, step 14. -/
theorem test_mtReseed :
    holdsAfter (exec .mtReseed { reset with tpl := [(1, 2)] }) (fun s => s.t == [(1, 2)]) = true := by decide

/-- E8 and the table after it. -/
theorem test_encBlock :
    holdsAfter (exec (.encBlock 0) { reset with win := as 20 })
      (fun s => answered 0 10 s && s.sink == bytes (codeA 0x1A) && s.t == [(595, 14)]) = true := by decide

/-- E22: a context, and backward extension. -/
theorem test_encBlock_context :
    holdsAfter (exec (.encBlock 16) { reset with
      t := [(1155, 9), (1284, 0), (1302, 3), (1321, 6), (1597, 12)]
      win := dict16 ++ dict16.drop 4 ++ bytes [0x58, 0x59, 0x5A, 0x21, 0x3F] })
      (fun s => answered 0 9 s && s.sink == bytes [0x08, 0x0C, 0x00, 0x50, 0x58, 0x59, 0x5A, 0x21, 0x3F]) = true := by
  decide

/-- X9: the match starts in the context. -/
theorem test_decBlock :
    holdsAfter (exec (.decBlock 2) { reset with dict := dict16, din := bytes [0x08, 0x0C, 0x00, 0x50, 0x58, 0x59, 0x5A, 0x21, 0x3F] })
      (fun s => answered 0 17 s && s.out == dict16.drop 4 ++ bytes [0x58, 0x59, 0x5A, 0x21, 0x3F]) = true := by decide

/-- X20, X22 (Z10: no error state). -/
theorem test_decBlock_errors :
    holdsAfter (exec (.decBlock 0) { reset with din := bytes [0x10, 0x61, 0, 0, 0], out := as 3 })
      (fun s => answered 0x12 3 s && s.out.isEmpty && s.fd == FdRec.reset) = true ∧
    holdsAfter (exec (.decBlock 0) { reset with din := bytes [0x08, 0x0C, 0x00, 0x50, 0x58, 0x59, 0x5A, 0x21, 0x3F] })
      (answered 0x12 4) = true := by decide

/-- The header of the reset settings, and the longest one of 95_test_vectors.md section 6. -/
theorem test_feStart :
    holdsAfter (exec (.feStart 0) reset) (fun s => answered 0 7 s && s.host.snk == bytes header1D) = true ∧
    holdsAfter (exec (.feStart 1) { reset with settings := 0x26, dictId := 7, csizeLo := 20 })
      (fun s => answered 0 19 s && s.host.snk ==
        bytes [0x04, 0x22, 0x4D, 0x18, 0x5D, 0x40, 0x14, 0, 0, 0, 0, 0, 0, 0, 7, 0, 0, 0, 0xF0]) = true := by decide

/-- Z7. -/
theorem test_feStart_failure :
    holdsAfter (exec (.feStart 0) (failing 3))
      (fun s => answered 0x11 0 s && feStatus s.fe == 0x17#32 && s.host.snk == bytes [0x04, 0x22, 0x4D]) = true := by
  decide

/-- P3, step 2; F4: a stored block. -/
theorem test_feBlock :
    holdsAfter (exec .feBlock { encoding 0x1D none with host := { HostSide.reset with src := as 20 } })
      (fun s => answered 0 10 s && s.host.snk == bytes ([0x0A, 0, 0, 0] ++ codeA 0x1A) && s.win.isEmpty && s.t.isEmpty) = true ∧
    holdsAfter (exec .feBlock (srcOf [0x68, 0x65, 0x6C, 0x6C, 0x6F] (encoding 0x1D none)))
      (fun s => answered 0 0x80000005 s && s.host.snk == bytes [5, 0, 0, 0x80, 0x68, 0x65, 0x6C, 0x6C, 0x6F]) = true := by
  decide

/-- P3, step 4. -/
theorem test_feFinish :
    holdsAfter (exec .feFinish (encoding 0x1D (some ⟨0, as 20⟩)))
      (fun s => answered 0 0x31B53804 s && s.host.snk == bytes [0, 0, 0, 0, 0x04, 0x38, 0xB5, 0x31] && s.fe.state == .done) =
      true := by decide

/-- F1. -/
theorem test_feRun :
    holdsAfter (exec (.feRun 0) reset)
      (fun s => answered 0 0 s && s.host.snk == bytes (header1D ++ [0, 0, 0, 0, 5, 0x5D, 0xCC, 2])) = true := by decide

/-- H12. -/
theorem test_fdOpen :
    holdsAfter (exec .fdOpen (withSrc [0x04, 0x22, 0x4D, 0x18, 0x5D, 0x40, 0x14, 0, 0, 0, 0, 0, 0, 0, 7, 0, 0, 0, 0xF0]))
      (fun s => answered 0 19 s && s.fd.state == .blocks && s.hdr == ⟨0x405D, 0x10000, 20, 0, 7⟩) = true := by decide

/-- H6. -/
theorem test_fdOpen_checksum :
    holdsAfter (exec .fdOpen (withSrc [0x04, 0x22, 0x4D, 0x18, 0x64, 0x60, 0xBB]))
      (fun s => answered 0x15 0 s && fdStatus s.fd == 0x57#32) = true := by decide

/-- The block of F5 with its checksum. -/
theorem test_fdBlock :
    holdsAfter (exec .fdBlock (srcOf ([0x0A, 0, 0, 0] ++ codeA 0x1A ++ [0x94, 0x0D, 0x54, 0xB4]) (decoding true none)))
      (fun s => answered 0 20 s && s.out == as 20 && s.din == bytes (codeA 0x1A)) = true := by decide

/-- K13; P3, step 13. -/
theorem test_fdBlock_ends :
    holdsAfter (exec .fdBlock (srcOf [0xFF, 0xFF, 0xFF, 0x7F] (decoding false none))) (answered 0x18 0) = true ∧
    holdsAfter (exec .fdBlock (srcOf [0, 0, 0, 0, 0x04, 0x38, 0xB5, 0x31] (decoding false (some ⟨0, as 20⟩))))
      (fun s => answered 3 0 s && s.fd.state == .finished) = true := by decide

/-- F3; K14. -/
theorem test_fdAll :
    holdsAfter (exec .fdAll (withSrc (header1D ++ [0x0A, 0, 0, 0] ++ codeA 0x1A ++ [0, 0, 0, 0, 0x04, 0x38, 0xB5, 0x31])))
      (fun s => answered 0 1 s && s.host.snk == as 20 && s.host.src.isEmpty) = true ∧
    holdsAfter (exec .fdAll (withSrc (header19 ++ [0, 0, 0, 0x80] ++ [0, 0, 0, 0])))
      (fun s => answered 0 1 s && s.host.snk.isEmpty) = true := by decide

/-- P3, step 9; K14: a block of no bytes answers END with FD still in Blocks. -/
theorem test_rdFill :
    holdsAfter (exec .rdFill { decoding false none with out := as 20, rpos := 8 }) (answered 0 12) = true ∧
    holdsAfter (exec .rdFill (srcOf [0, 0, 0, 0x80] (decoding false none)))
      (fun s => answered 3 0 s && s.fd.state == .blocks) = true := by decide

/-- P3, steps 8 and 11. -/
theorem test_rdConsume :
    holdsAfter (exec (.rdConsume 8) { reset with out := as 20 }) (fun s => answered 0 12 s && s.rpos == 8) = true ∧
    holdsAfter (exec (.rdConsume 13) { reset with out := as 20, rpos := 8 }) (fun s => answered 0xFF 0 s && s.rpos == 8) =
      true := by decide

/-- The bytes of each kind of wire unit. -/
theorem test_wire_bytes :
    wireBytes Config.default (.wireToken 1 15) = bytes [0x1F] ∧ wireBytes Config.default .wireLengthExtMore = bytes [0xFF] ∧
    wireBytes Config.default (.wireLengthExtLast 2) = bytes [2] ∧ wireBytes Config.default (.wireOffset 0x010C) = bytes [0x0C, 1] ∧
    wireBytes Config.default .wireMagic = bytes [0x04, 0x22, 0x4D, 0x18] ∧
    wireBytes Config.default (.wireFlg true false false true false) = bytes [0x64] ∧
    wireBytes Config.default .wireBd64K = bytes [0x40] ∧ wireBytes Config.default .wireBd256K = bytes [0x50] ∧
    wireBytes Config.default .wireBd1M = bytes [0x60] ∧ wireBytes Config.default .wireBd4M = bytes [0x70] ∧
    wireBytes Config.default (.wireHeaderChecksum 0xBB) = bytes [0xBB] ∧
    wireBytes Config.default (.wireBlockLength true 5) = bytes [5, 0, 0, 0x80] ∧
    wireBytes Config.default .wireEndMark = bytes [0, 0, 0, 0] ∧
    wireBytes Config.default (.wireBlockChecksum 0xB4540D94) = bytes [0x94, 0x0D, 0x54, 0xB4] ∧
    wireBytes Config.default (.wireContentChecksum 0x31B53804) = bytes [0x04, 0x38, 0xB5, 0x31] := by decide

/-- A wire unit arrives on SRC and returns no response. -/
theorem test_wire_exec :
    holdsAfter (exec (.wireOffset 0x010C) (withSrc [9])) (fun s => s.host.src == bytes [9, 0x0C, 1] && s.host.resp.isEmpty) =
      true := by decide

/-- XXH32 of "a" × 20 (F3) and of nothing (F1). -/
theorem test_xxh32 : xxh32 0 [] = 0x02CC5D05 ∧ xxh32 0 (as 20) = 0x31B53804 := by decide

/-! ### Witnesses: for every obligation with hypotheses, a state and operands that meet them -/

/-- An open frame of the encoder, dependent blocks, no content checksum. -/
def feOpen : State := encoding 0x00 none

/-- An open frame of the decoder, 64 KiB class. -/
def fdOpened : State := decoding false none

theorem witness_CsrReadReturnsRegister : 0x12 < (0x13#24).toNat ∧ 0x12 < (0xFFFFFF#24).toNat := by decide

theorem witness_HwcfgShowsParameters : Config.default.valid ∧ { Config.default with hashLog := 31, seedStride := 255 }.valid := by
  decide

theorem witness_CsrWriteSetsRegister :
    feActive reset = false ∧ 0x03 < (0x04#24).toNat ∧ feActive feOpen = true := by decide

theorem witness_ClearCommandsEmptyTheirBuffer :
    feActive feOpen = true ∧ fdActive fdOpened = true ∧ feActive reset = false ∧ fdActive reset = false := by decide

theorem witness_WinDropRemovesFront :
    (feActive { reset with win := bytes [1, 2] } = false ∧ ({ reset with win := bytes [1, 2] } : State).win = bytes [1, 2] ++ [] ∧
      (bytes [1, 2]).length = (2#32).toNat) ∧
    feActive feOpen = true ∧ ({ reset with win := bytes [1, 2] } : State).win.length < (3#32).toNat := by decide

theorem witness_DwinPushKeepsLastWindow : fdActive reset = false ∧ fdActive fdOpened = true := by decide

theorem witness_LoadsTakeBytesFromSrc :
    drawsOk 1 (withSrc [1, 2]) = true ∧ (withSrc [1, 2]).host.src = bytes [1, 2] ++ [] ∧
    (bytes [1, 2]).length = (2#32).toNat ∧ feActive (withSrc [1, 2]) = false ∧ fdActive (withSrc [1, 2]) = false ∧
    (withSrc [1, 2]).win.length + (2#32).toNat ≤ 4259840 ∧ (2#32).toNat ≤ (withSrc [1, 2]).cfg.dinCap := by decide

theorem witness_LoadFailureLeavesBuffer :
    (failing 0).host.draws = .fail 0 :: [] ∧ feActive (failing 0) = false ∧ fdActive (failing 0) = false ∧
    (drawsOk 1 (withSrc [1]) = true ∧ (withSrc [1]).host.src.length < (2#32).toNat ∧ feActive (withSrc [1]) = false ∧
      fdActive (withSrc [1]) = false ∧ (withSrc [1]).win.length + (2#32).toNat ≤ 4259840 ∧
      (2#32).toNat ≤ (withSrc [1]).cfg.dinCap) := by decide

theorem witness_FlushesAppendToSnk :
    drawsOk 1 { reset with out := as 2, rpos := 1 } = true ∧ ({ reset with out := as 2, rpos := 1 } : State).out = as 1 ++ as 1 ∧
    (as 1).length = ({ reset with out := as 2, rpos := 1 } : State).rpos := by decide

theorem witness_FlushFailureLeavesFrontPart : (failing 3).host.draws = .fail 3 :: [] := by decide

theorem witness_RefusedByUnitState :
    feActive feOpen = true ∧ feActive { feOpen with fe := { feOpen.fe with state := .blockLoop } } = true ∧
    fdActive fdOpened = true ∧ reset.fe.state = .init ∧ ({ FeRec.reset with state := .done } : FeRec).state = .done ∧
    reset.fd.state = .closed := by decide

theorem witness_RefusedByOperandRange :
    reset.cfg.tableSize ≤ (0x1000#24).toNat ∧ reset.win.length < (1#32).toNat ∧ 2 < (3#24).toNat ∧
    reset.out.length - reset.rpos < (1#32).toNat ∧ 4259840 < reset.win.length + (4259841#32).toNat ∧
    reset.cfg.dinCap < (4194305#32).toNat := by decide

theorem witness_HashIsTableIndex : reset.cfg.hash = .multiplicative ∧ reset.cfg.hashLog ≤ 31 := by decide

theorem witness_LookupReturnsEntry :
    ((0xFFF#24).toNat < reset.cfg.tableSize ∧ tableGet [(0xFFF, 0)] (0xFFF#24).toNat = some 0) ∧
    ((0#24).toNat < reset.cfg.tableSize ∧ tableGet reset.t (0#24).toNat = none) ∧
    reset.cfg.tableSize ≤ (0x1000#24).toNat := by decide

theorem witness_InsertOverwritesBucket :
    (feActive reset = false ∧ (0xFFF#24).toNat < reset.cfg.tableSize) ∧ feActive feOpen = true ∧
    reset.cfg.tableSize ≤ (0x1000#24).toNat := by decide

theorem witness_ShiftSubtractsOrDrops :
    (feActive { reset with t := [(1, 7), (2, 8)] } = false ∧ tableSorted [(1, 7), (2, 8)] = true) ∧ feActive feOpen = true := by
  decide

theorem witness_SeedInsertsProgression :
    (feActive { reset with win := dict16 } = false ∧ 3#24 ≠ 0 ∧ (16#32).toNat ≤ ({ reset with win := dict16 } : State).win.length) ∧
    feActive feOpen = true ∧ ({ reset with win := dict16 } : State).win.length < (17#32).toNat := by decide

theorem witness_ResetSaveReseedTables : feActive reset = false ∧ feActive feOpen = true := by decide

theorem witness_LengthFieldRoundTrip : readLength 15 (bytes [0xFF, 0, 7]) = some (270, bytes [7]) := by decide

theorem witness_EncBlockFitsOrWouldNotFit :
    feActive { reset with win := as 10 } = false ∧ (0#32).toNat ≤ ({ reset with win := as 10 } : State).win.length ∧
    (10#32).toNat ≤ ({ reset with win := as 10 } : State).win.length := by decide

theorem witness_ShortBlockNeverFits :
    feActive { reset with win := as 8 } = false ∧ (0#32).toNat ≤ ({ reset with win := as 8 } : State).win.length ∧
    ({ reset with win := as 8 } : State).win.length ≤ (0#32).toNat + 8 := by decide

theorem witness_EncodedBlockDecodesBack :
    0 ≤ (as 10).length ∧ (as 10).length - 0 ≤ 10 ∧
    encBlock Config.default (as 10) 0 [] = (some (bytes (codeA 0x10)), [(595, 4)]) := by decide

theorem witness_DecoderFollowsBlockLayout :
    seqsOk [] [⟨as 1, 1, 4⟩] [] ∧ (seqsOutput [] [⟨as 1, 1, 4⟩] [] ++ as 5).length ≤ 10 := by
  exact ⟨⟨⟨by decide, by decide, by decide, by decide⟩, trivial⟩, by decide⟩

/-- The first sequences of X17, X19, X23, X2, X14, X20, X21, X16. -/
theorem witness_DecoderChecksInOrder :
    readLength (tokenLit 0xF0) [] = none ∧
    (readLength (tokenLit 0x50) (bytes [0x61, 0x62]) = some (5, bytes [0x61, 0x62]) ∧ (bytes [0x61, 0x62]).length < 5) ∧
    (readLength (tokenLit 0x10) (as 1) = some (1, as 1) ∧ 1 ≤ (as 1).length ∧ 0 < 1 ∧ 1 = (as 1).length ∧ 1 ≤ 1) ∧
    (readLength (tokenLit 0x10) (bytes [0x61, 1]) = some (1, bytes [0x61, 1]) ∧ (bytes [0x61, 1]).length = 1 + 1) ∧
    (bytes [0x61, 0, 0, 0] = as 1 ++ 0 :: 0 :: bytes [0] ∧ u16Of 0 0 = 0) ∧
    (bytes [0x61, 2, 0, 0] = as 1 ++ 2 :: 0 :: bytes [0] ∧ u16Of 2 0 ≠ 0 ∧ 1 + ([] : List Byte).length < (u16Of 2 0).toNat) ∧
    (u16Of 1 0 ≠ 0 ∧ (u16Of 1 0).toNat ≤ 1 + ([] : List Byte).length ∧ readLength (tokenMat 0x1F) [] = none) ∧
    (readLength (tokenMat 0x10) (bytes [0]) = some (0, bytes [0]) ∧ 4 < 1 + (0 + 4)) := by decide

theorem witness_DecBlockFillsOut :
    (fdActive { reset with din := bytes (codeA 0x10) } = false ∧
      decBlock (bytes (codeA 0x10)) [] reset.cfg.outCap = .ok (as 10)) ∧
    decBlock (bytes [0x10, 0x61, 0, 0, 0]) [] reset.cfg.outCap = .error .zeroOffset := by decide

theorem witness_FeStartWritesHeader :
    (2#24).toNat ≤ 2 ∧ drawsOk 1 { reset with dict := dict16 } = true ∧ 1 ≤ reset.cfg.seedStride := by decide

theorem witness_FeBlockWritesBlock :
    feActive (srcOf [1] feOpen) = true ∧ (srcOf [1] feOpen).host.src ≠ [] ∧ drawsOk 3 (srcOf [1] feOpen) = true ∧
    setBck feOpen.fe.set = false ∧ setBck (encoding 0x06 none).fe.set = true ∧ drawsOk 4 (srcOf [1] (encoding 0x06 none)) = true := by
  decide

theorem witness_FeBlockEndsOnEmptySrc : feActive feOpen = true ∧ feOpen.host.src = [] ∧ drawsOk 1 feOpen = true := by decide

theorem witness_FeFinishWritesEndMark :
    (feActive feOpen = true ∧ feOpen.fe.ch = none ∧ drawsOk 1 feOpen = true) ∧
    (feActive (encoding 0x04 (some ⟨0, as 2⟩)) = true ∧ (encoding 0x04 (some ⟨0, as 2⟩)).fe.ch = some ⟨0, as 2⟩ ∧
      drawsOk 2 (encoding 0x04 (some ⟨0, as 2⟩)) = true) := by decide

theorem witness_FeRunCompressesAll :
    (2#24).toNat ≤ 2 ∧ allDrawsOk (withSrc [1, 2, 3]) = true ∧
    ∃ t u w v, OkAfter (.feStart 0 :: List.replicate 1 .feBlock) (withSrc [1]) t ∧
      exec .feBlock t = .next (respond ⟨0x03, 0⟩ u) ∧ exec .feFinish u = .next (respond ⟨0x00, v⟩ w) :=
  ⟨by decide, by decide, _, _, _, _, ⟨_, _, rfl, _, _, rfl, rfl⟩, rfl, rfl⟩

theorem witness_FeIoFailureEntersFailed :
    (FailsAfter 0 3 [] (failing 3) ∧ (2#24).toNat ≤ 2 ∧ feActive { feOpen with host := (failing 3).host } = true) ∧
    (FailsAfter (1 + 1) 2 [] (portsOf [7, 7, 7] [.ok, .ok, .fail 2] feOpen) ∧ 1 < (if setBck feOpen.fe.set then 3 else 2) ∧
      feActive feOpen = true ∧ (portsOf [7, 7, 7] [.ok, .ok, .fail 2] feOpen).host.src ≠ []) ∧
    (FailsAfter (1 + 2) 0 [] (portsOf [7] [.ok, .ok, .ok, .fail 0] (encoding 0x02 none)) ∧
      2 < (if setBck (encoding 0x02 none).fe.set then 3 else 2)) ∧
    (FailsAfter 1 3 [] (portsOf [] [.ok, .fail 3] (encoding 0x04 (some ⟨0, as 2⟩))) ∧
      feActive (encoding 0x04 (some ⟨0, as 2⟩)) = true ∧ (encoding 0x04 (some ⟨0, as 2⟩)).fe.ch = some ⟨0, as 2⟩) := by
  simp only [FailsAfter]
  decide

/-- The clauses on FE.RUN: a header that fails; the read of a second block; the end mark of an empty frame. -/
theorem witness_FeIoFailureEntersFailed_run :
    (∃ u, exec (.feStart 0) (failing 3) = .next (respond ⟨0x11, 0⟩ u)) ∧
    (∃ t u, OkAfter (.feStart 0 :: List.replicate 1 .feBlock) (portsOf [7] [.ok, .ok, .ok, .ok, .fail 0] reset) t ∧
      exec .feBlock t = .next (respond ⟨0x11, 0⟩ u)) ∧
    (∃ t u w, OkAfter (.feStart 0 :: List.replicate 0 .feBlock) (portsOf [] [.ok, .ok, .fail 1] reset) t ∧
      exec .feBlock t = .next (respond ⟨0x03, 0⟩ u) ∧ exec .feFinish u = .next (respond ⟨0x11, 0⟩ w)) :=
  ⟨⟨_, rfl⟩, ⟨_, _, ⟨_, _, rfl, _, _, rfl, rfl⟩, rfl⟩, ⟨_, _, _, ⟨_, _, rfl, rfl⟩, rfl, rfl⟩⟩

theorem witness_FdOpenAcceptsHeader :
    Config.default.valid ∧
    bytes [0x04, 0x22, 0x4D, 0x18, 0x5D, 0x40, 0x14, 0, 0, 0, 0, 0, 0, 0, 7, 0, 0, 0, 0xF0] =
      headerBytes Config.default false true true 0 (some 20) (some 7) ++ [] ∧
    bytes header1D = headerBytes Config.default true false true 3 none none ++ [] ∧ drawsOk 5 reset = true := by decide

theorem witness_FdOpenRejectsBadHeader :
    (withSrc [5, 0x22, 0x4D, 0x18, 0x64, 0x70]).host.src = 5 :: 0x22 :: 0x4D :: 0x18 :: bytes [0x64, 0x70] ∧
    drawsOk 2 reset = true ∧ u32Of 5 0x22 0x4D 0x18 ≠ reset.cfg.magic ∧ u32Of 4 0x22 0x4D 0x18 = reset.cfg.magic ∧
    (0xA4 : Byte).extractLsb' 6 2 ≠ 1#2 ∧ (0x66 : Byte).getLsbD reset.cfg.flg.rsv = true ∧
    ((0x71 : Byte) ≠ reset.cfg.bd.c0 ∧ (0x71 : Byte) ≠ reset.cfg.bd.c1 ∧ (0x71 : Byte) ≠ reset.cfg.bd.c2 ∧
      (0x71 : Byte) ≠ reset.cfg.bd.c3) := by decide

theorem witness_FdOpenRejectsBadChecksum :
    Config.default.valid ∧
    (bytes [0x04, 0x22, 0x4D, 0x18, 0x64, 0x70, 0x44] = le32 Config.default.magic ++
        ([flgByte Config.default.flg ⟨true, false, false, true, false⟩, bdByte Config.default.bd 3] ++ sizeField none ++
          idField none) ++ [0x44] ++ [] ∧
      (0x44 : Byte) ≠ headerChecksum Config.default [flgByte Config.default.flg ⟨true, false, false, true, false⟩,
        bdByte Config.default.bd 3] ∧ drawsOk 3 reset = true) ∧
    (bytes [0x04, 0x22, 0x4D, 0x18, 0x5D, 0x40, 0x14, 0, 0, 0, 0, 0, 0, 0, 7, 0, 0, 0, 0xF1] = le32 Config.default.magic ++
        ([flgByte Config.default.flg ⟨false, true, true, true, true⟩, bdByte Config.default.bd 0] ++ sizeField (some 20) ++
          idField (some 7)) ++ [0xF1] ++ [] ∧
      (0xF1 : Byte) ≠ headerChecksum Config.default
        ([flgByte Config.default.flg ⟨false, true, true, true, true⟩, bdByte Config.default.bd 0] ++ sizeField (some 20) ++
          idField (some 7)) ∧ drawsOk (3 + 1 + 1) reset = true) := by decide

theorem witness_FdBlockDecodesBlock :
    fdActive fdOpened = true ∧ bytes (codeA 0x10) ≠ [] ∧ (bytes (codeA 0x10)).length ≤ reset.cfg.dinCap ∧
    reset.cfg.dinCap ≤ 2147483647 ∧
    bytes ([0x0A, 0, 0, 0] ++ codeA 0x10) = le32 (lengthWord false (BitVec.ofNat 31 (bytes (codeA 0x10)).length)) ++
      bytes (codeA 0x10) ++ checksumBytes fdOpened.fd.bck (h32 reset.cfg 0 (bytes (codeA 0x10))) ++ [] ∧
    drawsOk 2 fdOpened = true ∧ (as 10).length ≤ fdOpened.fd.bmax ∧
    decBlock (bytes (codeA 0x10)) [] reset.cfg.outCap = .ok (as 10) ∧
    bytes [0, 0, 0, 0x80] = le32 (lengthWord true (BitVec.ofNat 31 0)) ++ [] ++ [] := by decide

theorem witness_FdBlockEndMark :
    (fdActive (srcOf [0, 0, 0, 0] fdOpened) = true ∧ (srcOf [0, 0, 0, 0] fdOpened).fd.ch = none ∧
      (srcOf [0, 0, 0, 0] fdOpened).host.src = [0, 0, 0, 0] ++ [] ∧ drawsOk 1 (srcOf [0, 0, 0, 0] fdOpened) = true) ∧
    (fdActive (decoding false (some ⟨0, []⟩)) = true ∧ (decoding false (some ⟨0, []⟩)).fd.ch = some ⟨0, []⟩ ∧
      bytes [0, 0, 0, 0, 5, 0x5D, 0xCC, 2] = [0, 0, 0, 0] ++ le32 0x02CC5D05 ++ [] ∧ drawsOk 2 reset = true ∧
      0x02CC5D05 = h32 reset.cfg 0 [] ∧ 0x02CC5D06 ≠ h32 reset.cfg 0 []) := by decide

theorem witness_FdBlockRejectsBadBlock :
    (fdActive fdOpened = true ∧ (0x7FFFFFFF : Word) ≠ 0 ∧ bytes [0xFF, 0xFF, 0xFF, 0x7F] = le32 0x7FFFFFFF ++ [] ∧
      reset.cfg.dinCap < (wordCount 0x7FFFFFFF).toNat ∧ drawsOk 3 fdOpened = true) ∧
    (bytes [1, 0, 0, 0x80, 7, 0, 0, 0, 0] = le32 0x80000001 ++ (bytes [7] ++ le32 0 ++ []) ∧ (0x80000001 : Word) ≠ 0 ∧
      (bytes [7]).length = (wordCount 0x80000001).toNat ∧ (decoding true none).fd.bck = true ∧ 0 ≠ h32 reset.cfg 0 (bytes [7])) ∧
    (bytes [5, 0, 0, 0, 0x10, 0x61, 0, 0, 0] = le32 5 ++ (bytes [0x10, 0x61, 0, 0, 0] ++
        checksumBytes fdOpened.fd.bck (h32 reset.cfg 0 (bytes [0x10, 0x61, 0, 0, 0])) ++ []) ∧
      wordStored 5 = false ∧ (bytes [0x10, 0x61, 0, 0, 0]).length = (wordCount 5).toNat ∧
      decBlock (bytes [0x10, 0x61, 0, 0, 0]) [] reset.cfg.outCap = .error .zeroOffset) := by decide

/-- The last clause: a stored block longer than the class of the frame, in a frame of a class of two bytes for the witness's
sake (the clause holds for every value of FD.BMAX). -/
theorem witness_FdBlockRejectsBadBlock_size :
    ({ fdOpened.fd with bmax := 2 } : FdRec).bmax < (as 3).length ∧
    bytes [3, 0, 0, 0x80, 0x61, 0x61, 0x61] = le32 0x80000003 ++ (as 3 ++ checksumBytes false 0 ++ []) ∧
    wordStored 0x80000003 = true ∧ (as 3).length = (wordCount 0x80000003).toNat := by decide

theorem witness_TerminalStatesStay :
    (({ state := .failed, err := some .ioFailure, dlen := 0, ch := none, set := 0 } : FeRec).err = some .ioFailure) ∧
    (({ FdRec.reset with state := .failed, err := some .wrongMagic } : FdRec).state = .failed) ∧
    (({ FdRec.reset with state := .finished } : FdRec).state = .finished) := by decide

/-- The magic that fails, and one that runs short; a header with size and id that ends before the id. -/
theorem witness_FdIoFailureEntersFailed :
    reset.cfg.valid ∧
    (∃ post, headerFields Config.default true false true 3 none none = [] ++ le32 0x184D2204 :: post ∧
      ReadFails 0 4 [] (failing 0) (portsOf [] [] reset).host ∧
      ReadFails 0 4 (bytes [4, 0x22, 0x4D]) (withSrc [4, 0x22, 0x4D]) reset.host) ∧
    (∃ pre post, headerFields Config.default false true true 0 (some 20) (some 7) = pre ++ le32 7 :: post ∧
      bytes [0x04, 0x22, 0x4D, 0x18, 0x5D, 0x40, 0x14, 0, 0, 0, 0, 0, 0, 0] = pre.flatten ++ [] ∧
      ReadFails pre.length 4 [] (withSrc [0x04, 0x22, 0x4D, 0x18, 0x5D, 0x40, 0x14, 0, 0, 0, 0, 0, 0, 0]) reset.host) := by
  refine ⟨by decide, ⟨_, rfl, .inl ⟨0, [], ⟨by decide, rfl⟩, rfl⟩, .inr ⟨by decide, by decide, rfl⟩⟩, ?_⟩
  exact ⟨[le32 0x184D2204, [0x5D, 0x40], le64 20], _, rfl, by decide, .inr ⟨by decide, by decide, rfl⟩⟩

/-- FD.BLOCK: no length word; no content checksum after the end mark; a block of two bytes of which one is there; a block
checksum whose draw fails. -/
theorem witness_FdIoFailureEntersFailed_block :
    fdActive fdOpened = true ∧ ReadFails 0 4 [] fdOpened reset.host ∧
    ((decoding false (some ⟨0, []⟩)).fd.ch = some ⟨0, []⟩ ∧ bytes [0, 0, 0, 0, 5] = [0, 0, 0, 0] ++ [5] ∧
      ReadFails 1 4 [5] (portsOf [0, 0, 0, 0, 5] [] (decoding false (some ⟨0, []⟩))) reset.host) ∧
    ((0x80000002 : Word) ≠ 0 ∧ (wordCount 0x80000002).toNat ≤ reset.cfg.dinCap ∧
      bytes [2, 0, 0, 0x80, 7] = le32 0x80000002 ++ [7] ∧
      ReadFails 1 (wordCount 0x80000002).toNat [7] (portsOf [2, 0, 0, 0x80, 7] [] fdOpened) reset.host) ∧
    ((decoding true none).fd.bck = true ∧ bytes [1, 0, 0, 0x80, 7, 9] = le32 0x80000001 ++ [7] ++ [9] ∧
      [(7 : Byte)].length = (wordCount 0x80000001).toNat ∧
      ReadFails 2 4 [9] (portsOf [1, 0, 0, 0x80, 7, 9] [.ok, .ok, .fail 0] (decoding true none)) (portsOf [9] [] reset).host) := by
  refine ⟨by decide, .inr ⟨by decide, by decide, rfl⟩, ⟨rfl, by decide, .inr ⟨by decide, by decide, rfl⟩⟩,
    ⟨by decide, by decide, by decide, .inr ⟨by decide, by decide, rfl⟩⟩, rfl, by decide, by decide,
    .inl ⟨0, [], ⟨by decide, rfl⟩, rfl⟩⟩

/-- OUT unread; a block of one byte; a block of no bytes; the end mark; a failing read. -/
theorem witness_RdFillRefillsOnce :
    fdOpened.fd.state = .blocks ∧ ({ fdOpened with out := as 1 } : State).rpos < (as 1).length ∧
    fdOpened.out.length ≤ fdOpened.rpos ∧
    (∃ t, exec .fdBlock (srcOf [1, 0, 0, 0x80, 7] fdOpened) = .next (respond ⟨0x00, 1⟩ t) ∧ t.out ≠ []) ∧
    (∃ t, exec .fdBlock (srcOf [0, 0, 0, 0x80] fdOpened) = .next (respond ⟨0x00, 0⟩ t) ∧ t.out = []) ∧
    (∃ t, exec .fdBlock (srcOf [0, 0, 0, 0] fdOpened) = .next (respond ⟨0x03, 0⟩ t)) ∧
    (∃ t, exec .fdBlock (srcOf [0] fdOpened) = .next t ∧ t.fd.state = .failed) := by
  refine ⟨by decide, by decide, by decide, ⟨_, rfl, by decide⟩, ⟨_, rfl, by decide⟩, ⟨_, rfl⟩, ⟨_, rfl, by decide⟩⟩

theorem witness_RdConsumeAdvances :
    ({ reset with out := as 2, rpos := 1 } : State).rpos + (1#32).toNat ≤ ({ reset with out := as 2 } : State).out.length ∧
    ({ reset with out := as 2, rpos := 1 } : State).out.length - ({ reset with rpos := 1 } : State).rpos < (2#32).toNat := by
  decide

/-- F1: the frame of no bytes. -/
theorem witness_FrameRoundTrip :
    reset.cfg.valid ∧ (0#24).toNat ≤ 2 ∧ allDrawsOk reset = true ∧ reset.dict.length ≤ 65536 ∧
    holdsAfter (exec (.feRun 0) reset) (fun t => t.host.snk == bytes (header1D ++ [0, 0, 0, 0, 5, 0x5D, 0xCC, 2])) = true ∧
    (withSrc (header1D ++ [0, 0, 0, 0, 5, 0x5D, 0xCC, 2])).host.src =
      bytes (header1D ++ [0, 0, 0, 0, 5, 0x5D, 0xCC, 2]) ++ [] := by decide

/-- K14, with one block of no bytes. -/
theorem witness_FdAllDecodesStoredBlocks :
    reset.cfg.valid ∧ (∀ b ∈ [([] : List Byte)], b.length ≤ Config.blockMax 3) ∧ allDrawsOk reset = true ∧
    bytes (header19 ++ [0, 0, 0, 0x80] ++ [0, 0, 0, 0]) = headerBytes Config.default true false false 3 none none ++
      ([([] : List Byte)].map fun b =>
        le32 (lengthWord true (BitVec.ofNat 31 b.length)) ++ b ++ checksumBytes false (h32 Config.default 0 b)).flatten ++
      [0, 0, 0, 0] ++ checksumBytes false (h32 Config.default 0 []) ++ [] := by decide

/-- A wrong magic; and after one stored block: a length word cut short, a write that fails, the end mark. -/
theorem witness_FdAllStopsOnBadHeader :
    (∃ t, exec .fdOpen (withSrc [5, 0x22, 0x4D, 0x18]) = .next t ∧ t.fd.err = some .wrongMagic) ∧
    (∃ t u r, OkAfter (.fdOpen :: (List.replicate 1 [.fdBlock, .outFlush]).flatten)
        (withSrc (header19 ++ [1, 0, 0, 0x80, 7, 0, 0])) t ∧
      exec .fdBlock t = .next (respond r u) ∧ u.fd.state = .failed) ∧
    (∃ t u r, OkAfter (.fdOpen :: (List.replicate 0 [.fdBlock, .outFlush]).flatten)
        (portsOf (header19 ++ [1, 0, 0, 0x80, 7]) [.ok, .ok, .ok, .ok, .ok, .fail 0] reset) t ∧
      exec .fdBlock t = .next (respond r u) ∧ r.status = 0x00 ∧ u.host.draws = .fail 0 :: []) ∧
    (∃ t u r, OkAfter (.fdOpen :: (List.replicate 1 [.fdBlock, .outFlush]).flatten)
        (withSrc (header19 ++ [1, 0, 0, 0x80, 7, 0, 0, 0, 0])) t ∧
      exec .fdBlock t = .next (respond r u) ∧ r.status = 0x03) :=
  ⟨⟨_, rfl, rfl⟩, ⟨_, _, _, ⟨_, _, rfl, _, _, rfl, _, _, rfl, rfl⟩, rfl, rfl⟩, ⟨_, _, _, ⟨_, _, rfl, rfl⟩, rfl, rfl, rfl⟩,
    ⟨_, _, _, ⟨_, _, rfl, _, _, rfl, _, _, rfl, rfl⟩, rfl, rfl⟩⟩

theorem witness_WireUnitsReachSrc : (Instr.wireToken 1 15 = .wireToken 1 15 ∧ bytes [0x1F] = [1#4 ++ 15#4]) := by decide

theorem witness_DefaultHeaderFields :
    (parseFlg Config.default.flg 0x64).isSome = true ∧ parseBd Config.default.bd 0x70 = some 3 := by decide

/-- One inbox for each clause; 0x66 is no FLG byte. -/
theorem witness_HostActsBetweenCommands :
    (withInbox [.act (.feed [1])] reset).host.inbox = .act (.feed [1]) :: [] ∧
    (withInbox [.act (.skip 1)] reset).host.inbox = .act (.skip 1) :: [] ∧
    (withInbox [.act (.drain 1)] reset).host.inbox = .act (.drain 1) :: [] ∧
    (withInbox [.act (.collect 1)] reset).host.inbox = .act (.collect 1) :: [] ∧
    (withInbox [.wire .flg [0x66]] reset).host.inbox = .wire .flg [0x66] :: [] ∧
    decodeWire reset.cfg .flg [0x66] = .error .reservedFlg ∧ reset.host.inbox = [] ∧
    (withInbox [.word 0x13000000] reset).host.inbox = [.word 0x13000000] ∧ (opcOf 0x13000000).toNat ∈ [0x13] := by
  decide

theorem witness_DecodeOfEncode :
    Config.default.valid ∧ (Instr.wireOffset 0xFFFF).wellFormed = true ∧ (Instr.mtSeed 0xFFFFFF 1 2).wellFormed = true := by
  decide

theorem witness_StepRunsDecodedInstruction :
    reset.cfg.valid ∧ (Instr.csrRd 0).wellFormed = true ∧
    (withInbox [.word 0x02000000] reset).host.inbox = encode Config.default (.csrRd 0) ++ [] := by decide

/-- Y10, Y11, Y12. -/
theorem witness_IllegalWordsAreRefused :
    ((withInbox [.word 0x99000000] reset).host.inbox = .word 0x99000000 :: [] ∧
      (opcOf 0x99000000).toNat ∉ [0x01, 0x02, 0x03, 0x10, 0x11, 0x12, 0x13, 0x14, 0x15, 0x16, 0x17, 0x18, 0x19, 0x1A, 0x20, 0x21,
        0x22, 0x23, 0x24, 0x25, 0x26, 0x27, 0x30, 0x31, 0x40, 0x41, 0x42, 0x43, 0x50, 0x51, 0x52, 0x53, 0x54]) ∧
    ((withInbox [.word 0x01000001] reset).host.inbox = .word 0x01000001 :: [] ∧ fieldA 0x01000001 ≠ 0 ∧
      (opcOf 0x01000001).toNat = 0x01) ∧
    ((withInbox [.word 0x13000005, .word 3] reset).host.inbox = .word 0x13000005 :: .word 3 :: [] ∧ fieldA 0x13000005 ≠ 0 ∧
      (opcOf 0x13000005).toNat = 0x13) := by decide

theorem witness_OneResponsePerCommand : Instr.sysReset.isCommand = true ∧ (Instr.feRun 0).isCommand = true := by decide

theorem witness_UnitsAreIndependent :
    (∃ t, exec (.feStart 0) reset = .next t) ∧ (∃ t, exec .fdBlock fdOpened = .next t) := ⟨⟨_, rfl⟩, ⟨_, rfl⟩⟩

/-- Both units with an open frame, and a word on the port. -/
theorem witness_StepKeepsInvariant :
    Inv { fdOpened with fe := feOpen.fe, host := { HostSide.reset with inbox := [.word 0x02000000] } } ∧
    ∃ t, step { fdOpened with fe := feOpen.fe, host := { HostSide.reset with inbox := [.word 0x02000000] } } = .next t := by
  refine ⟨⟨by decide, by decide, by decide, by decide, ?_⟩, ⟨_, rfl⟩⟩
  exact ⟨by decide, by decide, fun _ => ⟨⟨0, by decide⟩, by decide, by decide, by decide⟩⟩

end Sys2Proof.Tests
end

section
/-! SUPPORT. What a piece of pseudocode may do to the environment of the device (R20, R56 to R58): it takes draws from the front
and appends to SNK; the configuration, the items of the host and the responses stay. Every command is such a piece followed by
one response (R74, R76). -/

namespace Sys2Proof.Machine

/-! ### The environment during a command -/

/-- From `g` to `h`, what a piece of pseudocode may do to the host's side. -/
structure HostKept (g h : HostSide) : Prop where
  inbox : h.inbox = g.inbox
  resp : h.resp = g.resp
  draws : h.draws <:+ g.draws
  snk : g.snk <+: h.snk

/-- From `s` to `t` the configuration stays, and the host's side changes only as a piece of pseudocode may change it. -/
def EnvKept (s t : State) : Prop := HostKept s.host t.host ∧ t.cfg = s.cfg

/-- A change of device state alone. -/
theorem EnvKept.device {s t : State} (hh : t.host = s.host) (hc : t.cfg = s.cfg) : EnvKept s t := by
  rw [EnvKept, hh]
  exact ⟨⟨rfl, rfl, List.suffix_rfl, List.prefix_rfl⟩, hc⟩

/-- As `EnvKept` speaks of ports and configuration alone, this also closes every goal whose two states differ in device state. -/
theorem EnvKept.refl (s : State) : EnvKept s s := .device rfl rfl

theorem EnvKept.trans {s t u : State} (h : EnvKept s t) (g : EnvKept t u) : EnvKept s u := by
  obtain ⟨⟨hi, hr, hd, hk⟩, hc⟩ := h
  obtain ⟨⟨gi, gr, gd, gk⟩, gc⟩ := g
  exact ⟨⟨gi.trans hi, gr.trans hr, gd.trans hd, hk.trans gk⟩, gc.trans hc⟩

theorem PortsOnly.envKept {s t : State} (h : PortsOnly s t) : EnvKept s t := by
  obtain ⟨src, snk, draws, rfl, hd, -⟩ := h
  exact ⟨⟨rfl, rfl, hd, List.prefix_append ..⟩, rfl⟩

/-! ### Pieces of pseudocode -/

theorem srcRead_envKept (n : Nat) (s : State) : EnvKept s (srcRead n s).state := by
  obtain ⟨v, t, h, hp, -⟩ | ⟨t, h, hp⟩ := srcRead_cases n s <;> rw [h] <;> exact hp.envKept

theorem srcReadUpTo_envKept (n : Nat) (s : State) : EnvKept s (srcReadUpTo n s).state := by
  obtain ⟨t, h, hp, -⟩ | ⟨t, h, hp⟩ := srcReadUpTo_cases n s <;> rw [h] <;> exact hp.envKept

theorem snkWrite_envKept (v : List Byte) (s : State) : EnvKept s (snkWrite v s).state := by
  obtain ⟨t, h, hp⟩ | ⟨t, h, hp⟩ := snkWrite_cases v s <;> rw [h] <;> exact hp.envKept

/-- One piece after another keeps the environment when both do, the second from whatever state the first leaves. -/
theorem EnvKept.bind {α β : Type} {s : State} {r : Run α} {f : α → State → Run β} (h : EnvKept s r.state)
    (hf : ∀ a t, EnvKept t (f a t).state) : EnvKept s (r.bind f).state := by
  cases r with
  | done a t => exact h.trans (hf a t)
  | raised k u t => exact h

/-! ### The frame decoder -/

theorem readOptional_envKept (present : Bool) (n : Nat) (s : State) : EnvKept s (readOptional present n s).state := by
  unfold readOptional
  split
  · exact srcRead_envKept n s
  · exact .refl s

theorem fdOpenRun_envKept (s : State) : EnvKept s (fdOpenRun s).state := by
  refine (srcRead_envKept 4 (openClear s)).bind fun m s1 => ?_
  split
  · exact .refl s1
  refine (srcRead_envKept 2 s1).bind fun fb s2 => ?_
  split
  · exact .refl s2
  split
  · exact .refl s2
  refine (readOptional_envKept _ 8 s2).bind fun cs s3 => (readOptional_envKept _ 4 s3).bind fun di s4 =>
    (srcRead_envKept 1 s4).bind fun hc s5 => ?_
  dsimp only
  split <;> exact .refl s5

theorem fdEndRun_envKept (s : State) : EnvKept s (fdEndRun s).state := by
  unfold fdEndRun
  split
  · exact .refl s
  · refine (srcRead_envKept 4 s).bind fun t s1 => ?_
    split <;> exact .refl s1

theorem checkBlockRun_envKept (s : State) : EnvKept s (checkBlockRun s).state := by
  unfold checkBlockRun
  split
  · refine (srcRead_envKept 4 s).bind fun c s1 => ?_
    split <;> exact .refl s1
  · exact .refl s

theorem deliverRun_envKept (o : List Byte) (s : State) : EnvKept s (deliverRun o s).state := by
  unfold deliverRun
  dsimp only
  split <;> exact .refl s

theorem fdDataRun_envKept (w : Word) (s : State) : EnvKept s (fdDataRun w s).state := by
  unfold fdDataRun
  split
  · exact .refl s
  refine (srcRead_envKept _ s).bind fun b s1 => EnvKept.bind (checkBlockRun_envKept { s1 with din := b }) fun _ s2 => ?_
  split
  · exact .refl s2
  · exact deliverRun_envKept _ s2

theorem fdBlockRun_envKept (s : State) : EnvKept s (fdBlockRun s).state := by
  refine (srcRead_envKept 4 { s with out := [], rpos := 0, din := [] }).bind fun lw s1 => ?_
  split
  · exact fdEndRun_envKept s1
  · exact fdDataRun_envKept _ s1

theorem fdBlockAny_envKept (s : State) : EnvKept s (fdBlockAny s).state := by
  unfold fdBlockAny
  split
  · exact .refl s
  · exact fdBlockRun_envKept s

theorem fdAllLoop_envKept (turns k : Nat) (s : State) : EnvKept s (fdAllLoop turns k s).state := by
  induction turns generalizing k s with
  | zero => exact .refl s
  | succ turns ih =>
    refine (fdBlockRun_envKept s).bind fun r s1 => ?_
    split
    · exact .refl s1
    · exact (snkWrite_envKept s1.out s1).bind fun _ s2 => ih (k + 1) s2

theorem fdAllRun_envKept (s : State) : EnvKept s (fdAllRun s).state :=
  (fdOpenRun_envKept s).bind fun _ s1 => (fdAllLoop_envKept _ 0 s1).bind fun _ s2 => .refl s2

theorem rdFillRun_envKept (s : State) : EnvKept s (rdFillRun s).state := by
  unfold rdFillRun
  split
  · exact .refl s
  · refine (fdBlockAny_envKept s).bind fun _ s1 => ?_
    split <;> exact .refl s1

/-! ### The frame encoder -/

theorem feStartRun_envKept (mode : BitVec 24) (s : State) : EnvKept s (feStartRun mode s).state :=
  (snkWrite_envKept (startHeader mode s) { s with fe := { s.fe with set := s.settings, err := none, ch := none } }).bind
    fun _ s1 => .refl s1

theorem postBlock_envKept (s : State) : EnvKept s (postBlock s) := by
  unfold postBlock
  split
  · exact .refl s
  · split <;> exact .refl s

theorem writeChecksum_envKept (present : Bool) (v : Word) (s : State) : EnvKept s (writeChecksum present v s).state := by
  unfold writeChecksum
  split
  · exact snkWrite_envKept _ s
  · exact .refl s

theorem writeBlock_envKept (w : Word) (body : List Byte) (s : State) : EnvKept s (writeBlock w body s).state :=
  (snkWrite_envKept _ s).bind fun _ s1 => (snkWrite_envKept body s1).bind fun _ s2 => writeChecksum_envKept _ _ s2

theorem feBlockRun_envKept (s : State) : EnvKept s (feBlockRun s).state := by
  refine (srcReadUpTo_envKept _ s).bind fun chunk s1 => ?_
  split
  · exact .refl s1
  · refine .bind (.trans ?_ (writeBlock_envKept _ _ _)) fun _ s3 => ?_
    · exact .device rfl rfl
    · exact (postBlock_envKept s3).trans (.device rfl rfl)

theorem feTrailerRun_envKept (s : State) : EnvKept s (feTrailerRun s).state := by
  unfold feTrailerRun
  split
  · exact .refl s
  · exact (snkWrite_envKept _ s).bind fun _ s1 => .refl s1

theorem feFinishRun_envKept (s : State) : EnvKept s (feFinishRun s).state :=
  (snkWrite_envKept _ s).bind fun _ s1 =>
    EnvKept.bind (feTrailerRun_envKept { s1 with fe := { s1.fe with state := .terminatorWritten } }) fun _ s2 => .refl s2

theorem feRunLoop_envKept (turns k : Nat) (s : State) : EnvKept s (feRunLoop turns k s).state := by
  induction turns generalizing k s with
  | zero => exact .refl s
  | succ turns ih =>
    refine (feBlockRun_envKept s).bind fun r s1 => ?_
    split
    · exact .refl s1
    · exact ih (k + 1) s1

theorem feRunRun_envKept (mode : BitVec 24) (s : State) : EnvKept s (feRunRun mode s).state :=
  (feStartRun_envKept mode s).bind fun _ s1 => (feRunLoop_envKept _ 0 s1).bind fun _ s2 =>
    (feFinishRun_envKept s2).bind fun _ s3 => .refl s3

/-! ### Commands -/

/-- The outcome of a command begun in `s`: a next state, which is a state with the environment kept and one response more. -/
def Answers (s : State) (o : Host.Outcome State Fault Refusal) : Prop :=
  ∃ r t, o = .next (respond r t) ∧ EnvKept s t

/-- A command that only changes device state and responds. -/
theorem Answers.reply {s t : State} (r : Response) (h : EnvKept s t) : Answers s (.next (respond r t)) := ⟨r, t, rfl, h⟩

theorem Answers.refuse (s : State) : Answers s (.next (refuse s)) := .reply _ (.refl s)

theorem Answers.ite {s : State} {p : Prop} [Decidable p] {o o' : Host.Outcome State Fault Refusal} (h : Answers s o)
    (h' : Answers s o') : Answers s (if p then o else o') := by
  split
  · exact h
  · exact h'

/-- A command that runs pseudocode answers, whether that ends with a response or raises an error (R250). -/
theorem Answers.run {s : State} {r : Run Response} (unit : ErrUnit) (h : EnvKept s r.state) :
    Answers s (.next (finishRun unit r)) := by
  cases r with
  | done a t => exact .reply a h
  | raised k u t => cases unit <;> exact .reply _ h

theorem execCsrRd_answers (reg : BitVec 24) (s : State) : Answers s (execCsrRd reg s) := by
  unfold execCsrRd
  split
  · exact .reply _ (.refl s)
  · exact .refuse s

theorem csrWrite_envKept {reg : BitVec 24} {value : Word} {s t : State} (h : csrWrite reg value s = some t) : EnvKept s t := by
  unfold csrWrite at h
  split at h <;> cases h <;> exact .refl s

theorem execCsrWr_answers (reg : BitVec 24) (value : Word) (s : State) : Answers s (execCsrWr reg value s) := by
  refine .ite (.refuse s) ?_
  split
  next t h => exact .reply _ (csrWrite_envKept h)
  next => exact .refuse s

theorem execDictLoad_answers (n : Word) (s : State) : Answers s (execDictLoad n s) := by
  unfold execDictLoad
  refine .ite (.refuse s) (.run .raw ((srcRead_envKept _ s).bind fun v t => ?_))
  exact EnvKept.device (t := { t with dict := lastK Config.dictCap v }) rfl rfl

theorem execDwinPush_answers (s : State) : Answers s (execDwinPush s) :=
  .ite (.refuse s) (.reply _ (.device rfl rfl))

theorem execMtLookup_answers (h : BitVec 24) (s : State) : Answers s (execMtLookup h s) := by
  refine .ite ?_ (.refuse s)
  split <;> exact .reply _ (.refl s)

theorem execEncBlock_answers (start : Word) (s : State) : Answers s (execEncBlock start s) := by
  refine .ite (.refuse s) ?_
  split
  · exact .ite (.refuse s) (.reply _ (.refl s))
  · exact .reply _ (.refl s)

theorem execDecBlock_answers (ctxsel : BitVec 24) (s : State) : Answers s (execDecBlock ctxsel s) := by
  refine .ite (.refuse s) ?_
  split
  · exact .refuse s
  · refine .run .raw ?_
    split <;> exact .refl s

theorem execFeBlock_answers (s : State) : Answers s (execFeBlock s) :=
  .ite (.run .fe (feBlockRun_envKept s)) (.ite (.reply _ (.refl s)) (.refuse s))

theorem execFeFinish_answers (s : State) : Answers s (execFeFinish s) :=
  .ite (.run .fe (feFinishRun_envKept s)) (.ite (.reply _ (.refl s)) (.refuse s))

theorem execFdBlock_answers (s : State) : Answers s (execFdBlock s) := by
  unfold execFdBlock
  split
  · exact .refuse s
  · exact .reply _ (.refl s)
  · exact .run .fd (fdBlockAny_envKept s)
  · exact .run .fd (fdBlockAny_envKept s)

theorem execRdFill_answers (s : State) : Answers s (execRdFill s) := by
  unfold execRdFill
  split
  · exact .refuse s
  · exact .reply _ (.refl s)
  · exact .run .fd (rdFillRun_envKept s)
  · exact .run .fd (rdFillRun_envKept s)

/-- R74, R76: every command ends in a next state with one response, and keeps the environment until then. -/
theorem exec_command_answers {i : Instr} (s : State) (hi : i.isCommand = true) : Answers s (exec i s) := by
  cases i with
  | sysReset | mtHash => exact .reply _ (.refl s)
  | dictClear | winClear | winDrop | dwinClear | dwinDict | mtReset | mtInsert | mtShift | mtSeed | mtSave | mtReseed
  | rdConsume => exact .ite (.refuse s) (.reply _ (.refl s))
  | winAppend n => exact .ite (.refuse s) (.run .raw ((srcRead_envKept _ s).bind fun _ t => .refl t))
  | dinLoad n => exact .ite (.refuse s) (.run .raw ((srcRead_envKept _ s).bind fun _ t => .refl t))
  | sinkFlush => exact .run .raw ((snkWrite_envKept _ s).bind fun _ t => .refl t)
  | outFlush => exact .run .raw ((snkWrite_envKept _ s).bind fun _ t => .refl t)
  | csrRd reg => exact execCsrRd_answers reg s
  | csrWr reg value => exact execCsrWr_answers reg value s
  | dictLoad n => exact execDictLoad_answers n s
  | dwinPush => exact execDwinPush_answers s
  | mtLookup h => exact execMtLookup_answers h s
  | encBlock start => exact execEncBlock_answers start s
  | decBlock ctxsel => exact execDecBlock_answers ctxsel s
  | feStart mode => exact .ite (.run .fe (feStartRun_envKept mode s)) (.refuse s)
  | feBlock => exact execFeBlock_answers s
  | feFinish => exact execFeFinish_answers s
  | feRun mode => exact .ite (.run .fe (feRunRun_envKept mode s)) (.refuse s)
  | fdOpen => exact .run .fd (fdOpenRun_envKept s)
  | fdBlock => exact execFdBlock_answers s
  | fdAll => exact .run .fd (fdAllRun_envKept s)
  | rdFill => exact execRdFill_answers s
  | _ => cases hi

/-- R61: a wire unit is bytes that the host appends to SRC. -/
theorem exec_wire {i : Instr} (s : State) (hi : i.isCommand = false) : exec i s = .next (feedSrc (wireBytes s.cfg i) s) := by
  cases i with
  | wireToken | wireLengthExtMore | wireLengthExtLast | wireOffset | wireMagic | wireFlg | wireBd64K | wireBd256K | wireBd1M
  | wireBd4M | wireHeaderChecksum | wireBlockLength | wireEndMark | wireBlockChecksum | wireContentChecksum => rfl
  | _ => cases hi

end Sys2Proof.Machine
end

section
/-! SUPPORT. What `fetch` takes from the host's items: the words of a command, or the next act of the host (R8, R70 to R73); and
that it gives back what `encode` presents (R80 to R94). -/

namespace Sys2Proof

open Machine

/-! ### Items of the host -/

@[simp] theorem portWords_words (ws : List Word) (rest : List HostItem) :
    portWords (ws.map .word ++ rest) = ws ++ portWords rest := by
  induction ws with
  | nil => rfl
  | cons w ws ih => simp [portWords, ih]

/-- A whole command at the front is taken, whatever follows it. -/
theorem fetch_words {c : Config} {i : Instr} (ws : List Word) (rest : List HostItem)
    (h : decodeCommand (ws ++ portWords rest) = .cmd i ws.length) : fetch c (ws.map .word ++ rest) = .instr i rest := by
  simp [fetch, h]

theorem fetch_wire (c : Config) (f : WireField) (b : List Byte) (rest : List HostItem) :
    fetch c (.wire f b :: rest) = fetchHostItem c (.wire f b) rest := rfl

theorem fetch_wire_legal {c : Config} {f : WireField} {b : List Byte} {i : Instr} (rest : List HostItem)
    (h : decodeWire c f b = .ok i) : fetch c (.wire f b :: rest) = .instr i rest := by
  simp [fetch_wire, fetchHostItem, h]

theorem fetch_wire_illegal {c : Config} {f : WireField} {b : List Byte} {e : WireReject} (rest : List HostItem)
    (h : decodeWire c f b = .error e) : fetch c (.wire f b :: rest) = .act (.feed b) rest := by
  simp [fetch_wire, fetchHostItem, h]

@[simp] theorem fetch_act (c : Config) (a : HostAct) (rest : List HostItem) : fetch c (.act a :: rest) = .act a rest := rfl

@[simp] theorem fetch_nil (c : Config) : fetch c [] = .idle := rfl

/-- A command whose words are not all there. -/
theorem fetch_incomplete {c : Config} {w0 : Word} (h : decodeCommand [w0] = .more) : fetch c [.word w0] = .idle := by
  simp [fetch, portWords, takeHostAct, h]

theorem takeHostAct_mem {l rest : List HostItem} {x : HostItem} (h : takeHostAct l = some (x, rest)) : x ∈ l := by
  induction l generalizing rest with
  | nil => cases h
  | cons y l ih =>
    cases y with
    | word w =>
      obtain ⟨⟨z, r⟩, hz, he⟩ := Option.map_eq_some_iff.1 h
      cases he
      exact List.mem_cons_of_mem _ (ih hz)
    | wire f b => cases h; exact List.mem_cons_self
    | act a => cases h; exact List.mem_cons_self

/-- An act that is fetched stands among the items, or is the sending of an illegal unit's bytes (R95). -/
theorem fetchHostItem_eq_act {c : Config} {x : HostItem} {rest r : List HostItem} {a : HostAct}
    (h : fetchHostItem c x rest = .act a r) : x = .act a ∨ ∃ b, a = .feed b := by
  cases x with
  | word w => cases h
  | act a' => cases h; exact .inl rfl
  | wire f b =>
    simp only [fetchHostItem] at h
    split at h <;> cases h
    exact .inr ⟨b, rfl⟩

theorem fetch_eq_act {c : Config} {l rest : List HostItem} {a : HostAct} (h : fetch c l = .act a rest) :
    .act a ∈ l ∨ ∃ b, a = .feed b := by
  unfold fetch at h
  split at h
  · cases h
  · cases h
  · split at h
    next x r hx =>
      obtain rfl | hf := fetchHostItem_eq_act h
      · exact .inl (takeHostAct_mem hx)
      · exact .inr hf
    next => cases h

/-! ### Command words (R70) -/

@[simp] theorem opcOf_word0 (opc : BitVec 8) (a : BitVec 24) : opcOf (word0 opc a) = opc :=
  BitVec.extractLsb'_append_eq_left

@[simp] theorem fieldA_word0 (opc : BitVec 8) (a : BitVec 24) : fieldA (word0 opc a) = a :=
  BitVec.extractLsb'_append_eq_right

/-- R72: the opcodes of the formats with more words than one; W0 alone is not a whole command. -/
theorem decodeCommand_incomplete {w0 : Word}
    (h : (opcOf w0).toNat ∈ [0x03, 0x10, 0x13, 0x14, 0x15, 0x21, 0x23, 0x24, 0x25, 0x30, 0x54]) :
    decodeCommand [w0] = .more := by
  simp only [List.mem_cons, List.not_mem_nil, or_false] at h
  rcases h with h | h | h | h | h | h | h | h | h | h | h <;> simp only [decodeCommand, h] <;> rfl

/-! ### Wire units (R80 to R94) -/

theorem decodeWire_lengthExtLast (c : Config) {b : Byte} (hb : b ≠ 255#8) :
    decodeWire c .lengthExt [b] = .ok (.wireLengthExtLast b) := by
  simp [decodeWire, hb]

theorem decodeWire_offset (c : Config) {off : BitVec 16} (h : off ≠ 0#16) :
    decodeWire c .offset (le16 off) = .ok (.wireOffset off) := by
  simp [decodeWire, le16, u16Of_split, h]

theorem decodeWire_magic (c : Config) : decodeWire c .magic (le32 c.magic) = .ok .wireMagic := by
  simp [decodeWire, le32, u32Of_split]

theorem decodeWire_flg {c : Config} (hc : c.flg.valid) (f : HdrFlags) :
    decodeWire c .flg [flgByte c.flg f] = .ok (.wireFlg f.ind f.bck f.csz f.cck f.did) := by
  simp [decodeWire, parseFlg_flgByte hc]

theorem decodeWire_bd {c : Config} (hc : c.bd.valid) (k : BitVec 2) :
    decodeWire c .bd [bdByte c.bd k] =
      .ok (if k = 0#2 then .wireBd64K else if k = 1#2 then .wireBd256K else if k = 2#2 then .wireBd1M else .wireBd4M) := by
  simp [decodeWire, parseBd_bdByte hc]

theorem decodeWire_blockLength (c : Config) {st : Bool} {n : BitVec 31} (h : lengthWord st n ≠ 0#32) :
    decodeWire c .blockLength (le32 (lengthWord st n)) = .ok (.wireBlockLength st n) := by
  simp [decodeWire, le32, u32Of_split, h]

/-- What the encoder presents is fetched as that instruction, and exactly its items are taken (R70, R80 to R94). -/
theorem fetch_encode {c : Config} {i : Instr} (rest : List HostItem) (hc : c.valid) (hi : i.wellFormed = true) :
    fetch c (encode c i ++ rest) = .instr i rest := by
  obtain ⟨-, -, -, -, hflg, hbd, -⟩ := hc
  cases i with
  | csrWr reg value => exact fetch_words [_, _] rest (by simp [decodeCommand, decodeF2])
  | mtInsert h pos => exact fetch_words [_, _] rest (by simp [decodeCommand, decodeF2])
  | mtSeed stride first end_ => exact fetch_words [_, _, _] rest (by simp [decodeCommand, decodeF3])
  | csrRd | mtLookup | decBlock | feStart | feRun => exact fetch_words [_] rest (by simp [decodeCommand])
  | dictLoad | winAppend | winDrop | dinLoad | mtHash | mtShift | encBlock | rdConsume =>
    exact fetch_words [_, _] rest (by simp [decodeCommand, decodeF2Zero])
  | wireToken lit mat => exact fetch_wire_legal rest (by simp [decodeWire])
  | wireLengthExtMore => rfl
  | wireLengthExtLast b => exact fetch_wire_legal rest (decodeWire_lengthExtLast c (by simpa [Instr.wellFormed] using hi))
  | wireOffset off => exact fetch_wire_legal rest (decodeWire_offset c (by simpa [Instr.wellFormed] using hi))
  | wireMagic => exact fetch_wire_legal rest (decodeWire_magic c)
  | wireFlg ind bck csz cck did => exact fetch_wire_legal rest (decodeWire_flg hflg _)
  | wireBd64K => exact fetch_wire_legal rest (decodeWire_bd hbd 0)
  | wireBd256K => exact fetch_wire_legal rest (decodeWire_bd hbd 1)
  | wireBd1M => exact fetch_wire_legal rest (decodeWire_bd hbd 2)
  | wireBd4M => exact fetch_wire_legal rest (decodeWire_bd hbd 3)
  | wireHeaderChecksum b => rfl
  | wireBlockLength stored n =>
    refine fetch_wire_legal rest (decodeWire_blockLength c fun h => ?_)
    obtain ⟨rfl, rfl⟩ := lengthWord_eq_zero.1 h
    cases hi
  | wireEndMark => rfl
  | wireBlockChecksum w => exact fetch_wire_legal rest (by simp [decodeWire, le32, u32Of_split])
  | wireContentChecksum w => exact fetch_wire_legal rest (by simp [decodeWire, le32, u32Of_split])
  | _ => exact fetch_words [_] rest (by simp [decodeCommand, decodeF0])

end Sys2Proof
end

section
/-! SUPPORT. The statements of 00_scope.md: a step is the fetched instruction or act (R8), it never stops the machine (R7,
93 part 1), and the streaming interface of H32 (R12). -/

namespace Sys2Proof.Machine

/-! ### One step -/

theorem step_of_instr {s : State} {i : Instr} {rest : List HostItem} (h : fetch s.cfg s.host.inbox = .instr i rest) :
    step s = exec i (withInbox rest s) := by
  simp [step, h]

theorem step_of_act {s : State} {a : HostAct} {rest : List HostItem} (h : fetch s.cfg s.host.inbox = .act a rest) :
    step s = .next (hostAct a (withInbox rest s)) := by
  simp [step, h]

theorem step_of_idle {s : State} (h : fetch s.cfg s.host.inbox = .idle) : step s = .next s := by
  simp [step, h]

theorem step_of_illegal {s : State} {r : CmdReject} {rest : List HostItem}
    (h : fetch s.cfg s.host.inbox = .illegal r rest) : step s = .next (refuse (withInbox rest s)) := by
  simp [step, h, illegalCommand]

/-- Settles O54: the decoder gives back what the encoder presented. -/
theorem stepRunsDecodedInstruction : Obligations.StepRunsDecodedInstruction := by
  intro s i rest hc hi hbox
  exact step_of_instr (hbox ▸ fetch_encode rest hc hi)

/-- Settles O51: each act of the host is fetched alone, and an incomplete command waits. -/
theorem hostActsBetweenCommands : Obligations.HostActsBetweenCommands := by
  intro s rest b n w0
  refine ⟨fun h => ?_, fun h => ?_, fun h => ?_, fun h => ?_, fun f e h he => ?_, fun h => ?_, fun h hop => ?_⟩
  · exact step_of_act (h ▸ fetch_act ..)
  · exact step_of_act (h ▸ fetch_act ..)
  · exact step_of_act (h ▸ fetch_act ..)
  · exact step_of_act (h ▸ fetch_act ..)
  · exact step_of_act (h ▸ fetch_wire_illegal rest he)
  · exact step_of_idle (h ▸ fetch_nil _)
  · exact step_of_idle (h ▸ fetch_incomplete (decodeCommand_incomplete hop))

/-! ### No step stops the machine -/

/-- Every instruction ends in a next state with the same configuration, draws taken from the front, and SNK grown. -/
theorem exec_next (i : Instr) (s : State) :
    ∃ t, exec i s = .next t ∧ t.cfg = s.cfg ∧ t.host.draws <:+ s.host.draws ∧ s.host.snk <+: t.host.snk := by
  cases hi : i.isCommand with
  | true =>
    obtain ⟨r, t, ht, hk, hc⟩ := exec_command_answers s hi
    exact ⟨respond r t, ht, hc, hk.draws, hk.snk⟩
  | false => exact ⟨_, exec_wire s hi, rfl, List.suffix_rfl, List.prefix_rfl⟩

@[simp] theorem hostAct_cfg (a : HostAct) (s : State) : (hostAct a s).cfg = s.cfg := by cases a <;> rfl

@[simp] theorem hostAct_draws (a : HostAct) (s : State) : (hostAct a s).host.draws = s.host.draws := by cases a <;> rfl

/-- R8: only draining takes bytes from SNK. -/
theorem hostAct_snk (a : HostAct) (s : State) :
    (hostAct a s).host.snk = s.host.snk ∨ ∃ n, a = .drain n ∧ (hostAct a s).host.snk = s.host.snk.drop n := by
  cases a with
  | drain n => exact .inr ⟨n, rfl, rfl⟩
  | feed | skip | collect | powerOn => exact .inl rfl

/-- Settles O57, by what is fetched: an instruction answers, an illegal word is refused, and an act of the host changes its own
port alone. -/
theorem stepsNeverStop : Obligations.StepsNeverStop := by
  intro s
  cases h : fetch s.cfg s.host.inbox with
  | idle => exact ⟨s, step_of_idle h, rfl, List.suffix_rfl, .inl List.prefix_rfl⟩
  | instr i rest =>
    obtain ⟨t, ht, hc, hd, hk⟩ := exec_next i (withInbox rest s)
    exact ⟨t, (step_of_instr h).trans ht, hc, hd, .inl hk⟩
  | illegal r rest => exact ⟨_, step_of_illegal h, rfl, List.suffix_rfl, .inl List.prefix_rfl⟩
  | act a rest =>
    refine ⟨_, step_of_act h, hostAct_cfg .., by simp, ?_⟩
    obtain hs | ⟨n, rfl, hs⟩ := hostAct_snk a (withInbox rest s)
    · exact .inl (hs ▸ List.prefix_rfl)
    · obtain hm | ⟨b, hb⟩ := fetch_eq_act h
      · exact .inr ⟨n, hm, hs⟩
      · cases hb

/-! ### Hashing in pieces -/

theorem hasherWrite_hasherWrite (hs : Hasher) (a b : List Byte) :
    hasherWrite (hasherWrite hs a) b = hasherWrite hs (a ++ b) := by
  simp [hasherWrite]

theorem hasherFinish_hasherWrite_init (c : Config) (seed : Word) (a : List Byte) :
    hasherFinish c (hasherWrite (hasherInit seed) a) = h32 c seed a := by
  simp [hasherFinish, hasherWrite, hasherInit]

/-- Settles O50: a hasher in pieces is the same hasher. -/
theorem hasherPiecesEqualWhole : Obligations.HasherPiecesEqualWhole := by
  intro c seed a b
  exact ⟨by rw [hasherWrite_hasherWrite], hasherFinish_hasherWrite_init c seed a⟩

end Sys2Proof.Machine
end

section
/-! SUPPORT. The statements about the packed registers of 10_state.md: the fields of FE_STATUS, FD_STATUS (R36, R37) and HWCFG
(R39), read off a word that is built as a sum of shifted numbers. -/

namespace Sys2Proof.Machine

/-! ### The fields of a word -/

theorem toNat_extractLsb'_asWord (n : Nat) {start len : Nat} (h : start + len ≤ 32) :
    ((asWord n).extractLsb' start len).toNat = n / 2 ^ start % 2 ^ len := by
  have hsplit : 2 ^ 32 = 2 ^ start * 2 ^ (32 - start) := by rw [← pow_add]; congr 1; omega
  rw [BitVec.extractLsb'_toNat, asWord, BitVec.toNat_ofNat, Nat.shiftRight_eq_div_pow, hsplit, Nat.mod_mul_right_div_self,
    Nat.mod_mod_of_dvd _ (Nat.pow_dvd_pow 2 (by omega))]

theorem extractLsb'_asWord {n v start len : Nat} (h : start + len ≤ 32) (hv : n / 2 ^ start % 2 ^ len = v % 2 ^ len) :
    (asWord n).extractLsb' start len = BitVec.ofNat len v :=
  BitVec.eq_of_toNat_eq (by rw [toNat_extractLsb'_asWord n h, hv, BitVec.toNat_ofNat])

theorem extractLsb'_asWord_eq_zero {n start len : Nat} (h : start + len ≤ 32) (hv : n / 2 ^ start % 2 ^ len = 0) :
    (asWord n).extractLsb' start len = 0 :=
  extractLsb'_asWord h (hv.trans (Nat.zero_mod _).symm)

theorem getLsbD_asWord_eq_false {n i : Nat} (h : i < 32) (hv : n / 2 ^ i % 2 = 0) : (asWord n).getLsbD i = false := by
  rw [asWord, BitVec.getLsbD_ofNat, decide_eq_true h, Bool.true_and, Nat.testBit_eq_decide_div_mod_eq, hv]
  rfl

/-! ### The numbers fit their fields (R30, R31, R240, R242) -/

theorem feStateNum_lt (st : FeState) : feStateNum st < 8 := by cases st <;> decide

theorem fdStateNum_lt (st : FdState) : fdStateNum st < 8 := by cases st <;> decide

theorem errField_lt : ∀ e : Option ErrKind, errField e < 16
  | none => by decide
  | some k => by cases k <;> decide

theorem subField_lt : ∀ u : Option SubCause, subField u < 16
  | none => by decide
  | some c => by cases c <;> decide

/-! ### The status registers (R36, R37) -/

theorem feStatus_fields (fe : FeRec) :
    (feStatus fe).extractLsb' 0 3 = BitVec.ofNat 3 (feStateNum fe.state) ∧ (feStatus fe).getLsbD 3 = false ∧
    (feStatus fe).extractLsb' 4 4 = BitVec.ofNat 4 (errField fe.err) ∧ (feStatus fe).extractLsb' 8 24 = 0 := by
  have hst := feStateNum_lt fe.state
  have herr := errField_lt fe.err
  refine ⟨extractLsb'_asWord ?_ ?_, getLsbD_asWord_eq_false ?_ ?_, extractLsb'_asWord ?_ ?_,
    extractLsb'_asWord_eq_zero ?_ ?_⟩ <;> omega

theorem fdStatus_fields (fd : FdRec) :
    (fdStatus fd).extractLsb' 0 3 = BitVec.ofNat 3 (fdStateNum fd.state) ∧ (fdStatus fd).getLsbD 3 = false ∧
    (fdStatus fd).extractLsb' 4 4 = BitVec.ofNat 4 (errField fd.err) ∧
    (fdStatus fd).extractLsb' 8 4 = BitVec.ofNat 4 (subField fd.sub) ∧ (fdStatus fd).extractLsb' 12 20 = 0 := by
  have hst := fdStateNum_lt fd.state
  have herr := errField_lt fd.err
  have hsub := subField_lt fd.sub
  refine ⟨extractLsb'_asWord ?_ ?_, getLsbD_asWord_eq_false ?_ ?_, extractLsb'_asWord ?_ ?_, extractLsb'_asWord ?_ ?_,
    extractLsb'_asWord_eq_zero ?_ ?_⟩ <;> omega

/-- Settles O4: the numbers as R30, R31, R240 and R242 list them, each in its own field. -/
theorem statusRegisterFields : Obligations.StatusRegisterFields :=
  ⟨by decide, by decide, by decide, by decide, by decide, by decide,
    fun s => ⟨feStatus_fields s.fe, fdStatus_fields s.fd⟩⟩

/-! ### HWCFG (R39) -/

theorem hwcfg_parameters {c : Config} (hc : c.valid) :
    ((hwcfg c).extractLsb' 0 5).toNat = c.hashLog ∧ ((hwcfg c).extractLsb' 8 5).toNat = c.hcShift ∧
    ((hwcfg c).extractLsb' 16 8).toNat = c.seedStride := by
  obtain ⟨hlog, -, hstride, hshift, -⟩ := hc
  refine ⟨?_, ?_, ?_⟩ <;> rw [hwcfg, toNat_extractLsb'_asWord _ (by omega)] <;> omega

theorem hwcfg_other_bits (c : Config) :
    (hwcfg c).extractLsb' 5 3 = 0 ∧ (hwcfg c).extractLsb' 13 3 = 0 ∧ (hwcfg c).extractLsb' 24 8 = 0 := by
  refine ⟨extractLsb'_asWord_eq_zero ?_ ?_, extractLsb'_asWord_eq_zero ?_ ?_, extractLsb'_asWord_eq_zero ?_ ?_⟩ <;> omega

/-- Settles O5: a valid configuration's parameters fit their fields, so no field cuts one off. -/
theorem hwcfgShowsParameters : Obligations.HwcfgShowsParameters := by
  refine ⟨fun c hc => ?_, by decide⟩
  obtain ⟨hlog, hshift, hstride⟩ := hwcfg_parameters hc
  exact ⟨hlog, hshift, hstride, hwcfg_other_bits c⟩

end Sys2Proof.Machine
end

section
/-! SUPPORT. The invariant of the machine (R24, R30, R31, R63, R110, R170, R199): one rule per change of the state that the raw
commands and FD make, and the rule of the failure entry (R250). The invariant does not read the host's side, so a change of the
host's side keeps it by definition. -/

namespace Sys2Proof.Machine

variable {s : State}

/-! ### Parts of the invariant -/

theorem Inv.t_wf (h : Inv s) : tableWf s.cfg s.t = true := by
  obtain ⟨-, ⟨ht, -⟩, -⟩ := h
  exact ht

theorem Inv.tpl_wf (h : Inv s) : tableWf s.cfg s.tpl = true := by
  obtain ⟨-, ⟨-, ht⟩, -⟩ := h
  exact ht

theorem Inv.buffersFit (h : Inv s) : BuffersFit s := by
  obtain ⟨-, -, hb, -⟩ := h
  exact hb

theorem Inv.dinCap_le_outCap (h : Inv s) : s.cfg.dinCap ≤ s.cfg.outCap := by
  obtain ⟨⟨-, -, -, -, -, -, -, -, -, hcap, -⟩, -⟩ := h
  exact hcap

theorem Inv.win_length_le (h : Inv s) : s.win.length ≤ Config.winCap := by
  obtain ⟨hwin, -⟩ := h.buffersFit
  exact hwin

theorem Inv.dwin_eq_nil (h : Inv s) (ha : fdActive s = true) (hi : s.fd.ind = true) : s.dwin = [] := by
  obtain ⟨-, -, -, -, -, -, hopen⟩ := h
  obtain ⟨-, -, hind, -⟩ := hopen ha
  exact hind hi

theorem Inv.out_length_le_bmax (h : Inv s) (ha : fdActive s = true) : s.out.length ≤ s.fd.bmax := by
  obtain ⟨-, -, -, -, -, -, hopen⟩ := h
  obtain ⟨-, -, -, hmax⟩ := hopen ha
  exact hmax

/-- While FE has no open frame, its part of the invariant is about the record alone. -/
theorem feOk_of_not_active {s t : State} (h : FeOk s) (hn : ¬ feActive s = true) (ht : t.fe = s.fe) : FeOk t := by
  obtain ⟨hterm, htrail, herr, hfail, hlen, -⟩ := h
  simp only [feActive, FeOk, ht] at hn ⊢
  exact ⟨hterm, htrail, herr, hfail, hlen, fun ha => absurd ha hn⟩

/-! ### One rule per change of device state -/

theorem Inv.setT {t : Table} (h : Inv s) (hn : ¬ feActive s = true) (ht : tableWf s.cfg t = true) :
    Inv { s with t := t } := by
  obtain ⟨hc, ⟨-, htpl⟩, hb, hfe, hfd⟩ := h
  exact ⟨hc, ⟨ht, htpl⟩, hb, feOk_of_not_active hfe hn rfl, hfd⟩

theorem Inv.setTpl {t : Table} (h : Inv s) (hn : ¬ feActive s = true) (ht : tableWf s.cfg t = true) :
    Inv { s with tpl := t } := by
  obtain ⟨hc, ⟨hwf, -⟩, hb, hfe, hfd⟩ := h
  exact ⟨hc, ⟨hwf, ht⟩, hb, feOk_of_not_active hfe hn rfl, hfd⟩

theorem Inv.setWin {w : List Byte} (h : Inv s) (hn : ¬ feActive s = true) (hw : w.length ≤ Config.winCap) :
    Inv { s with win := w } := by
  obtain ⟨hc, ht, ⟨-, hb⟩, hfe, hfd⟩ := h
  exact ⟨hc, ht, ⟨hw, hb⟩, feOk_of_not_active hfe hn rfl, hfd⟩

theorem Inv.setSink {k : List Byte} (h : Inv s) (hk : k.length ≤ Config.blockMax 3) : Inv { s with sink := k } := by
  obtain ⟨hc, ht, ⟨hwin, -, hb⟩, hfe, hfd⟩ := h
  exact ⟨hc, ht, ⟨hwin, hk, hb⟩, hfe, hfd⟩

theorem Inv.setDin {d : List Byte} (h : Inv s) (hd : d.length ≤ s.cfg.dinCap) : Inv { s with din := d } := by
  obtain ⟨hc, ht, ⟨hwin, hsink, -, hb⟩, hfe, hfd⟩ := h
  exact ⟨hc, ht, ⟨hwin, hsink, hd, hb⟩, hfe, hfd⟩

theorem Inv.setDict {d : List Byte} (h : Inv s) (hd : d.length ≤ Config.dictCap) : Inv { s with dict := d } := by
  obtain ⟨hc, ht, ⟨hwin, hsink, hdin, hout, hdwin, -, hrpos⟩, hfe, hfd⟩ := h
  exact ⟨hc, ht, ⟨hwin, hsink, hdin, hout, hdwin, hd, hrpos⟩, hfe, hfd⟩

/-- The rule of OUT and RPOS: within an open frame OUT also keeps to the class maximum (R188). -/
theorem Inv.setOut {o : List Byte} {r : Nat} (h : Inv s) (ho : o.length ≤ s.cfg.outCap) (hr : r ≤ o.length)
    (hmax : fdActive s = true → o.length ≤ s.fd.bmax) : Inv { s with out := o, rpos := r } := by
  obtain ⟨hc, ht, ⟨hwin, hsink, hdin, -, hdwin, hdict, -⟩, hfe, hfail, hsub, hopen⟩ := h
  refine ⟨hc, ht, ⟨hwin, hsink, hdin, ho, hdwin, hdict, hr⟩, hfe, hfail, hsub, fun ha => ?_⟩
  obtain ⟨hclass, hch, hind, -⟩ := hopen ha
  exact ⟨hclass, hch, hind, hmax ha⟩

theorem Inv.clearOut (h : Inv s) : Inv { s with out := [], rpos := 0 } :=
  h.setOut (Nat.zero_le _) (Nat.zero_le _) fun _ => Nat.zero_le _

/-- The rule of DWIN: within an open frame in independent mode it stays empty (R189). -/
theorem Inv.setDwin {d : List Byte} (h : Inv s) (hd : d.length ≤ Config.windowSize)
    (hind : fdActive s = true → s.fd.ind = true → d = []) : Inv { s with dwin := d } := by
  obtain ⟨hc, ht, ⟨hwin, hsink, hdin, hout, -, hb⟩, hfe, hfail, hsub, hopen⟩ := h
  refine ⟨hc, ht, ⟨hwin, hsink, hdin, hout, hd, hb⟩, hfe, hfail, hsub, fun ha => ?_⟩
  obtain ⟨hclass, hch, -, hmax⟩ := hopen ha
  exact ⟨hclass, hch, hind ha, hmax⟩

theorem Inv.mapFdHasher (f : Hasher → Hasher) (h : Inv s) : Inv { s with fd := { s.fd with ch := s.fd.ch.map f } } := by
  obtain ⟨hc, ht, hb, hfe, hfail, hsub, hopen⟩ := h
  refine ⟨hc, ht, hb, hfe, hfail, hsub, fun ha => ?_⟩
  obtain ⟨hclass, hch, hrest⟩ := hopen ha
  exact ⟨hclass, Option.isSome_map.trans hch, hrest⟩

/-- The end of a frame (R190): an open frame has no error to keep. -/
theorem Inv.finishFd (h : Inv s) (ha : fdActive s = true) : Inv { s with fd := { s.fd with state := .finished } } := by
  obtain ⟨hc, ht, hb, hfe, hfail, hsub, -⟩ := h
  have hst : s.fd.state = .blocks := by simpa [fdActive] using ha
  have herr : ¬ s.fd.err.isSome = true := by simp [← hfail, hst]
  exact ⟨hc, ht, hb, hfe, ⟨nofun, fun he => absurd he herr⟩, hsub, nofun⟩

theorem resetDevice_inv (h : Inv s) : Inv (resetDevice s) := by
  obtain ⟨hc, -⟩ := h
  refine ⟨hc, reset_tablesWf, ?_, ?_, ?_⟩
  · exact ⟨Nat.zero_le _, Nat.zero_le _, Nat.zero_le _, Nat.zero_le _, Nat.zero_le _, Nat.zero_le _, le_rfl⟩
  · exact ⟨nofun, nofun, .inl rfl, ⟨nofun, nofun⟩, Nat.zero_le _, nofun⟩
  · exact ⟨⟨nofun, nofun⟩, nofun, nofun⟩

theorem csrWrite_inv {reg : BitVec 24} {value : Word} {t : State} (h : Inv s) (hw : csrWrite reg value s = some t) :
    Inv t := by
  unfold csrWrite at hw
  split at hw <;> cases hw <;> exact h

/-! ### The failure entry (R250) -/

/-- FD's failure entry empties OUT and takes any error kind; a sub-cause comes with RawCodecCorruption only (R242). -/
theorem Inv.failureEntry_fd {k : ErrKind} {u : Option SubCause} (h : Inv s)
    (hu : u.isSome = true → k = .rawCodecCorruption) : Inv (failureEntry .fd k u s) := by
  obtain ⟨hc, ht, hb, hfe, -⟩ := h.clearOut
  exact ⟨hc, ht, hb, hfe, ⟨fun _ => rfl, fun _ => rfl⟩, fun hs => congrArg some (hu hs), nofun⟩

/-- A raw command's failure leaves the units' records as they are (R225). -/
theorem Inv.failureEntry_raw {k : ErrKind} {u : Option SubCause} (h : Inv s) : Inv (failureEntry .raw k u s) := h

/-! ### Runs of pseudocode -/

/-- A piece of pseudocode of a unit ends with a value and the state in `P`, or raises an error in a state from which the unit's
failure entry leads to the invariant. -/
def Run.Meets {α : Type} (unit : ErrUnit) (P : α → State → Prop) : Run α → Prop
  | .done a t => P a t
  | .raised k u t => Inv (failureEntry unit k u t)

theorem Run.Meets.bind {α β : Type} {unit : ErrUnit} {P : α → State → Prop} {Q : β → State → Prop} {r : Run α}
    {f : α → State → Run β} (h : r.Meets unit P) (hf : ∀ a t, P a t → (f a t).Meets unit Q) : (r.bind f).Meets unit Q := by
  cases r with
  | done a t => exact hf a t h
  | raised k u t => exact h

theorem Run.Meets.imp {α : Type} {unit : ErrUnit} {P Q : α → State → Prop} {r : Run α} (h : r.Meets unit P)
    (hPQ : ∀ a t, P a t → Q a t) : r.Meets unit Q := by
  cases r with
  | done a t => exact hPQ a t h
  | raised k u t => exact h

theorem Run.Meets.finishRun {unit : ErrUnit} {r : Run Response} (h : r.Meets unit fun _ => Inv) :
    Inv (finishRun unit r) := by
  cases r with
  | done a t => exact h
  | raised k u t => exact h

/-- The two states differ at most in the host's side. -/
def SameDevice (s t : State) : Prop := ∃ g, t = { s with host := g }

theorem PortsOnly.sameDevice {t : State} (h : PortsOnly s t) : SameDevice s t := by
  obtain ⟨src, snk, draws, ht, -⟩ := h
  exact ⟨_, ht⟩

/-- No failure entry reads the host's side. -/
theorem failureEntry_inv_host {unit : ErrUnit} {k : ErrKind} {u : Option SubCause} (g : HostSide)
    (h : Inv (failureEntry unit k u s)) : Inv (failureEntry unit k u { s with host := g }) := by
  cases unit <;> exact h

/-- A transfer raises IoFailure in the state it began in, but for the ports (R56); so do the two below. -/
theorem srcRead_meets {unit : ErrUnit} {P : List Byte → State → Prop} {n : Nat}
    (he : Inv (failureEntry unit .ioFailure none s)) (hP : ∀ v g, v.length = n → P v { s with host := g }) :
    (srcRead n s).Meets unit P := by
  obtain ⟨v, t, h, hp, hv, -⟩ | ⟨t, h, hp⟩ := srcRead_cases n s <;> obtain ⟨g, rfl⟩ := hp.sameDevice <;> rw [h]
  · exact hP v g hv
  · exact failureEntry_inv_host g he

theorem srcReadUpTo_meets {unit : ErrUnit} {P : List Byte → State → Prop} {n : Nat}
    (he : Inv (failureEntry unit .ioFailure none s)) (hP : ∀ v g, v.length ≤ n → P v { s with host := g }) :
    (srcReadUpTo n s).Meets unit P := by
  obtain ⟨t, h, hp, -⟩ | ⟨t, h, hp⟩ := srcReadUpTo_cases n s <;> obtain ⟨g, rfl⟩ := hp.sameDevice <;> rw [h]
  · exact hP _ g (List.length_take_le ..)
  · exact failureEntry_inv_host g he

theorem snkWrite_meets {unit : ErrUnit} {P : Unit → State → Prop} {v : List Byte}
    (he : Inv (failureEntry unit .ioFailure none s)) (hP : ∀ g, P () { s with host := g }) :
    (snkWrite v s).Meets unit P := by
  obtain ⟨t, h, hp⟩ | ⟨t, h, hp⟩ := snkWrite_cases v s <;> obtain ⟨g, rfl⟩ := hp.sameDevice <;> rw [h]
  · exact hP g
  · exact failureEntry_inv_host g he

end Sys2Proof.Machine
end

section
/-! SUPPORT. The frame decoder keeps the invariant (R31, R188, R189, R199): it holds between any two pieces of FD's pseudocode, and
every error raised there goes through the failure entry. -/

namespace Sys2Proof.Machine

variable {s : State}

/-! ### FD.OPEN (R181) -/

theorem openClear_inv (h : Inv s) : Inv (openClear s) := by
  obtain ⟨hc, ht, ⟨hwin, hsink, -, -, -, hdict, -⟩, hfe, -⟩ := h
  refine ⟨hc, ht, ⟨hwin, hsink, ?_, ?_, ?_, hdict, le_rfl⟩, hfe, ⟨nofun, nofun⟩, nofun, nofun⟩ <;> exact Nat.zero_le _

/-- A header accepted after the clearing opens a frame: its window is empty in independent mode, else the dictionary. -/
theorem openHeader_inv (f : HdrFlags) (k : BitVec 2) (flg bd : Byte) (cs di : List Byte) (g : HostSide) (h : Inv s) :
    Inv (openHeader f k flg bd cs di { openClear s with host := g }) := by
  obtain ⟨hc, ht, ⟨hwin, hsink, hdin, hout, -, hdict, hrpos⟩, hfe, -⟩ := openClear_inv h
  refine ⟨hc, ht, ⟨hwin, hsink, hdin, hout, ?_, hdict, hrpos⟩, hfe, ⟨nofun, nofun⟩, nofun, fun _ => ⟨⟨k, rfl⟩, ?_, ?_, ?_⟩⟩
  · dsimp only [openHeader]
    split
    · exact Nat.zero_le _
    · exact hdict
  · dsimp only [openHeader]
    cases f.cck <;> rfl
  · exact fun hi => if_pos hi
  · exact Nat.zero_le _

theorem srcRead_sameDevice {unit : ErrUnit} {t : State} (n : Nat) (he : Inv (failureEntry unit .ioFailure none s))
    (ht : SameDevice s t) : (srcRead n t).Meets unit fun _ => SameDevice s := by
  obtain ⟨g, rfl⟩ := ht
  exact srcRead_meets (failureEntry_inv_host g he) fun _ g' _ => ⟨g', rfl⟩

theorem readOptional_sameDevice {unit : ErrUnit} {t : State} (present : Bool) (n : Nat)
    (he : Inv (failureEntry unit .ioFailure none s)) (ht : SameDevice s t) :
    (readOptional present n t).Meets unit fun _ => SameDevice s := by
  unfold readOptional
  split
  · exact srcRead_sameDevice n he ht
  · exact ht

/-- The reads of a header change no device state, so every error is raised in the cleared state and a valid header is accepted
in it. -/
theorem fdOpenRun_meets (h : Inv s) : (fdOpenRun s).Meets .fd fun _ t => Inv t ∧ fdActive t = true := by
  have he : ∀ k, Inv (failureEntry .fd k none (openClear s)) := fun k => (openClear_inv h).failureEntry_fd nofun
  have hraise : ∀ {k t}, SameDevice (openClear s) t → Inv (failureEntry .fd k none t) := by
    rintro k _ ⟨g, rfl⟩
    exact failureEntry_inv_host g (he k)
  refine (srcRead_sameDevice 4 (he _) ⟨_, rfl⟩).bind fun m s1 h1 => ?_
  split
  · exact hraise h1
  refine (srcRead_sameDevice 2 (he _) h1).bind fun fb s2 h2 => ?_
  split
  · exact hraise h2
  split
  · exact hraise h2
  refine (readOptional_sameDevice _ 8 (he _) h2).bind fun cs s3 h3 => ?_
  refine (readOptional_sameDevice _ 4 (he _) h3).bind fun di s4 h4 => ?_
  refine (srcRead_sameDevice 1 (he _) h4).bind fun hc s5 h5 => ?_
  dsimp only
  split
  · exact hraise h5
  · obtain ⟨g, rfl⟩ := h5
    exact ⟨openHeader_inv _ _ _ _ _ _ g h, rfl⟩

/-! ### FD.BLOCK (R184) -/

/-- What FD.BLOCK leaves: the invariant, and the frame still open after every data block. -/
def BlockRead (r : Response) (t : State) : Prop := Inv t ∧ (r ≠ endResponse → fdActive t = true)

theorem fdEndRun_meets (h : Inv s) (ha : fdActive s = true) : (fdEndRun s).Meets .fd BlockRead := by
  unfold fdEndRun
  split
  · exact ⟨h.finishFd ha, fun hr => absurd rfl hr⟩
  refine (srcRead_meets (P := fun _ t => Inv t ∧ fdActive t = true) (h.failureEntry_fd nofun) fun _ _ _ => ⟨h, ha⟩).bind ?_
  rintro t s1 ⟨h, ha⟩
  split
  · exact h.failureEntry_fd nofun
  · exact ⟨h.finishFd ha, fun hr => absurd rfl hr⟩

theorem checkBlockRun_meets {P : Unit → State → Prop} (h : Inv s) (hP : ∀ g, P () { s with host := g }) :
    (checkBlockRun s).Meets .fd P := by
  unfold checkBlockRun
  split
  · refine (srcRead_sameDevice 4 (h.failureEntry_fd nofun) ⟨s.host, rfl⟩).bind ?_
    rintro c _ ⟨g, rfl⟩
    split
    · exact failureEntry_inv_host g (h.failureEntry_fd nofun)
    · exact hP g
  · exact hP s.host

/-- R188: stored bytes fit OUT because DIN does, decoded ones because the decoder stops at the capacity. -/
theorem blockOutput_length {stored : Bool} {o : List Byte} (h : Inv s) (ho : blockOutput stored s = .ok o) :
    o.length ≤ s.cfg.outCap := by
  obtain ⟨-, -, hdin, -⟩ := h.buffersFit
  unfold blockOutput at ho
  split at ho
  · cases ho
    exact hdin.trans h.dinCap_le_outCap
  · exact decBlock_length ho

theorem deliverRun_meets {o : List Byte} (h : Inv s) (ha : fdActive s = true) (hr : s.rpos = 0)
    (ho : o.length ≤ s.cfg.outCap) : (deliverRun o s).Meets .fd BlockRead := by
  have hd : Inv { s with dwin := if s.fd.ind then s.dwin else lastK Config.windowSize (s.dwin ++ o) } := by
    obtain ⟨-, -, -, -, hdwin, -⟩ := h.buffersFit
    refine h.setDwin ?_ fun _ hi => (if_pos hi).trans (h.dwin_eq_nil ha hi)
    split
    · exact hdwin
    · exact (lastK_length ..).trans_le (min_le_right ..)
  unfold deliverRun
  dsimp only
  split
  next => exact hd.failureEntry_fd nofun
  next hmax => exact ⟨(hd.setOut ho (hr.trans_le (Nat.zero_le _)) fun _ => not_lt.1 hmax).mapFdHasher _, fun _ => ha⟩

theorem fdDataRun_meets (w : Word) (h : Inv s) (ha : fdActive s = true) (hr : s.rpos = 0) :
    (fdDataRun w s).Meets .fd BlockRead := by
  unfold fdDataRun
  split
  next => exact h.failureEntry_fd nofun
  next hcap =>
    refine (srcRead_meets (P := fun b t => Inv { t with din := b } ∧ fdActive t = true ∧ t.rpos = 0)
      (h.failureEntry_fd nofun) fun b g hb => ⟨h.setDin (hb.trans_le (not_lt.1 hcap)), ha, hr⟩).bind ?_
    rintro b s1 ⟨h, ha, hr⟩
    refine (checkBlockRun_meets (P := fun _ t => Inv t ∧ fdActive t = true ∧ t.rpos = 0) h fun _ => ⟨h, ha, hr⟩).bind ?_
    rintro - s2 ⟨h, ha, hr⟩
    split
    next => exact h.failureEntry_fd fun _ => rfl
    next ho => exact deliverRun_meets h ha hr (blockOutput_length h ho)

theorem fdBlockRun_meets (h : Inv s) (ha : fdActive s = true) : (fdBlockRun s).Meets .fd BlockRead := by
  have h0 : Inv { s with out := [], rpos := 0, din := [] } := h.clearOut.setDin (Nat.zero_le _)
  refine (srcRead_meets (P := fun _ t => Inv t ∧ fdActive t = true ∧ t.rpos = 0) (h0.failureEntry_fd nofun)
    fun _ _ _ => ⟨h0, ha, rfl⟩).bind ?_
  rintro lw s1 ⟨h, ha, hr⟩
  split
  · exact fdEndRun_meets h ha
  · exact fdDataRun_meets _ h ha hr

/-- FD.BLOCK in its two states: in Finished it only empties OUT. -/
theorem fdBlockAny_meets (h : Inv s) (hs : s.fd.state = .finished ∨ s.fd.state = .blocks) :
    (fdBlockAny s).Meets .fd fun _ => Inv := by
  unfold fdBlockAny
  split
  next => exact h.clearOut
  next hf =>
    have ha : fdActive s = true := beq_iff_eq.2 (hs.resolve_left hf)
    exact (fdBlockRun_meets h ha).imp fun _ _ ht => ht.1

/-! ### FD.ALL and RD.FILL (R192, R193) -/

theorem fdAllLoop_meets (turns k : Nat) (h : Inv s) (ha : fdActive s = true) :
    (fdAllLoop turns k s).Meets .fd fun _ => Inv := by
  induction turns generalizing k s with
  | zero => exact h
  | succ turns ih =>
    refine (fdBlockRun_meets h ha).bind ?_
    rintro r s1 ⟨h, ha⟩
    split
    next => exact h
    next hr =>
      refine (snkWrite_meets (P := fun _ t => Inv t ∧ fdActive t = true) (h.failureEntry_fd nofun)
        fun _ => ⟨h, ha hr⟩).bind ?_
      rintro - s2 ⟨h, ha⟩
      exact ih (k + 1) h ha

theorem fdAllRun_meets (h : Inv s) : (fdAllRun s).Meets .fd fun _ => Inv := by
  refine (fdOpenRun_meets h).bind ?_
  rintro - s1 ⟨h, ha⟩
  exact (fdAllLoop_meets _ 0 h ha).bind fun _ _ ht => ht

theorem rdFillRun_meets (h : Inv s) (hs : s.fd.state = .finished ∨ s.fd.state = .blocks) :
    (rdFillRun s).Meets .fd fun _ => Inv := by
  unfold rdFillRun
  split
  · exact h
  · refine (fdBlockAny_meets h hs).bind fun _ s1 h => ?_
    split <;> exact h

end Sys2Proof.Machine
end

section
/-! SUPPORT. The frame encoder keeps the invariant (R30, R110, R166, R169, R170). Inside FE.BLOCK the window is longer than the
invariant allows, so the pieces there keep a weaker property, from which PostBlock restores it. -/

namespace Sys2Proof.Machine

variable {s : State}

/-- A frame that FE has open, between any two pieces of its pseudocode: the window may hold the block being written, and in
independent mode the dictionary still stands at its front. -/
structure FrameOpen (s : State) : Prop where
  valid : s.cfg.valid
  tables : TablesWf s
  buffers : BuffersFit s
  fd : FdOk s
  err : s.fe.err = none
  dlen : s.fe.dlen ≤ Config.dictCap
  below : tableBelow s.win.length s.t = true
  hasher : s.fe.ch.isSome = setCck s.fe.set
  ind : setInd s.fe.set = true → s.fe.dlen ≤ s.win.length ∧ tableBelow s.fe.dlen s.tpl = true

theorem FrameOpen.withHost (h : FrameOpen s) (g : HostSide) : FrameOpen { s with host := g } := by
  obtain ⟨hc, ht, hb, hfd, herr, hlen, hbelow, hch, hind⟩ := h
  exact ⟨hc, ht, hb, hfd, herr, hlen, hbelow, hch, hind⟩

theorem FrameOpen.withState (h : FrameOpen s) (st : FeState) : FrameOpen { s with fe := { s.fe with state := st } } := by
  obtain ⟨hc, ht, hb, hfd, herr, hlen, hbelow, hch, hind⟩ := h
  exact ⟨hc, ht, hb, hfd, herr, hlen, hbelow, hch, hind⟩

theorem Inv.frameOpen (h : Inv s) (ha : feActive s = true) : FrameOpen s := by
  obtain ⟨hc, ht, hb, ⟨-, -, herr, hfail, hlen, hopen⟩, hfd⟩ := h
  obtain ⟨-, hbelow, hch, hind⟩ := hopen ha
  have hst : s.fe.state ≠ .failed := fun he => by simp [feActive, he] at ha
  refine ⟨hc, ht, hb, hfd, herr.resolve_right fun he => hst (hfail.2 he), hlen, hbelow, hch, fun hi => ?_⟩
  obtain ⟨hlen, htpl⟩ := hind hi
  exact ⟨hlen.ge, hlen ▸ htpl⟩

/-- Between blocks the window is within its bound (R170) and, in independent mode, no more than the dictionary (R166). -/
theorem FrameOpen.inv (h : FrameOpen s) (ha : feActive s = true) (hw : s.win.length ≤ Config.windowSize)
    (hi : setInd s.fe.set = true → s.win.length = s.fe.dlen) : Inv s := by
  obtain ⟨hc, ht, hb, hfd, herr, hlen, hbelow, hch, hind⟩ := h
  have hst : s.fe.state = .headerWritten ∨ s.fe.state = .blockLoop := by simpa [feActive] using ha
  refine ⟨hc, ht, hb, ⟨?_, ?_, .inl herr, ?_, hlen, fun _ => ⟨hw, hbelow, hch, fun h => ⟨hi h, hi h ▸ (hind h).2⟩⟩⟩, hfd⟩
  · rcases hst with hst | hst <;> simp [hst]
  · rcases hst with hst | hst <;> simp [hst]
  · rcases hst with hst | hst <;> simp [hst, herr]

/-- FE's failure entry closes the frame, so what the invariant says of an open one need not hold before it. -/
theorem failureEntry_fe_inv (hc : s.cfg.valid) (ht : TablesWf s) (hb : BuffersFit s) (hfd : FdOk s)
    (hlen : s.fe.dlen ≤ Config.dictCap) : Inv (failureEntry .fe .ioFailure none s) :=
  ⟨hc, ht, hb, ⟨nofun, nofun, .inr rfl, ⟨fun _ => rfl, fun _ => rfl⟩, hlen, nofun⟩, hfd⟩

theorem FrameOpen.failureEntry_inv (h : FrameOpen s) : Inv (failureEntry .fe .ioFailure none s) :=
  failureEntry_fe_inv h.valid h.tables h.buffers h.fd h.dlen

theorem snkWrite_frameOpen (v : List Byte) (h : FrameOpen s) : (snkWrite v s).Meets .fe fun _ => FrameOpen :=
  snkWrite_meets h.failureEntry_inv h.withHost

/-! ### FE.START (R161) -/

/-- R163: the seeded table is canonical, and its entries point into the dictionary. -/
theorem seededTable_wf (c : Config) {dict : List Byte} (hd : dict.length ≤ Config.dictCap) :
    tableWf c (seededTable c dict) = true ∧ tableBelow dict.length (seededTable c dict) = true :=
  ⟨tableWf_tableSeed _ _ _ (hd.trans (by decide)) _ (tableWf_nil c), tableBelow_tableSeed _ _ _ le_rfl _ (tableBelow_nil _)⟩

theorem feStartRun_meets (mode : BitVec 24) (h : Inv s) :
    (feStartRun mode s).Meets .fe fun _ t => Inv t ∧ feActive t = true := by
  obtain ⟨hc, ht, hb, ⟨-, -, -, -, hlen, -⟩, hfd⟩ := h
  refine Run.Meets.bind
    (P := fun _ => SameDevice { s with fe := { s.fe with set := s.settings, err := none, ch := none } })
    (snkWrite_meets (failureEntry_fe_inv hc ht hb hfd hlen) fun g => ⟨g, rfl⟩) ?_
  rintro - _ ⟨g, rfl⟩
  obtain ⟨-, -, hdin, hout, hdwin, hdict, hrpos⟩ := hb
  obtain ⟨hwf, hbelow⟩ := seededTable_wf s.cfg hdict
  refine ⟨FrameOpen.inv ⟨hc, ⟨hwf, hwf⟩, ⟨?_, ?_, hdin, hout, hdwin, hdict, hrpos⟩, hfd, rfl, hdict, hbelow, ?_,
    fun _ => ⟨le_rfl, hbelow⟩⟩ rfl hdict fun _ => rfl, rfl⟩
  · exact hdict.trans (by decide)
  · exact Nat.zero_le _
  · dsimp only
    cases setCck s.settings <;> rfl

/-! ### FE.BLOCK (R164) -/

/-- The state when a block has been coded and nothing of it is written yet. -/
def blockCoded (chunk : List Byte) (s : State) : State :=
  let enc := encBlock s.cfg (s.win ++ chunk) s.win.length s.t
  { s with
    win := s.win ++ chunk, t := enc.2, sink := enc.1.getD []
    fe := { s.fe with ch := s.fe.ch.map fun hs => hasherWrite hs chunk } }

/-- R120: SINK is no longer than the block, whether a code was found or not. -/
theorem encBlock_sink_length (c : Config) (win chunk : List Byte) (t : Table) :
    ((encBlock c (win ++ chunk) win.length t).1.getD []).length ≤ chunk.length := by
  cases h : (encBlock c (win ++ chunk) win.length t).1 with
  | none => exact Nat.zero_le _
  | some code => simpa using encBlock_length (Prod.ext h rfl)

/-- The retained window and a block fit WIN together (R170), and the scan enters positions of that window only (R110). -/
theorem FrameOpen.blockCoded {chunk : List Byte} (h : FrameOpen s) (hw : s.win.length ≤ Config.windowSize)
    (hchunk : chunk.length ≤ Config.blockMax 3) : FrameOpen (blockCoded chunk s) := by
  obtain ⟨hc, ⟨hwf, htpl⟩, ⟨-, -, hb⟩, hfd, herr, hlen, hbelow, hch, hind⟩ := h
  have hgrow : s.win.length ≤ (s.win ++ chunk).length := (List.prefix_append ..).length_le
  have hcap : (s.win ++ chunk).length ≤ Config.winCap := by
    rw [List.length_append]
    exact (Nat.add_le_add hw hchunk).trans (by decide)
  refine ⟨hc, ⟨tableWf_encBlock (hcap.trans (by decide)) hwf, htpl⟩, ⟨hcap, ?_, hb⟩, hfd, herr, hlen, ?_,
    Option.isSome_map.trans hch, fun hi => ?_⟩
  · exact (encBlock_sink_length ..).trans hchunk
  · exact tableBelow_encBlock (tableBelow_mono hbelow hgrow)
  · obtain ⟨hle, htpl⟩ := hind hi
    exact ⟨hle.trans hgrow, htpl⟩

/-- PostBlock (R166) in independent mode cuts WIN back to the dictionary and takes the table saved for it. -/
theorem FrameOpen.cutToDict (h : FrameOpen s) (hi : setInd s.fe.set = true) :
    FrameOpen { s with win := s.win.take s.fe.dlen, t := s.tpl } ∧ (s.win.take s.fe.dlen).length = s.fe.dlen := by
  obtain ⟨hc, ⟨-, htpl⟩, ⟨hwin, hb⟩, hfd, herr, hlen, -, hch, hind⟩ := h
  obtain ⟨hle, hbelow⟩ := hind hi
  have htake : (s.win.take s.fe.dlen).length = s.fe.dlen := by simpa using hle
  exact ⟨⟨hc, ⟨htpl, htpl⟩, ⟨(htake.trans_le hle).trans hwin, hb⟩, hfd, herr, hlen, htake.symm ▸ hbelow, hch,
    fun _ => ⟨htake.ge, hbelow⟩⟩, htake⟩

/-- PostBlock (R166) in dependent mode drops the front of WIN and shifts the table by as much. -/
theorem FrameOpen.slide (n : Nat) (h : FrameOpen s) (hi : ¬ setInd s.fe.set = true) :
    FrameOpen { s with win := s.win.drop n, t := tableShift n s.t } := by
  obtain ⟨hc, ⟨hwf, htpl⟩, ⟨hwin, hb⟩, hfd, herr, hlen, hbelow, hch, -⟩ := h
  have hdrop : (s.win.drop n).length = s.win.length - n := List.length_drop
  exact ⟨hc, ⟨tableWf_tableShift n hwf, htpl⟩, ⟨hdrop.trans_le ((Nat.sub_le ..).trans hwin), hb⟩, hfd, herr, hlen,
    hdrop.symm ▸ tableBelow_tableShift hbelow, hch, fun h => absurd h hi⟩

theorem FrameOpen.postBlock_inv (h : FrameOpen s) :
    Inv { postBlock s with fe := { (postBlock s).fe with state := .blockLoop } } := by
  unfold postBlock
  split
  next hi =>
    obtain ⟨hcut, hlen⟩ := h.cutToDict hi
    exact (hcut.withState .blockLoop).inv rfl (hlen.trans_le h.dlen) fun _ => hlen
  next hi =>
    split
    next hlong =>
      refine ((h.slide (s.win.length - Config.windowSize) hi).withState .blockLoop).inv rfl ?_ fun h => absurd h hi
      simp only [List.length_drop]
      omega
    next hshort => exact (h.withState .blockLoop).inv rfl (not_lt.1 hshort) fun h => absurd h hi

theorem writeChecksum_frameOpen (present : Bool) (v : Word) (h : FrameOpen s) :
    (writeChecksum present v s).Meets .fe fun _ => FrameOpen := by
  unfold writeChecksum
  split
  · exact snkWrite_frameOpen _ h
  · exact h

theorem writeBlock_frameOpen (w : Word) (body : List Byte) (h : FrameOpen s) :
    (writeBlock w body s).Meets .fe fun _ => FrameOpen :=
  (snkWrite_frameOpen _ h).bind fun _ _ h => (snkWrite_frameOpen body h).bind fun _ _ h => writeChecksum_frameOpen _ _ h

theorem feBlockRun_meets (h : Inv s) (ha : feActive s = true) :
    (feBlockRun s).Meets .fe fun _ t => Inv t ∧ feActive t = true := by
  have hf := h.frameOpen ha
  obtain ⟨-, -, -, ⟨-, -, -, -, -, hopen⟩, -⟩ := h
  obtain ⟨hw, -, -, hind⟩ := hopen ha
  refine (srcReadUpTo_meets (P := fun v t => v.length ≤ Config.blockMax 3 ∧ SameDevice s t)
    hf.failureEntry_inv fun v g hv => ⟨hv.trans (blockMax_le _), g, rfl⟩).bind ?_
  rintro chunk _ ⟨hchunk, g, rfl⟩
  split
  · exact ⟨((hf.withHost g).withState .blockLoop).inv rfl hw fun hi => (hind hi).1, rfl⟩
  · have hcoded := (hf.withHost g).blockCoded hw hchunk
    exact (writeBlock_frameOpen _ _ hcoded).bind fun _ _ ht => ⟨ht.postBlock_inv, rfl⟩

/-! ### FE.FINISH and FE.RUN (R167, R168) -/

/-- A frame that is done keeps the kind of error that an open one has, none. -/
theorem FrameOpen.done_inv (h : FrameOpen s) : Inv { s with fe := { s.fe with ch := none, state := .done } } := by
  obtain ⟨hc, ht, hb, hfd, herr, hlen, -⟩ := h
  exact ⟨hc, ht, hb, ⟨nofun, nofun, .inl herr, ⟨nofun, fun he => nomatch herr.symm.trans he⟩, hlen, nofun⟩, hfd⟩

theorem feTrailerRun_meets (h : FrameOpen s) :
    (feTrailerRun s).Meets .fe fun _ t => Inv { t with fe := { t.fe with ch := none, state := .done } } := by
  unfold feTrailerRun
  split
  · exact h.done_inv
  · exact (snkWrite_frameOpen _ h).bind
      fun _ _ ht => (ht.withState .trailerWritten).done_inv

theorem feFinishRun_meets (h : FrameOpen s) : (feFinishRun s).Meets .fe fun _ => Inv :=
  (snkWrite_frameOpen _ h).bind fun _ _ ht =>
    (feTrailerRun_meets (ht.withState .terminatorWritten)).bind fun _ _ hd => hd

theorem feRunLoop_meets (turns k : Nat) (h : Inv s) (ha : feActive s = true) :
    (feRunLoop turns k s).Meets .fe fun _ => FrameOpen := by
  induction turns generalizing k s with
  | zero => exact h.frameOpen ha
  | succ turns ih =>
    refine (feBlockRun_meets h ha).bind ?_
    rintro r s1 ⟨h, ha⟩
    split
    · exact h.frameOpen ha
    · exact ih (k + 1) h ha

theorem feRunRun_meets (mode : BitVec 24) (h : Inv s) : (feRunRun mode s).Meets .fe fun _ => Inv := by
  refine (feStartRun_meets mode h).bind ?_
  rintro - s1 ⟨h, ha⟩
  exact (feRunLoop_meets _ 0 h ha).bind fun _ _ h => (feFinishRun_meets h).bind fun _ _ h => h

end Sys2Proof.Machine
end

section
/-! SUPPORT. The statement about the invariant of the machine (20_memory.md R63): every instruction, every act of the host and so
every step keeps it. -/

namespace Sys2Proof.Machine

variable {s : State}

/-- The outcome of a command is a next state that meets the invariant, whatever it answers. -/
def Keeps (o : Host.Outcome State Fault Refusal) : Prop := ∀ t, o = .next t → Inv t

theorem Keeps.reply (r : Response) (h : Inv s) : Keeps (.next (respond r s)) := by
  rintro _ ⟨⟩
  exact h

theorem Keeps.run {unit : ErrUnit} {r : Run Response} (h : r.Meets unit fun _ => Inv) :
    Keeps (.next (finishRun unit r)) := by
  rintro _ ⟨⟩
  exact h.finishRun

/-- A refusal keeps the invariant, so only the accepting branch of a command is left. -/
theorem Keeps.refuseIf {p : Prop} [Decidable p] {o : Host.Outcome State Fault Refusal} (h : Inv s) (ho : ¬ p → Keeps o) :
    Keeps (if p then .next (refuse s) else o) := by
  split
  · exact .reply _ h
  · exact ho ‹_›

/-- A transfer of a raw command: its failure leaves the state as it is (R225). -/
theorem Keeps.load {n : Nat} {f : List Byte → State → Run Response} (h : Inv s)
    (hf : ∀ v g, v.length = n → (f v { s with host := g }).Meets .raw fun _ => Inv) :
    Keeps (.next (finishRun .raw ((srcRead n s).bind f))) :=
  .run ((srcRead_meets (P := fun v t => (f v t).Meets .raw fun _ => Inv) h.failureEntry_raw hf).bind fun _ _ h => h)

theorem Keeps.flush {v : List Byte} {r : Response} (h : Inv s) :
    Keeps (.next (finishRun .raw ((snkWrite v s).bind fun _ t => .done r t))) :=
  .run ((snkWrite_meets (P := fun _ => Inv) h.failureEntry_raw fun _ => h).bind fun _ _ h => h)

/-! ### Commands -/

theorem execCsrRd_keeps (reg : BitVec 24) (h : Inv s) : Keeps (execCsrRd reg s) := by
  unfold execCsrRd
  split <;> exact .reply _ h

theorem execCsrWr_keeps (reg : BitVec 24) (value : Word) (h : Inv s) : Keeps (execCsrWr reg value s) := by
  refine .refuseIf h fun _ => ?_
  split
  next t ht => exact .reply _ (csrWrite_inv h ht)
  next => exact .reply _ h

theorem execDictLoad_keeps (n : Word) (h : Inv s) : Keeps (execDictLoad n s) :=
  .refuseIf h fun _ => .load h fun _ _ _ => h.setDict ((lastK_length ..).trans_le (min_le_right ..))

theorem execWinAppend_keeps (n : Word) (h : Inv s) : Keeps (execWinAppend n s) := by
  refine .refuseIf h fun hn => .load h fun v g hv => ?_
  simp only [Bool.or_eq_true, decide_eq_true_eq, not_or, not_lt] at hn
  exact h.setWin hn.1 (by simpa [hv] using hn.2)

theorem execWinDrop_keeps (n : Word) (h : Inv s) : Keeps (execWinDrop n s) := by
  refine .refuseIf h fun hn => .reply _ ?_
  simp only [Bool.or_eq_true, not_or] at hn
  exact h.setWin hn.1 ((List.drop_sublist ..).length_le.trans h.win_length_le)

theorem execDinLoad_keeps (n : Word) (h : Inv s) : Keeps (execDinLoad n s) := by
  refine .refuseIf h fun hn => .load h fun v g hv => ?_
  simp only [Bool.or_eq_true, decide_eq_true_eq, not_or, not_lt] at hn
  exact h.setDin (hv.trans_le hn.2)

theorem execDwinClear_keeps (h : Inv s) : Keeps (execDwinClear s) :=
  .refuseIf h fun hn => .reply _ (h.setDwin (Nat.zero_le _) fun ha => absurd ha hn)

theorem execDwinPush_keeps (h : Inv s) : Keeps (execDwinPush s) :=
  .refuseIf h fun hn => .reply _
    (h.setDwin ((lastK_length ..).trans_le (min_le_right ..)) fun ha => absurd ha hn)

theorem execDwinDict_keeps (h : Inv s) : Keeps (execDwinDict s) := by
  refine .refuseIf h fun hn => .reply _ ?_
  obtain ⟨-, -, -, -, -, hdict, -⟩ := h.buffersFit
  exact h.setDwin hdict fun ha => absurd ha hn

theorem execMtLookup_keeps (i : BitVec 24) (h : Inv s) : Keeps (execMtLookup i s) := by
  unfold execMtLookup
  split
  · split <;> exact .reply _ h
  · exact .reply _ h

theorem execMtInsert_keeps (i : BitVec 24) (pos : Word) (h : Inv s) : Keeps (execMtInsert i pos s) := by
  refine .refuseIf h fun hn => .reply _ ?_
  simp only [Bool.or_eq_true, Bool.not_eq_true', indexOk, decide_eq_false_iff_not, not_or, not_not] at hn
  exact h.setT hn.1 (tableWf_tableSet h.t_wf hn.2 pos.isLt)

theorem execMtShift_keeps (by_ : Word) (h : Inv s) : Keeps (execMtShift by_ s) :=
  .refuseIf h fun hn => .reply _ (h.setT hn (tableWf_tableShift _ h.t_wf))

theorem execMtSeed_keeps (stride : BitVec 24) (first end_ : Word) (h : Inv s) : Keeps (execMtSeed stride first end_ s) := by
  refine .refuseIf h fun hn => .reply _ ?_
  simp only [Bool.or_eq_true, not_or] at hn
  exact h.setT hn.1.1 (tableWf_tableSeed _ _ _ end_.isLt.le _ h.t_wf)

theorem execEncBlock_keeps (start : Word) (h : Inv s) : Keeps (execEncBlock start s) := by
  refine .refuseIf h fun hn => ?_
  simp only [Bool.or_eq_true, not_or] at hn
  have ht : Inv { s with t := (encBlock s.cfg s.win start.toNat s.t).2 } :=
    h.setT hn.1 (tableWf_encBlock (h.win_length_le.trans (by decide)) h.t_wf)
  split
  next he =>
    rw [he] at ht
    exact .refuseIf h fun hk => .reply _ (ht.setSink (not_lt.1 hk))
  next he =>
    rw [he] at ht
    exact .reply _ (ht.setSink (Nat.zero_le _))

theorem execDecBlock_keeps (ctxsel : BitVec 24) (h : Inv s) : Keeps (execDecBlock ctxsel s) := by
  refine .refuseIf h fun hn => ?_
  split
  next => exact .reply _ h
  next =>
    refine .run ?_
    split
    next ho => exact h.setOut (decBlock_length ho) (Nat.zero_le _) fun ha => absurd ha hn
    next => exact h.clearOut

theorem execRdConsume_keeps (n : Word) (h : Inv s) : Keeps (execRdConsume n s) := by
  refine .refuseIf h fun hn => .reply _ ?_
  obtain ⟨-, -, -, hout, -, -, hrpos⟩ := h.buffersFit
  exact h.setOut hout (by omega) h.out_length_le_bmax

theorem execFeStart_keeps (mode : BitVec 24) (h : Inv s) : Keeps (execFeStart mode s) := by
  unfold execFeStart
  split
  · exact .run ((feStartRun_meets mode h).imp fun _ _ ht => ht.1)
  · exact .reply _ h

theorem execFeBlock_keeps (h : Inv s) : Keeps (execFeBlock s) := by
  unfold execFeBlock
  split
  next ha => exact .run ((feBlockRun_meets h ha).imp fun _ _ ht => ht.1)
  next => split <;> exact .reply _ h

theorem execFeFinish_keeps (h : Inv s) : Keeps (execFeFinish s) := by
  unfold execFeFinish
  split
  next ha => exact .run (feFinishRun_meets (h.frameOpen ha))
  next => split <;> exact .reply _ h

theorem execFeRun_keeps (mode : BitVec 24) (h : Inv s) : Keeps (execFeRun mode s) := by
  unfold execFeRun
  split
  · exact .run (feRunRun_meets mode h)
  · exact .reply _ h

theorem execFdBlock_keeps (h : Inv s) : Keeps (execFdBlock s) := by
  unfold execFdBlock
  split
  next => exact .reply _ h
  next => exact .reply _ h
  next hs => exact .run (fdBlockAny_meets h (.inr hs))
  next hs => exact .run (fdBlockAny_meets h (.inl hs))

theorem execRdFill_keeps (h : Inv s) : Keeps (execRdFill s) := by
  unfold execRdFill
  split
  next => exact .reply _ h
  next => exact .reply _ h
  next hs => exact .run (rdFillRun_meets h (.inr hs))
  next hs => exact .run (rdFillRun_meets h (.inl hs))

theorem exec_command_keeps {i : Instr} (h : Inv s) (hi : i.isCommand = true) : Keeps (exec i s) := by
  cases i with
  | sysReset => exact .reply _ (resetDevice_inv h)
  | csrRd reg => exact execCsrRd_keeps reg h
  | csrWr reg value => exact execCsrWr_keeps reg value h
  | dictLoad n => exact execDictLoad_keeps n h
  | dictClear => exact .refuseIf h fun _ => .reply _ (h.setDict (Nat.zero_le _))
  | winClear => exact .refuseIf h fun hn => .reply _ (h.setWin hn (Nat.zero_le _))
  | winAppend n => exact execWinAppend_keeps n h
  | winDrop n => exact execWinDrop_keeps n h
  | dinLoad n => exact execDinLoad_keeps n h
  | sinkFlush => exact .flush h
  | outFlush => exact .flush h
  | dwinClear => exact execDwinClear_keeps h
  | dwinPush => exact execDwinPush_keeps h
  | dwinDict => exact execDwinDict_keeps h
  | mtReset => exact .refuseIf h fun hn => .reply _ (h.setT hn (tableWf_nil _))
  | mtHash word => exact .reply _ h
  | mtLookup i => exact execMtLookup_keeps i h
  | mtInsert i pos => exact execMtInsert_keeps i pos h
  | mtShift by_ => exact execMtShift_keeps by_ h
  | mtSeed stride first end_ => exact execMtSeed_keeps stride first end_ h
  | mtSave => exact .refuseIf h fun hn => .reply _ (h.setTpl hn h.t_wf)
  | mtReseed => exact .refuseIf h fun hn => .reply _ (h.setT hn h.tpl_wf)
  | encBlock start => exact execEncBlock_keeps start h
  | decBlock ctxsel => exact execDecBlock_keeps ctxsel h
  | feStart mode => exact execFeStart_keeps mode h
  | feBlock => exact execFeBlock_keeps h
  | feFinish => exact execFeFinish_keeps h
  | feRun mode => exact execFeRun_keeps mode h
  | fdOpen => exact .run ((fdOpenRun_meets h).imp fun _ _ ht => ht.1)
  | fdBlock => exact execFdBlock_keeps h
  | fdAll => exact .run (fdAllRun_meets h)
  | rdFill => exact execRdFill_keeps h
  | rdConsume n => exact execRdConsume_keeps n h
  | _ => cases hi

/-! ### Steps -/

theorem exec_keeps (i : Instr) (h : Inv s) : Keeps (exec i s) := by
  cases hi : i.isCommand with
  | true => exact exec_command_keeps h hi
  | false =>
    rw [exec_wire s hi]
    rintro _ ⟨⟩
    exact h

theorem hostAct_inv (a : HostAct) (h : Inv s) : Inv (hostAct a s) := by
  cases a with
  | powerOn => exact resetDevice_inv h
  | feed | skip | drain | collect => exact h

/-- Settles O59, by what is fetched. -/
theorem stepKeepsInvariant : Obligations.StepKeepsInvariant := by
  intro s t h ht
  cases hf : fetch s.cfg s.host.inbox with
  | idle =>
    cases (step_of_idle hf).symm.trans ht
    exact h
  | instr i rest => exact exec_keeps i (s := withInbox rest s) h t ((step_of_instr hf).symm.trans ht)
  | illegal r rest =>
    cases (step_of_illegal hf).symm.trans ht
    exact h
  | act a rest =>
    cases (step_of_act hf).symm.trans ht
    exact hostAct_inv a (s := withInbox rest s) h

end Sys2Proof.Machine
end

section
/-! SUPPORT. The length field (R81, R82) and the raw decoder on a block of legal sequences (R84, R85, R141, R146): a length field
reads back as its value and has one spelling; one turn of the decoder's loop takes one sequence; the copy byte by byte is the
closed form of R146. -/

namespace Sys2Proof.Machine

/-! ### Length fields (R81, R82) -/

theorem nibble_toNat (v : Nat) : (nibble v).toNat = min v 15 := by
  rw [nibble, BitVec.toNat_ofNat]
  omega

/-- Only a value from 15 on fills the nibble. -/
theorem nibble_eq_15 {v : Nat} : nibble v = 15#4 ↔ 15 ≤ v := by
  rw [BitVec.toNat_eq, nibble_toNat, BitVec.toNat_ofNat]
  omega

theorem lengthExt_of_lt {v : Nat} (h : v < 15) : lengthExt v = [] := if_pos h

/-- R82: every continuation byte adds 255. -/
theorem lengthExt_add_255 {v : Nat} (h : 15 ≤ v) : lengthExt (v + 255) = 255#8 :: lengthExt v := by
  have hsub : v + 255 - 15 = v - 15 + 255 := by omega
  rw [lengthExt, lengthExt, if_neg (by omega), if_neg (by omega), hsub, Nat.add_div_right _ (by omega), Nat.add_mod_right,
    List.replicate_succ, List.cons_append]

/-- The terminating byte is what is left above 15. -/
theorem lengthExt_terminator {b : Byte} (hb : b ≠ 255#8) : lengthExt (15 + b.toNat) = [b] := by
  have hlt : b.toNat < 255 := by
    have := b.isLt
    have : b.toNat ≠ 255 := fun h => hb (BitVec.eq_of_toNat_eq h)
    omega
  rw [lengthExt, if_neg (by omega), Nat.add_sub_cancel_left, Nat.div_eq_of_lt hlt, Nat.mod_eq_of_lt hlt]
  simp

/-- R82: the bytes that read as `e` are the extension bytes of `15 + e`. -/
theorem eq_lengthExt_of_readExt {inp rest : List Byte} {e : Nat} (h : readExt inp = some (e, rest)) :
    inp = lengthExt (15 + e) ++ rest := by
  induction inp generalizing e with
  | nil => cases h
  | cons b inp ih =>
    by_cases hb : b = 255#8
    · rw [readExt, if_pos hb, Option.map_eq_some_iff] at h
      obtain ⟨⟨e', r⟩, hr, he⟩ := h
      cases he
      rw [← Nat.add_assoc, lengthExt_add_255 (by omega), hb, List.cons_append, ← ih hr]
    · rw [readExt, if_neg hb] at h
      cases h
      rw [lengthExt_terminator hb, List.singleton_append]

/-- R82 inverts R81. -/
@[simp] theorem readLength_nibble (v : Nat) (rest : List Byte) :
    readLength (nibble v) (lengthExt v ++ rest) = some (v, rest) := by
  by_cases hv : 15 ≤ v
  · rw [readLength, if_pos (nibble_eq_15.2 hv), readExt_lengthExt hv]
    exact congrArg (fun n => some (n, rest)) (Nat.add_sub_cancel' hv)
  · rw [readLength, if_neg (mt nibble_eq_15.1 hv), lengthExt_of_lt (by omega), nibble_toNat, min_eq_left (by omega),
      List.nil_append]

/-- R82: the encoding of a length is unique. -/
theorem eq_nibble_of_readLength {nib : BitVec 4} {inp rest : List Byte} {v : Nat} (h : readLength nib inp = some (v, rest)) :
    nib = nibble v ∧ inp = lengthExt v ++ rest := by
  by_cases hn : nib = 15#4
  · rw [readLength, if_pos hn, Option.map_eq_some_iff] at h
    obtain ⟨⟨e, r⟩, hr, he⟩ := h
    cases he
    exact ⟨hn.trans (nibble_eq_15.2 (by omega)).symm, eq_lengthExt_of_readExt hr⟩
  · rw [readLength, if_neg hn] at h
    cases h
    have hlt : nib.toNat < 15 := by
      have := nib.isLt
      have : nib.toNat ≠ 15 := fun h => hn (BitVec.eq_of_toNat_eq h)
      omega
    refine ⟨BitVec.eq_of_toNat_eq ?_, by rw [lengthExt_of_lt hlt, List.nil_append]⟩
    rw [nibble_toNat, min_eq_left hlt.le]

/-- Settles O22: the reader inverts the writer, and only the writer's bytes read as a value. -/
theorem lengthFieldRoundTrip : Obligations.LengthFieldRoundTrip :=
  ⟨readLength_nibble, fun _ _ _ _ h => eq_nibble_of_readLength h⟩

/-! ### The copy of a match (R146) -/

theorem byteAt_append_left {A : List Byte} (B : List Byte) {p : Nat} (h : p < A.length) : byteAt (A ++ B) p = byteAt A p :=
  List.getD_append _ _ _ _ h

theorem byteAt_append_right {A : List Byte} (B : List Byte) {p : Nat} (h : A.length ≤ p) :
    byteAt (A ++ B) p = byteAt B (p - A.length) :=
  List.getD_append_right _ _ _ _ h

/-- The context followed by the output is one buffer to a copy. -/
theorem copySource_eq {ctx out : List Byte} {off : Nat} (h : off ≤ out.length + ctx.length) :
    copySource ctx out off = byteAt (ctx ++ out) ((ctx ++ out).length - off) := by
  rw [List.length_append]
  by_cases ho : off ≤ out.length
  · rw [copySource, if_pos ho, byteAt_append_right out (by omega)]
    congr 1
    omega
  · rw [copySource, if_neg ho, byteAt_append_left out (by omega)]

@[simp] theorem matchBytes_length (Z : List Byte) (off m : Nat) : (matchBytes Z off m).length = m := by
  simp [matchBytes]

theorem byteAt_matchBytes (Z : List Byte) (off : Nat) {k m : Nat} (h : k < m) :
    byteAt (matchBytes Z off m) k = byteAt Z (Z.length - off + k % off) := by
  simp [byteAt, matchBytes, h]

theorem matchBytes_succ (Z : List Byte) (off m : Nat) :
    matchBytes Z off (m + 1) = matchBytes Z off m ++ [byteAt Z (Z.length - off + m % off)] := by
  simp [matchBytes, List.range_succ]

/-- The byte at distance `off` before the end of what is written so far is the next one of the closed form, even when it has just
been written itself. -/
theorem byteAt_append_matchBytes {Z : List Byte} {off : Nat} (m : Nat) (h1 : 1 ≤ off) (h2 : off ≤ Z.length) :
    byteAt (Z ++ matchBytes Z off m) (Z.length + m - off) = byteAt Z (Z.length - off + m % off) := by
  by_cases hm : m < off
  · rw [byteAt_append_left _ (by omega), Nat.mod_eq_of_lt hm]
    congr 1
    omega
  · have hk : Z.length + m - off - Z.length = m - off := by omega
    rw [byteAt_append_right _ (by omega), hk, byteAt_matchBytes Z off (by omega), ← Nat.mod_eq_sub_mod (by omega)]

theorem copyMatch_succ (ctx : List Byte) (off m : Nat) (out : List Byte) :
    copyMatch ctx off (m + 1) out = copyMatch ctx off m out ++ [copySource ctx (copyMatch ctx off m out) off] := by
  induction m generalizing out with
  | zero => rfl
  | succ m ih => exact ih (out ++ [copySource ctx out off])

/-- R146: the copy byte by byte is the closed form. -/
theorem copyMatch_eq {ctx out : List Byte} {off : Nat} (m : Nat) (h1 : 1 ≤ off) (h2 : off ≤ out.length + ctx.length) :
    copyMatch ctx off m out = out ++ matchBytes (ctx ++ out) off m := by
  induction m with
  | zero => simp [copyMatch, matchBytes]
  | succ m ih =>
    have hZ : off ≤ (ctx ++ out).length := by
      rw [List.length_append]
      omega
    have hlen : (ctx ++ out ++ matchBytes (ctx ++ out) off m).length = (ctx ++ out).length + m := by
      rw [List.length_append, matchBytes_length]
    have hoff : off ≤ (out ++ matchBytes (ctx ++ out) off m).length + ctx.length := by
      rw [List.length_append]
      omega
    rw [copyMatch_succ, ih, copySource_eq hoff, ← List.append_assoc, hlen, byteAt_append_matchBytes m h1 hZ, matchBytes_succ, List.append_assoc]

/-! ### The loop of the decoder on a block (R84, R85, R141) -/

theorem seqOutput_length (ctx out : List Byte) (q : BlockSeq) :
    (seqOutput ctx out q).length = out.length + q.lit.length + q.mat := by
  simp [seqOutput, Nat.add_assoc]

theorem length_le_seqsOutput (ctx : List Byte) (seqs : List BlockSeq) (out : List Byte) :
    out.length ≤ (seqsOutput ctx seqs out).length := by
  induction seqs generalizing out with
  | nil => exact le_rfl
  | cons q seqs ih =>
    have := ih (seqOutput ctx out q)
    rw [seqOutput_length] at this
    rw [seqsOutput]
    omega

/-- R84, R141: one turn of the loop takes one legal sequence. -/
theorem decLoop_seqBytes {ctx out : List Byte} {q : BlockSeq} {cap : Nat} (turns : Nat) (rest : List Byte)
    (hq : seqOk ctx out q) (hcap : (seqOutput ctx out q).length ≤ cap) :
    decLoop ctx cap (turns + 1) (seqBytes q ++ rest) out = decLoop ctx cap turns rest (seqOutput ctx out q) := by
  obtain ⟨h1, h2, h3, h4⟩ := hq
  rw [seqOutput_length] at hcap
  have hoff : (BitVec.ofNat 16 q.off).toNat = q.off := by
    rw [BitVec.toNat_ofNat]
    omega
  have hmat : q.mat - 4 + Config.minMatch = q.mat := Nat.sub_add_cancel h3
  have hlit : ¬ cap < out.length + q.lit.length := by omega
  have hfit : ¬ cap < out.length + q.lit.length + q.mat := by omega
  have hreach : ¬ out.length + q.lit.length + ctx.length < q.off := by omega
  have hcopy : copyMatch ctx q.off q.mat (out ++ q.lit) = seqOutput ctx out q :=
    copyMatch_eq q.mat h1 (by rwa [List.length_append])
  have hbytes : seqBytes q ++ rest = tokenByte (nibble q.lit.length) (nibble (q.mat - 4)) ::
      (lengthExt q.lit.length ++ (q.lit ++ (le16 (BitVec.ofNat 16 q.off) ++ (lengthExt (q.mat - 4) ++ rest)))) := by
    simp [seqBytes]
  rw [hbytes, decLoop, tokenLit_tokenByte, tokenMat_tokenByte, readLength_nibble]
  simp [le16, u16Of_split, hoff, hmat, hreach, hcopy, hlit, hfit, Nat.ne_of_gt h1]

/-- R85, R143: the last literals end the block, whatever the match nibble. -/
theorem decLoop_last {ctx out last : List Byte} {cap : Nat} (turns : Nat) (nib : BitVec 4)
    (hcap : (out ++ last).length ≤ cap) :
    decLoop ctx cap (turns + 1) (tokenByte (nibble last.length) nib :: (lengthExt last.length ++ last)) out =
      .ok (out ++ last) := by
  rw [List.length_append] at hcap
  simp [decLoop, hcap]

/-- R84, R85: the loop on the sequences and then the last literals; as many turns as there are tokens are enough. -/
theorem decLoop_blockBytes {ctx last : List Byte} {cap : Nat} (nib : BitVec 4) {seqs : List BlockSeq} {out : List Byte}
    {turns : Nat} (hturns : seqs.length < turns) (hok : seqsOk ctx seqs out)
    (hcap : (seqsOutput ctx seqs out ++ last).length ≤ cap) :
    decLoop ctx cap turns (blockBytes seqs nib last) out = .ok (seqsOutput ctx seqs out ++ last) := by
  induction seqs generalizing out turns with
  | nil =>
    obtain ⟨turns, rfl⟩ := Nat.exists_eq_succ_of_ne_zero (Nat.ne_of_gt hturns)
    exact decLoop_last turns nib hcap
  | cons q seqs ih =>
    obtain ⟨turns, rfl⟩ := Nat.exists_eq_succ_of_ne_zero (Nat.ne_of_gt (Nat.zero_lt_of_lt hturns))
    obtain ⟨hq, hseqs⟩ := hok
    have hfit : (seqOutput ctx out q).length ≤ cap := by
      have hgrow := length_le_seqsOutput ctx seqs (seqOutput ctx out q)
      rw [List.length_append, seqsOutput] at hcap
      omega
    have hsplit : blockBytes (q :: seqs) nib last = seqBytes q ++ blockBytes seqs nib last := by
      simp [blockBytes]
    rw [hsplit, decLoop_seqBytes turns _ hq hfit]
    exact ih (Nat.lt_of_succ_lt_succ hturns) hseqs hcap

/-- Every sequence and the last literals have a token each. -/
theorem length_lt_blockBytes (seqs : List BlockSeq) (nib : BitVec 4) (last : List Byte) :
    seqs.length < (blockBytes seqs nib last).length := by
  induction seqs with
  | nil => simp [blockBytes]
  | cons q seqs ih =>
    simp only [blockBytes, seqBytes, List.map_cons, List.flatten_cons, List.length_append, List.length_cons] at ih ⊢
    omega

/-- Settles O26: the loop has a turn for every token. -/
theorem decoderFollowsBlockLayout : Obligations.DecoderFollowsBlockLayout :=
  fun _ _ seqs nib _ hok hcap => decLoop_blockBytes nib (length_lt_blockBytes seqs nib _) hok hcap

end Sys2Proof.Machine
end

section
/-! SUPPORT. The statements of 30_encoding.md about command words, responses, operand ranges, wire units and header bytes (R70 to
R94). -/

namespace Sys2Proof.Machine

/-! ### Commands and their words (R70 to R76) -/

/-- Settles O52, by the law of `fetch` on what `encode` presents. -/
theorem decodeOfEncode : Obligations.DecodeOfEncode := fun _ _ rest hc hi => fetch_encode rest hc hi

/-- Settles O56: a command is a piece of pseudocode, which keeps the host's items, and one response. -/
theorem oneResponsePerCommand : Obligations.OneResponsePerCommand := by
  intro i s hi
  obtain ⟨r, t, ht, hk, hc⟩ := exec_command_answers s hi
  exact ⟨respond r t, r, ht, by rw [respond_host_resp, hk.resp], hk.inbox, hc⟩

/-- Settles O53: the decoder computes each of the six words. -/
theorem programWordsDecode : Obligations.ProgramWordsDecode :=
  ⟨rfl, rfl, rfl, rfl, rfl, rfl⟩

/-! ### Illegal command words (R73 (a), (b)) -/

/-- R73 (a): an opcode outside the map is illegal, and W0 alone is taken. -/
theorem decodeCommand_unknownOpcode {w0 : Word} (ws : List Word)
    (h : (opcOf w0).toNat ∉ [0x01, 0x02, 0x03, 0x10, 0x11, 0x12, 0x13, 0x14, 0x15, 0x16, 0x17, 0x18, 0x19, 0x1A, 0x20, 0x21,
      0x22, 0x23, 0x24, 0x25, 0x26, 0x27, 0x30, 0x31, 0x40, 0x41, 0x42, 0x43, 0x50, 0x51, 0x52, 0x53, 0x54]) :
    decodeCommand (w0 :: ws) = .illegal .unknownOpcode 1 := by
  simp only [List.mem_cons, List.not_mem_nil, or_false, not_or] at h
  simp [decodeCommand, h]

theorem decodeF0_nonzeroA {a : BitVec 24} (i : Instr) (ha : a ≠ 0#24) : decodeF0 a i = .illegal .nonzeroA 1 := if_neg ha

theorem decodeF2Zero_nonzeroA {a : BitVec 24} (w1 : Word) (ws : List Word) (mk : Word → Instr) (ha : a ≠ 0#24) :
    decodeF2Zero a (w1 :: ws) mk = .illegal .nonzeroA 2 := if_neg ha

/-- R73 (b): the opcodes of format F0. -/
theorem decodeCommand_nonzeroA_F0 {w0 : Word} (ws : List Word) (ha : fieldA w0 ≠ 0#24)
    (h : (opcOf w0).toNat ∈ [0x01, 0x11, 0x12, 0x16, 0x17, 0x18, 0x19, 0x1A, 0x20, 0x26, 0x27, 0x41, 0x42, 0x50, 0x51, 0x52,
      0x53]) :
    decodeCommand (w0 :: ws) = .illegal .nonzeroA 1 := by
  simp only [List.mem_cons, List.not_mem_nil, or_false] at h
  rcases h with h | h | h | h | h | h | h | h | h | h | h | h | h | h | h | h | h <;>
    simp only [decodeCommand, h, decodeF0_nonzeroA _ ha]

/-- R73 (b): the opcodes of format F2 with no A operand; W1 is taken too. -/
theorem decodeCommand_nonzeroA_F2 {w0 : Word} (w1 : Word) (ws : List Word) (ha : fieldA w0 ≠ 0#24)
    (h : (opcOf w0).toNat ∈ [0x10, 0x13, 0x14, 0x15, 0x21, 0x24, 0x30, 0x54]) :
    decodeCommand (w0 :: w1 :: ws) = .illegal .nonzeroA 2 := by
  simp only [List.mem_cons, List.not_mem_nil, or_false] at h
  rcases h with h | h | h | h | h | h | h | h <;> simp only [decodeCommand, h, decodeF2Zero_nonzeroA _ _ _ ha]

/-- The words `ws` at the front are an illegal command: they are taken, and the response is REFUSED. -/
theorem step_illegal_words {s : State} {r : CmdReject} (ws : List Word) {rest : List HostItem}
    (hbox : s.host.inbox = ws.map .word ++ rest) (h : decodeCommand (ws ++ portWords rest) = .illegal r ws.length) :
    step s = .next (respond ⟨0xFF, 0⟩ { s with host := { s.host with inbox := rest } }) :=
  step_of_illegal (r := r) (by simp [hbox, fetch, h])

/-- Settles O55: the decoder finds each of the three illegal, and an illegal command is refused. -/
theorem illegalWordsAreRefused : Obligations.IllegalWordsAreRefused := by
  intro s w0 w1 rest
  refine ⟨fun hbox h => ?_, fun hbox ha h => ?_, fun hbox ha h => ?_⟩
  · exact step_illegal_words [w0] hbox (decodeCommand_unknownOpcode _ h)
  · exact step_illegal_words [w0] hbox (decodeCommand_nonzeroA_F0 _ ha h)
  · exact step_illegal_words [w0, w1] hbox (decodeCommand_nonzeroA_F2 w1 _ ha h)

/-! ### Operand ranges (R73 (c), R63) -/

theorem indexOk_eq_false {c : Config} {h : BitVec 24} (hh : c.tableSize ≤ h.toNat) : indexOk c h = false :=
  decide_eq_false (Nat.not_lt.2 hh)

theorem modeOk_eq_false {mode : BitVec 24} (h : 2 < mode.toNat) : modeOk mode = false :=
  decide_eq_false (Nat.not_le.2 h)

theorem contextOf_eq_none {ctxsel : BitVec 24} (s : State) (h : 2 < ctxsel.toNat) : contextOf ctxsel s = none := by
  have h0 : ctxsel ≠ 0#24 := by rintro rfl; exact absurd h (by decide)
  have h1 : ctxsel ≠ 1#24 := by rintro rfl; exact absurd h (by decide)
  have h2 : ctxsel ≠ 2#24 := by rintro rfl; exact absurd h (by decide)
  simp [contextOf, h0, h1, h2]

theorem execDecBlock_of_no_context {ctxsel : BitVec 24} {s : State} (h : contextOf ctxsel s = none) :
    execDecBlock ctxsel s = .next (refuse s) := by
  rw [execDecBlock, h]
  exact ite_self _

/-- Settles O15: each command tests its operand before it changes anything. -/
theorem refusedByOperandRange : Obligations.RefusedByOperandRange := by
  intro s a v w
  refine ⟨fun h => ?_, fun h => ?_, fun h => ?_, fun h => ?_, fun h => ?_, fun h => ?_, fun h => ?_, fun h => ?_, fun h => ?_,
    fun h => ?_⟩
  · exact if_neg (by simp [indexOk_eq_false h])
  · exact if_pos (by simp [indexOk_eq_false h])
  · exact if_pos (by simpa [or_assoc] using .inr h)
  · exact if_pos (by simp [h])
  · exact execDecBlock_of_no_context (contextOf_eq_none s h)
  · exact if_neg (by simp [modeOk_eq_false h])
  · exact if_neg (by simp [modeOk_eq_false h])
  · exact if_pos h
  · exact if_pos (by simp [h])
  · exact if_pos (by simp [h])

/-! ### Wire units (R80 to R94) -/

theorem exec_wire_of_bytes {s : State} {i : Instr} {b : List Byte} (hi : i.isCommand = false) (hb : wireBytes s.cfg i = b) :
    exec i s = .next (feedSrc b s) :=
  hb ▸ exec_wire s hi

/-- Settles O48: for each unit, the bytes named are those of its encoding. -/
theorem wireUnitsReachSrc : Obligations.WireUnitsReachSrc := by
  intro s i b h
  rcases h with ⟨l, m, rfl, rfl⟩ | ⟨rfl, rfl⟩ | ⟨x, rfl, rfl⟩ | ⟨o, rfl, rfl⟩ | ⟨rfl, rfl⟩ | ⟨f1, f2, f3, f4, f5, rfl, rfl⟩ |
    ⟨rfl, rfl⟩ | ⟨rfl, rfl⟩ | ⟨rfl, rfl⟩ | ⟨rfl, rfl⟩ | ⟨x, rfl, rfl⟩ | ⟨st, n, rfl, rfl⟩ | ⟨rfl, rfl⟩ | ⟨x, rfl, rfl⟩ |
    ⟨x, rfl, rfl⟩ <;> exact exec_wire_of_bytes rfl rfl

/-! ### The header bytes (R88, R89, R91) -/

/-- R88: FLG is legal when the version is 01 and the reserved bit is 0. -/
theorem parseFlg_isSome {l : FlgLayout} {b : Byte} :
    (parseFlg l b).isSome = true ↔ b.extractLsb' 6 2 = 1#2 ∧ b.getLsbD l.rsv = false := by
  rw [parseFlg]
  split <;> simp [*]

/-- R89: a byte is read as a class only when it is that class's code. -/
theorem eq_bdByte_of_parseBd {c : BdCodes} {b : Byte} {k : BitVec 2} (h : parseBd c b = some k) : b = bdByte c k := by
  unfold parseBd at h
  split_ifs at h with h0 h1 h2 h3 <;> cases h <;> assumption

theorem parseBd_eq_some {c : BdCodes} (hc : c.valid) {b : Byte} {k : BitVec 2} : parseBd c b = some k ↔ b = bdByte c k :=
  ⟨eq_bdByte_of_parseBd, fun h => h ▸ parseBd_bdByte hc k⟩

theorem bdByte_default_toNat : ∀ k : BitVec 2, (bdByte BdCodes.default k).toNat = (4 + k.toNat) * 16 := by decide

/-- The mask of R88 is the two version bits and the reserved bit of the default layout. -/
theorem flg_default_mask : ∀ b : Byte, b.extractLsb' 6 2 = 1#2 ∧ b.getLsbD 1 = false ↔ b &&& 0xC2 = 0x40 := by decide

/-- Settles O49, from what the readers of FLG and BD accept under any layout. -/
theorem defaultHeaderFields : Obligations.DefaultHeaderFields := by
  refine ⟨fun b => parseFlg_isSome.trans (flg_default_mask b), fun hdr => rfl, fun b k => ?_⟩
  rw [parseBd_eq_some (by decide), ← BitVec.toNat_inj]
  exact iff_of_eq (congrArg (b.toNat = ·) (bdByte_default_toNat k))

end Sys2Proof.Machine
end

section
/-! SUPPORT. The statements of 40_match_table.md about the commands of the match table (R101 to R108): the default HASH in naturals,
and what the seeding loop of R105 leaves in each bucket. -/

namespace Sys2Proof.Machine

/-! ### The seeding loop (R105) -/

/-- The progression from `p` is `p` itself, then the progression from `p + stride`. -/
theorem seedPos_iff {B : List Byte} {stride p e q : Nat} :
    SeedPos B stride p e q ↔ (q = p ∧ p < e ∧ p + 4 ≤ B.length) ∨ SeedPos B stride (p + stride) e q := by
  constructor
  · rintro ⟨⟨k, rfl⟩, he, hl⟩
    cases k with
    | zero => exact .inl ⟨by simp, by simpa using he, by simpa using hl⟩
    | succ k => exact .inr ⟨⟨k, by ring⟩, he, hl⟩
  · rintro (⟨rfl, he, hl⟩ | ⟨⟨k, rfl⟩, he, hl⟩)
    · exact ⟨⟨0, by simp⟩, he, hl⟩
    · exact ⟨⟨k + 1, by ring⟩, he, hl⟩

theorem SeedPos.le {B : List Byte} {stride p e q : Nat} (h : SeedPos B stride p e q) : p ≤ q := by
  obtain ⟨⟨k, rfl⟩, -, -⟩ := h
  exact Nat.le_add_right ..

/-- From the end on there is no position to seed. -/
theorem seedResult_of_end_le (c : Config) (B : List Byte) (stride : Nat) {p e : Nat} (t : Table) (h : e ≤ p) :
    SeedResult c B stride p e t t := by
  have hnone : ∀ q, ¬ SeedPos B stride p e q := fun q hq => by
    have := hq.le
    obtain ⟨-, he, -⟩ := hq
    omega
  exact fun _ => ⟨fun q hq => absurd hq (hnone q), fun _ => rfl⟩

/-- A position with fewer than four bytes left is no position of the progression. -/
theorem SeedResult.skip {c : Config} {B : List Byte} {stride p e : Nat} {t u : Table} (hl : ¬ p + 4 ≤ B.length)
    (h : SeedResult c B stride (p + stride) e t u) : SeedResult c B stride p e t u := by
  have hpos (q : Nat) : SeedPos B stride p e q ↔ SeedPos B stride (p + stride) e q := by
    rw [seedPos_iff]
    simp [hl]
  simpa only [SeedResult, hpos] using h

/-- `p` is inserted before the higher positions, so its entry stays only where none of them has its hash. -/
theorem SeedResult.insert {c : Config} {B : List Byte} {stride p e : Nat} {t u : Table} (hs : 0 < stride) (he : p < e)
    (hl : p + 4 ≤ B.length) (h : SeedResult c B stride (p + stride) e (tableInsert c B p t) u) :
    SeedResult c B stride p e t u := by
  have hp : SeedPos B stride p e p := seedPos_iff.2 (.inl ⟨rfl, he, hl⟩)
  have hlater {q : Nat} (hq : SeedPos B stride (p + stride) e q) : SeedPos B stride p e q := seedPos_iff.2 (.inr hq)
  intro b
  obtain ⟨hhigh, hnone⟩ := h b
  refine ⟨fun q hq hb hmax => ?_, fun hno => ?_⟩
  · rcases seedPos_iff.1 hq with ⟨rfl, -, -⟩ | hq
    · have hlast : ∀ r, SeedPos B stride (q + stride) e r → hashAt c B r ≠ b := fun r hr hrb => by
        have := hmax r (hlater hr) hrb
        have := hr.le
        omega
      rw [hnone hlast, tableInsert, tableGet_tableSet, if_pos hb.symm]
    · exact hhigh q hq hb fun r hr => hmax r (hlater hr)
  · rw [hnone fun r hr => hno r (hlater hr), tableInsert, tableGet_tableSet, if_neg (hno p hp).symm]

/-- R105: the loop, given a turn for every position below the end, seeds the progression. -/
theorem seedResult_tableSeed (c : Config) (B : List Byte) {stride p e turns : Nat} (t : Table) (hs : 0 < stride)
    (hturns : e ≤ p + turns) : SeedResult c B stride p e t (tableSeed c B stride e turns p t) := by
  induction turns generalizing p t with
  | zero => exact seedResult_of_end_le c B stride t hturns
  | succ k ih =>
    rw [tableSeed]
    split
    next he =>
      have hrest (v : Table) := ih (p := p + stride) v (by omega)
      split
      next hl => exact (hrest _).insert hs he hl
      next hl => exact (hrest t).skip hl
    next he => exact seedResult_of_end_le c B stride t (Nat.not_lt.1 he)

/-! ### The commands -/

theorem indexOk_eq_true {c : Config} {h : BitVec 24} (hh : h.toNat < c.tableSize) : indexOk c h = true := decide_eq_true hh

/-- R100: the default HASH is the top HASH_LOG bits of the product, so the reduction to TABLE_SIZE changes nothing. -/
theorem hashWord_multiplicative {c : Config} (w : Word) (hc : c.hash = .multiplicative) (hlog : c.hashLog ≤ 31) :
    hashWord c w = (w.toNat * 2654435761) % 4294967296 / 2 ^ (32 - c.hashLog) := by
  have htop : (w.toNat * 2654435761) % 4294967296 / 2 ^ (32 - c.hashLog) < c.tableSize := by
    rw [Config.tableSize, Nat.div_lt_iff_lt_mul (Nat.two_pow_pos _), ← Nat.pow_add, Nat.add_sub_cancel' (by omega)]
    exact Nat.mod_lt _ (by decide)
  simp only [hashWord, hc]
  rw [BitVec.toNat_ushiftRight, BitVec.toNat_mul, Nat.shiftRight_eq_div_pow]
  exact Nat.mod_eq_of_lt htop

/-- Settles O16, from the bound on every HASH and the default one in naturals. -/
theorem hashIsTableIndex : Obligations.HashIsTableIndex :=
  ⟨fun w => by simp [decodeCommand, decodeF2Zero],
    fun s w => ⟨rfl, hashWord_lt s.cfg w, hashWord_multiplicative w⟩⟩

/-- Settles O17, by the three outcomes of a lookup. -/
theorem lookupReturnsEntry : Obligations.LookupReturnsEntry := by
  refine ⟨fun h => by simp [decodeCommand], fun s h => ⟨fun c hh hc => ?_, fun hh hc => ?_, fun hh => ?_⟩⟩
  · simp [exec, execMtLookup, indexOk_eq_true hh, hc, okResponse, stOk]
  · simp [exec, execMtLookup, indexOk_eq_true hh, hc, stNone]
  · exact if_neg (by simp [indexOk_eq_false hh])

/-- Settles O18, by what a read sees after a write. -/
theorem insertOverwritesBucket : Obligations.InsertOverwritesBucket := by
  refine ⟨fun h p => by simp [decodeCommand, decodeF2], fun s h p => ⟨fun hfe hh => ?_, fun hbad => ?_⟩⟩
  · exact ⟨_, if_neg (by simp [hfe, indexOk_eq_true hh]), tableGet_tableSet s.t h.toNat p.toNat⟩
  · exact if_pos (by simpa [indexOk] using hbad)

/-- Settles O19, by what a read sees after a shift. -/
theorem shiftSubtractsOrDrops : Obligations.ShiftSubtractsOrDrops := by
  refine ⟨fun b => by simp [decodeCommand, decodeF2Zero], fun s b => ⟨fun hfe hsorted => ?_, fun hfe => if_pos hfe⟩⟩
  refine ⟨_, if_neg (by simp [hfe]), fun h => ?_⟩
  rw [tableGet_tableShift hsorted]
  cases tableGet s.t h <;> rfl

/-- Settles O20: as many turns as there are positions below the end are enough, because the stride is at least 1. -/
theorem seedInsertsProgression : Obligations.SeedInsertsProgression := by
  refine ⟨fun d f e => by simp [decodeCommand, decodeF3],
    fun s stride first end_ => ⟨fun hfe hstride hend => ?_, fun hbad => ?_⟩⟩
  · have hpos : 0 < stride.toNat := Nat.pos_of_ne_zero fun h => hstride (BitVec.eq_of_toNat_eq h)
    exact ⟨_, if_neg (by simpa [hfe] using ⟨hstride, hend⟩),
      seedResult_tableSeed s.cfg s.win s.t hpos (Nat.le_add_left ..)⟩
  · exact if_pos (by simpa [or_assoc] using hbad)

/-- Settles O21: each command tests that FE is not active, and then replaces one table file. -/
theorem resetSaveReseedTables : Obligations.ResetSaveReseedTables := by
  refine ⟨rfl, rfl, rfl, fun s => ⟨fun hfe => ?_, fun hfe => ⟨if_pos hfe, if_pos hfe, if_pos hfe⟩⟩⟩
  have hidle : ¬ feActive s = true := by simp [hfe]
  exact ⟨⟨[], if_neg hidle, tableGet_nil⟩, if_neg hidle, if_neg hidle⟩

end Sys2Proof.Machine
end

section
/-! SUPPORT. The raw encoder (R120 to R130): what one turn of the scan does, why every code it gives is a block of legal sequences
that decodes back, and the statements about ENC.BLOCK. -/

namespace Sys2Proof.Machine

/-! ### Parts of a buffer (R10, R11) -/

theorem take_append_slice (B : List Byte) {i j : Nat} (h : i ≤ j) : B.take i ++ slice B i j = B.take j := by
  rw [slice, ← List.take_add, Nat.add_sub_cancel' h]

theorem slice_append_slice (B : List Byte) {i j k : Nat} (hij : i ≤ j) (hjk : j ≤ k) :
    slice B i j ++ slice B j k = slice B i k := by
  have hj : i + (j - i) = j := Nat.add_sub_cancel' hij
  have hk : j - i + (k - j) = k - i := by omega
  rw [slice, slice, slice, ← hk, List.take_add, List.drop_drop, hj]

@[simp] theorem slice_self (B : List Byte) (i : Nat) : slice B i i = [] := by
  simp [slice]

theorem slice_succ {B : List Byte} {i j : Nat} (hij : i ≤ j) (hj : j < B.length) :
    slice B i (j + 1) = slice B i j ++ [byteAt B j] := by
  have hone : slice B j (j + 1) = [byteAt B j] := by
    rw [slice, Nat.add_sub_cancel_left, List.drop_eq_getElem_cons hj, byteAt, List.getD_eq_getElem _ _ hj,
      List.take_succ_cons, List.take_zero]
  rw [← slice_append_slice B hij (Nat.le_succ j), hone]

theorem byteAt_take (B : List Byte) {n p : Nat} (h : p < n) : byteAt (B.take n) p = byteAt B p := by
  rw [byteAt, byteAt, List.getD_eq_getElem?_getD, List.getD_eq_getElem?_getD, List.getElem?_take_of_lt h]

theorem bitVec_append_inj {m n : Nat} {x x' : BitVec m} {y y' : BitVec n} (h : x ++ y = x' ++ y') : x = x' ∧ y = y' := by
  have hx := congrArg (BitVec.extractLsb' n m) h
  have hy := congrArg (BitVec.extractLsb' 0 n) h
  rw [BitVec.extractLsb'_append_eq_left, BitVec.extractLsb'_append_eq_left] at hx
  rw [BitVec.extractLsb'_append_eq_right, BitVec.extractLsb'_append_eq_right] at hy
  exact ⟨hx, hy⟩

theorem u32Of_inj {a0 a1 a2 a3 b0 b1 b2 b3 : Byte} (h : u32Of a0 a1 a2 a3 = u32Of b0 b1 b2 b3) :
    a0 = b0 ∧ a1 = b1 ∧ a2 = b2 ∧ a3 = b3 := by
  obtain ⟨h, h0⟩ := bitVec_append_inj h
  obtain ⟨h, h1⟩ := bitVec_append_inj h
  obtain ⟨h3, h2⟩ := bitVec_append_inj h
  exact ⟨h0, h1, h2, h3⟩

/-- Equal words at two positions are four equal bytes. -/
theorem byteAt_eq_of_u32At_eq {B : List Byte} {p q i : Nat} (h : u32At B q = u32At B p) (hi : i < 4) :
    byteAt B (q + i) = byteAt B (p + i) := by
  obtain ⟨h0, h1, h2, h3⟩ := u32Of_inj h
  interval_cases i <;> assumption

/-! ### One turn of the scan (R122 to R125) -/

/-- What the encoder makes a sequence of when it accepts a candidate at `p` with the literals pending from `anchor` on: the `m`
bytes from `q` on equal those `off` before them, and the match goes past `p`. -/
structure MatchFound (B : List Byte) (anchor p q off m : Nat) : Prop where
  anchor_le : anchor ≤ q
  past : p < q + m
  fits : q + m ≤ B.length
  min_match : 4 ≤ m
  off_pos : 1 ≤ off
  off_le : off ≤ 65535
  reach : off ≤ q
  bytes_eq : ∀ i < m, byteAt B (q + i - off) = byteAt B (q + i)

/-- R123 to R125: an accepted candidate, extended forward and backward, is a match. -/
theorem matchFound_of_acceptCand {B : List Byte} {cand : Option Nat} {anchor p a : Nat} (hanchor : anchor ≤ p)
    (hp : p + 9 ≤ B.length) (ha : acceptCand B cand p (u32At B p) = some a) :
    MatchFound B anchor p (p - extendBackward B anchor p p a) (p - a)
      (extendForward B a p B.length 4 + extendBackward B anchor p p a) := by
  obtain ⟨-, hlt, hoff, hword⟩ := acceptCand_eq_some ha
  obtain ⟨hmin, hfits, hfwd⟩ := extendForward_spec B a p B.length 4
  obtain ⟨hback, hreach, hbwd⟩ := extendBackward_spec B anchor p p a hanchor
  have hfits := hfits (by omega)
  generalize extendForward B a p B.length 4 = m at *
  generalize extendBackward B anchor p p a = k at *
  refine ⟨by omega, by omega, by omega, by omega, by omega, hoff, by omega, fun i hi => ?_⟩
  by_cases hik : i < k
  · have h := hbwd (k - i) (by omega) (by omega)
    rw [show p - k + i - (p - a) = a - (k - i) by omega, show p - k + i = p - (k - i) by omega, h]
  · rw [show p - k + i - (p - a) = a + (i - k) by omega, show p - k + i = p + (i - k) by omega]
    by_cases h4 : i - k < 4
    · exact byteAt_eq_of_u32At_eq hword h4
    · exact hfwd _ (by omega) (by omega)

/-- R122: past the last position with room for a match and the last literals, only those are left to write. -/
theorem encScan_end {c : Config} {B : List Byte} {cap p : Nat} (turns anchor : Nat) (sink : List Byte) (t : Table)
    (hp : B.length < p + 9) : encScan c B cap turns p anchor sink t = (emitLast cap (B.drop anchor) sink, t) := by
  cases turns with
  | zero => rfl
  | succ n => exact if_neg (Nat.not_le.2 hp)

/-- R122, R129: one turn at a position `p` that is probed: on by one position; or a match that does not fit; or a match written,
its positions inserted, and on behind it. -/
theorem encScan_turn (c : Config) {B : List Byte} (cap n : Nat) {p anchor : Nat} (sink : List Byte) (t : Table)
    (hanchor : anchor ≤ p) (hp : p + 9 ≤ B.length) :
    encScan c B cap (n + 1) p anchor sink t = encScan c B cap n (p + 1) anchor sink (tableInsert c B p t) ∨
    ∃ q off m, MatchFound B anchor p q off m ∧
      (encScan c B cap (n + 1) p anchor sink t = (none, tableInsert c B p t) ∨
        ∃ sink1, emitSequence cap (slice B anchor q) off m sink = some sink1 ∧
          encScan c B cap (n + 1) p anchor sink t =
            encScan c B cap n (q + m) (q + m) sink1
              (tableInsertRange c B (p + 1) (q + m - (p + 1)) (tableInsert c B p t))) := by
  rw [encScan, if_pos (show p + Config.minMatch + Config.lastLiterals ≤ B.length from hp)]
  cases ha : acceptCand B (tableGet t (hashAt c B p)) p (u32At B p) with
  | none => exact .inl (by simp only [ha])
  | some a =>
    have hm := matchFound_of_acceptCand hanchor hp ha
    obtain ⟨hback, -, -⟩ := extendBackward_spec B anchor p p a hanchor
    have hend : p - extendBackward B anchor p p a + (extendForward B a p B.length 4 + extendBackward B anchor p p a) =
        p + extendForward B a p B.length 4 := by omega
    refine .inr ⟨_, _, _, hm, ?_⟩
    rw [hend, Nat.add_sub_add_left]
    cases hs : emitSequence cap (slice B anchor (p - extendBackward B anchor p p a)) (p - a)
        (extendForward B a p B.length 4 + extendBackward B anchor p p a) sink with
    | none => exact .inl (by simp only [ha, hs])
    | some sink1 => exact .inr ⟨sink1, rfl, by simp only [ha, hs]⟩

/-! ### The code of a scan (R120, R130 (a)) -/

/-- After the output `out`, the code decodes to `whole`: it is made of legal sequences and last literals (R84, R85) with that
output. -/
def CodesFor (ctx out whole code : List Byte) : Prop :=
  ∃ seqs last, code = blockBytes seqs 0#4 last ∧ seqsOk ctx seqs out ∧ seqsOutput ctx seqs out ++ last = whole

theorem CodesFor.last (ctx out last : List Byte) :
    CodesFor ctx out (out ++ last) ([tokenByte (nibble last.length) 0#4] ++ lengthExt last.length ++ last) :=
  ⟨[], last, rfl, trivial, rfl⟩

theorem CodesFor.cons {ctx out whole code : List Byte} {q : BlockSeq} (hq : seqOk ctx out q)
    (h : CodesFor ctx (seqOutput ctx out q) whole code) : CodesFor ctx out whole (seqBytes q ++ code) := by
  obtain ⟨seqs, last, rfl, hok, hout⟩ := h
  exact ⟨q :: seqs, last, by simp [blockBytes], ⟨hq, hok⟩, hout⟩

/-- R141: the decoder reads such a code, when the capacity holds the output. -/
theorem CodesFor.decBlock_eq {ctx whole code : List Byte} {cap : Nat} (h : CodesFor ctx [] whole code)
    (hcap : whole.length ≤ cap) : decBlock code ctx cap = .ok whole := by
  obtain ⟨seqs, last, rfl, hok, rfl⟩ := h
  exact decoderFollowsBlockLayout ctx last seqs 0#4 cap hok hcap

/-- Copying from `off` back continues a buffer by bytes that equal those `off` before them. -/
theorem copyMatch_slice {B : List Byte} {start p off m : Nat} (hstart : start ≤ p) (hpos : 1 ≤ off) (hreach : off ≤ p)
    (hfits : p + m ≤ B.length) (heq : ∀ i < m, byteAt B (p + i - off) = byteAt B (p + i)) :
    copyMatch (B.take start) off m (slice B start p) = slice B start (p + m) := by
  induction m with
  | zero => rfl
  | succ m ih =>
    have hZ : (B.take start).length + (slice B start (p + m)).length = p + m := by
      rw [← List.length_append, take_append_slice B (by omega), List.length_take, min_eq_left (by omega)]
    have hsrc : copySource (B.take start) (slice B start (p + m)) off = byteAt B (p + m) := by
      rw [copySource_eq (by omega), List.length_append, hZ, take_append_slice B (by omega), byteAt_take B (by omega),
        heq m (Nat.lt_succ_self m)]
    rw [copyMatch_succ, ih (by omega) fun i hi => heq i (by omega), hsrc, ← slice_succ (by omega) (by omega)]
    rfl

section
variable {B : List Byte} {start anchor p q off m : Nat}

/-- R84, R144: what the encoder found is a legal sequence after the bytes before the anchor. -/
theorem MatchFound.legal (h : MatchFound B anchor p q off m) (hstart : start ≤ anchor) :
    seqOk (B.take start) (slice B start anchor) ⟨slice B anchor q, off, m⟩ := by
  obtain ⟨hanchor, -, hfits, hmin, hpos, hoff, hreach, -⟩ := h
  refine ⟨hpos, hoff, hmin, ?_⟩
  simp only [slice_length, List.length_take]
  omega

/-- R141: decoding it gives back the bytes up to the end of the match. -/
theorem MatchFound.seqOutput_eq (h : MatchFound B anchor p q off m) (hstart : start ≤ anchor) :
    seqOutput (B.take start) (slice B start anchor) ⟨slice B anchor q, off, m⟩ = slice B start (q + m) := by
  obtain ⟨hanchor, -, hfits, -, hpos, -, hreach, heq⟩ := h
  have hq : start ≤ q := hstart.trans hanchor
  have hlen : (slice B start q).length + (B.take start).length = q := by
    simp only [slice_length, List.length_take]
    omega
  rw [seqOutput, slice_append_slice B hstart hanchor, ← copyMatch_eq m hpos (by omega),
    copyMatch_slice hq hpos hreach hfits heq]

end

/-- A scan that ends with a code has written, behind what stood in the sink, a code for the bytes from the anchor on. -/
theorem encScan_codesFor {c : Config} {B : List Byte} {cap start turns p anchor : Nat} {sink code : List Byte} {t t1 : Table}
    (hstart : start ≤ anchor) (hanchor : anchor ≤ p) (h : encScan c B cap turns p anchor sink t = (some code, t1)) :
    ∃ rest, code = sink ++ rest ∧ CodesFor (B.take start) (slice B start anchor) (B.drop start) rest := by
  have hlast {a : Nat} {k : List Byte} (ha : start ≤ a) (hk : emitLast cap (B.drop a) k = some code) :
      ∃ rest, code = k ++ rest ∧ CodesFor (B.take start) (slice B start a) (B.drop start) rest := by
    obtain ⟨hcode, -⟩ := emitLast_eq_some hk
    exact ⟨_, hcode, slice_append_drop ha ▸ .last ..⟩
  induction turns generalizing p anchor sink t with
  | zero => exact hlast hstart (Prod.ext_iff.1 h).1
  | succ n ih =>
    by_cases hp : p + 9 ≤ B.length
    · rcases encScan_turn c cap n sink t hanchor hp with hnext | ⟨q, off, m, hm, hfull | ⟨sink1, hs, hnext⟩⟩
      · exact ih hstart (Nat.le_succ_of_le hanchor) (hnext ▸ h)
      · cases hfull.symm.trans h
      · obtain ⟨rfl, -⟩ := emitSequence_eq_some hs
        have hbehind : start ≤ q + m := (hstart.trans hm.anchor_le).trans (Nat.le_add_right q m)
        obtain ⟨rest, rfl, hrest⟩ := ih hbehind le_rfl (hnext ▸ h)
        rw [← hm.seqOutput_eq hstart] at hrest
        exact ⟨_, List.append_assoc .., hrest.cons (hm.legal hstart)⟩
    · rw [encScan_end (n + 1) anchor sink t (Nat.lt_of_not_le hp)] at h
      exact hlast hstart (Prod.ext_iff.1 h).1

/-- R130 (a): Enc's code stands for the block. -/
theorem encBlock_codesFor {c : Config} {B code : List Byte} {start : Nat} {t t1 : Table}
    (h : encBlock c B start t = (some code, t1)) : CodesFor (B.take start) [] (B.drop start) code := by
  obtain ⟨rest, rfl, hrest⟩ := encScan_codesFor le_rfl le_rfl h
  rwa [slice_self] at hrest

/-- Settles O25: the code is made of legal sequences whose output is the block, and the decoder reads every such code. -/
theorem encodedBlockDecodesBack : Obligations.EncodedBlockDecodesBack :=
  fun _ _ _ _ _ _ _ _ hcap h =>
    ⟨(encBlock_codesFor h).decBlock_eq (by rwa [List.length_drop]), encBlock_length h⟩

/-! ### The table after a scan (R129) -/

/-- Every entry of `u` is the entry of `t` or a position from `start` on of a buffer of `n` bytes. -/
def InsertedFrom (t : Table) (start n : Nat) (u : Table) : Prop :=
  ∀ h, tableGet u h = tableGet t h ∨ ∃ p, tableGet u h = some p ∧ p < n ∧ start ≤ p

section
variable {c : Config} {B : List Byte} {t u : Table} {start p : Nat}

theorem InsertedFrom.refl (t : Table) (start n : Nat) : InsertedFrom t start n t := fun _ => .inl rfl

theorem InsertedFrom.insert (h : InsertedFrom t start B.length u) (hstart : start ≤ p) (hp : p < B.length) :
    InsertedFrom t start B.length (tableInsert c B p u) := by
  intro b
  rw [tableInsert, tableGet_tableSet]
  split
  next => exact .inr ⟨p, rfl, hp, hstart⟩
  next => exact h b

theorem InsertedFrom.insertRange {k : Nat} (h : InsertedFrom t start B.length u) (hstart : start ≤ p)
    (hp : p + k ≤ B.length) : InsertedFrom t start B.length (tableInsertRange c B p k u) := by
  induction k generalizing p u with
  | zero => exact h
  | succ k ih => exact ih (h.insert hstart (by omega)) (by omega) (by omega)

theorem InsertedFrom.encScan {cap turns anchor : Nat} {sink : List Byte} (h : InsertedFrom t start B.length u)
    (hstart : start ≤ p) (hanchor : anchor ≤ p) :
    InsertedFrom t start B.length (encScan c B cap turns p anchor sink u).2 := by
  induction turns generalizing p anchor sink u with
  | zero => exact h
  | succ n ih =>
    by_cases hp : p + 9 ≤ B.length
    · have hins := h.insert (c := c) hstart (by omega)
      rcases encScan_turn c cap n sink u hanchor hp with hnext | ⟨q, off, m, hm, hfull | ⟨sink1, -, hnext⟩⟩
      · rw [hnext]
        exact ih hins (by omega) (by omega)
      · rwa [hfull]
      · rw [hnext]
        have hpast := hm.past
        have hfits := hm.fits
        exact ih (hins.insertRange (by omega) (by omega)) (by omega) le_rfl
    · rwa [encScan_end (n + 1) anchor sink u (Nat.lt_of_not_le hp)]

end

/-! ### ENC.BLOCK (R121) -/

section
variable {s : State} {start : Word} {code : List Byte} {t1 : Table}

theorem exec_encBlock_of_code (hfe : feActive s = false) (hstart : start.toNat ≤ s.win.length)
    (h : encBlock s.cfg s.win start.toNat s.t = (some code, t1)) :
    exec (.encBlock start) s =
      if 4194304 < code.length then .next (refuse s)
      else .next (respond ⟨0x00, asWord code.length⟩ { s with t := t1, sink := code }) := by
  have hlegal : ¬ (feActive s || decide (s.win.length < start.toNat)) = true := by simp [hfe, hstart]
  rw [exec, execEncBlock, if_neg hlegal, h]
  rfl

theorem exec_encBlock_of_none (hfe : feActive s = false) (hstart : start.toNat ≤ s.win.length)
    (h : encBlock s.cfg s.win start.toNat s.t = (none, t1)) :
    exec (.encBlock start) s = .next (respond ⟨0x02, 0⟩ { s with t := t1, sink := [] }) := by
  have hlegal : ¬ (feActive s || decide (s.win.length < start.toNat)) = true := by simp [hfe, hstart]
  rw [exec, execEncBlock, if_neg hlegal, h]
  rfl

end

/-- Settles O23, by whether Enc gives a code. -/
theorem encBlockFitsOrWouldNotFit : Obligations.EncBlockFitsOrWouldNotFit := by
  intro s start hfe hstart
  have hins : InsertedFrom s.t start.toNat s.win.length (encBlock s.cfg s.win start.toNat s.t).2 :=
    .encScan (.refl _ _ _) le_rfl le_rfl
  rcases henc : encBlock s.cfg s.win start.toNat s.t with ⟨result, t⟩
  rw [henc] at hins
  refine ⟨result, t, rfl, hins, ?_⟩
  cases result with
  | none => exact .inl ⟨rfl, exec_encBlock_of_none hfe hstart henc⟩
  | some code =>
    have hexec := exec_encBlock_of_code hfe hstart henc
    exact .inr ⟨code, rfl, encBlock_length henc, fun hfits => hexec.trans (if_neg (Nat.not_lt.2 hfits)),
      fun hlong => hexec.trans (if_pos hlong)⟩

/-- R127, R128: last literals alone never fit a sink with room for their number of bytes, because of the token. -/
theorem emitLast_nil_eq_none (lit : List Byte) : emitLast lit.length lit [] = none := by
  refine Option.eq_none_iff_forall_ne_some.2 fun code hcode => ?_
  obtain ⟨rfl, hle⟩ := emitLast_eq_some hcode
  simp only [List.length_append, List.length_singleton] at hle
  omega

/-- R130 (c), R124: no position of so short a block is probed. -/
theorem encBlock_short {c : Config} {B : List Byte} {start : Nat} (t : Table) (h : B.length ≤ start + 8) :
    encBlock c B start t = (none, t) := by
  rw [encBlock, encScan_end _ _ _ _ (by omega), ← List.length_drop, emitLast_nil_eq_none]

/-- Settles O24: Enc gives no code and leaves the table. -/
theorem shortBlockNeverFits : Obligations.ShortBlockNeverFits :=
  fun s _ hfe hstart hshort => exec_encBlock_of_none hfe hstart (encBlock_short s.t hshort)

end Sys2Proof.Machine
end

section
/-! SUPPORT. The statement of 42_raw_block_decoder.md about DEC.BLOCK on the bytes of DIN (R140, R153): one outcome of the
command for each outcome of the decoder. -/

namespace Sys2Proof.Machine

/-- R140: the three contexts a `ctxsel` selects. -/
theorem contextOf_eq_some {s : State} {sel : BitVec 24} {ctx : List Byte}
    (h : (sel = 0 ∧ ctx = []) ∨ (sel = 1 ∧ ctx = s.dwin) ∨ (sel = 2 ∧ ctx = s.dict)) : contextOf sel s = some ctx := by
  rcases h with ⟨rfl, rfl⟩ | ⟨rfl, rfl⟩ | ⟨rfl, rfl⟩ <;> rfl

section
variable {s : State} {sel : BitVec 24} {ctx : List Byte}

theorem exec_decBlock_of_ok {o : List Byte} (hfd : fdActive s = false) (hctx : contextOf sel s = some ctx)
    (h : decBlock s.din ctx s.cfg.outCap = .ok o) :
    exec (.decBlock sel) s = .next (respond ⟨0x00, asWord o.length⟩ { s with out := o, rpos := 0 }) := by
  rw [exec, execDecBlock, if_neg (by simp [hfd]), hctx]
  dsimp only
  rw [h]
  rfl

theorem exec_decBlock_of_error {u : SubCause} (hfd : fdActive s = false) (hctx : contextOf sel s = some ctx)
    (h : decBlock s.din ctx s.cfg.outCap = .error u) :
    exec (.decBlock sel) s = .next (respond ⟨0x12, asWord (subNum u)⟩ { s with out := [], rpos := 0 }) := by
  rw [exec, execDecBlock, if_neg (by simp [hfd]), hctx]
  dsimp only
  rw [h]
  rfl

end

/-- Settles O28, by the decoder's outcome; what it decodes is within the capacity it is given. -/
theorem decBlockFillsOut : Obligations.DecBlockFillsOut :=
  fun _ _ _ hfd hsel =>
    ⟨fun _ ho => ⟨exec_decBlock_of_ok hfd (contextOf_eq_some hsel) ho, decBlock_length ho⟩,
      fun _ hu => exec_decBlock_of_error hfd (contextOf_eq_some hsel) hu⟩

end Sys2Proof.Machine
end

section
/-! SUPPORT. The pieces of the frame encoder's pseudocode (R161 to R167): what each ends in when its transfers succeed, and when
one of its writes fails. -/

namespace Sys2Proof.Machine

/-! ### Writes one after the other (R57) -/

/-- The fields `l`, each written by a transfer of its own. -/
def writeFields : List (List Byte) → State → Run Unit
  | [], s => .done () s
  | v :: l, s => (snkWrite v s).bind fun _ s1 => writeFields l s1

@[simp] theorem transferred_zero (s : State) : transferred 0 s.host.src [] s = s := by simp [transferred]

theorem writeFields_ok (l : List (List Byte)) {s : State} (hd : drawsOk l.length s = true) :
    writeFields l s = .done () (transferred l.length s.host.src l.flatten s) := by
  induction l generalizing s with
  | nil => exact congrArg (Run.done ()) (transferred_zero s).symm
  | cons v l ih =>
    rw [List.length_cons, Nat.add_comm] at hd
    rw [writeFields, snkWrite_ok v (drawsOk_mono (Nat.le_add_right ..) hd), bind_done, ih (drawsOk_transferred hd)]
    simp [Nat.add_comm]

/-- The write that fails leaves a front part of its field in SNK, behind the fields before it. -/
theorem writeFields_fail {l : List (List Byte)} {i k : Nat} {ds : List IoDraw} {s : State} (h : FailsAfter i k ds s)
    (hi : i < l.length) :
    ∃ landed, landed <+: l.getD i [] ∧ writeFields l s = .raised .ioFailure none
      { s with host := { s.host with draws := ds, snk := s.host.snk ++ (l.take i).flatten ++ landed } } := by
  induction l generalizing i s with
  | nil => cases hi
  | cons v l ih =>
    cases i with
    | zero =>
      refine ⟨v.take k, List.take_prefix .., ?_⟩
      rw [writeFields, snkWrite_fail (failsAfter_zero.1 h)]
      simp
    | succ i =>
      rw [Nat.add_comm] at h
      obtain ⟨landed, hl, hw⟩ := ih (h.transferred (a := s.host.src) (b := v)) (Nat.lt_of_succ_lt_succ hi)
      refine ⟨landed, hl, ?_⟩
      rw [writeFields, snkWrite_ok v (h.drawsOk (Nat.le_add_right ..)), bind_done, hw]
      simp [transferred]

/-- No write takes bytes from SRC. -/
theorem snkWrite_src (v : List Byte) (s : State) : (snkWrite v s).state.host.src = s.host.src := by
  cases hd : s.host.draws with
  | nil => simp [snkWrite, takeDraw, hd, Run.state]
  | cons d ds => cases d <;> simp [snkWrite, takeDraw, hd, Run.state]

theorem writeFields_src (l : List (List Byte)) (s : State) : (writeFields l s).state.host.src = s.host.src := by
  induction l generalizing s with
  | nil => rfl
  | cons v l ih =>
    have hv := snkWrite_src v s
    rw [writeFields]
    cases hw : snkWrite v s with
    | done u t => exact (ih t).trans (by simpa [hw, Run.state] using hv)
    | raised k u t => simpa [hw, Run.state] using hv

/-! ### FE.START (R161) -/

/-- What FE.START sets before it writes the header. -/
def feLatched (s : State) : State := { s with fe := { s.fe with set := s.settings, err := none, ch := none } }

/-- The state when the header is written. -/
def feStarted (mode : BitVec 24) (s : State) : State :=
  { transferred 1 s.host.src (startHeader mode s) s with
    win := s.dict, t := seededTable s.cfg s.dict, tpl := seededTable s.cfg s.dict, sink := []
    fe := { state := .headerWritten, err := none, dlen := s.dict.length, set := s.settings
            ch := if setCck s.settings then some (hasherInit 0) else none } }

theorem feStartRun_ok (mode : BitVec 24) {s : State} (hd : drawsOk 1 s = true) :
    feStartRun mode s = .done (okResponse (asWord (startHeader mode s).length)) (feStarted mode s) := by
  change (snkWrite (startHeader mode s) (feLatched s)).bind _ = _
  rw [snkWrite_ok _ (show drawsOk 1 (feLatched s) = true from hd)]
  rfl

theorem feStartRun_fail (mode : BitVec 24) {s : State} {k : Nat} {ds : List IoDraw} (h : s.host.draws = .fail k :: ds) :
    feStartRun mode s = .raised .ioFailure none
      { feLatched s with host := { s.host with draws := ds, snk := s.host.snk ++ (startHeader mode s).take k } } := by
  change (snkWrite (startHeader mode s) (feLatched s)).bind _ = _
  rw [snkWrite_fail (show (feLatched s).host.draws = .fail k :: ds from h)]
  rfl

/-- However its transfers end, FE.START answers OK or raises an error, and OK leaves a frame open. -/
theorem feStartRun_done {mode : BitVec 24} {s t : State} {r : Response} (h : feStartRun mode s = .done r t) :
    (∃ v, r = okResponse v) ∧ feActive t = true := by
  obtain ⟨_, _, -, hr⟩ := bind_eq_done h
  cases hr
  exact ⟨⟨_, rfl⟩, rfl⟩

/-! ### FE.BLOCK (R164) -/

/-- The bytes that FE.BLOCK takes from SRC. -/
def nextChunk (s : State) : List Byte := s.host.src.take (Config.blockMax (setBsz s.fe.set))

/-- What they leave in SRC. -/
def afterChunk (s : State) : List Byte := s.host.src.drop (Config.blockMax (setBsz s.fe.set))

/-- Enc on the chunk, behind the window. -/
def chunkCode (s : State) : Option (List Byte) × Table := encBlock s.cfg (s.win ++ nextChunk s) s.win.length s.t

/-- The code, or the chunk itself when the code would not fit. -/
def blockBody (s : State) : List Byte := (chunkCode s).1.getD (nextChunk s)

/-- The length word of the block. -/
def blockWord (s : State) : Word := lengthWord (chunkCode s).1.isNone (BitVec.ofNat 31 (blockBody s).length)

/-- The fields of the block, each as one transfer. -/
def nextBlock (s : State) : List (List Byte) := blockFields s.cfg (setBck s.fe.set) (blockWord s) (blockBody s)

/-- The state when the block is written and PostBlock is done. -/
def blockWritten (s : State) : State :=
  { transferred (1 + (nextBlock s).length) (afterChunk s) (nextBlock s).flatten s with
    sink := (chunkCode s).1.getD []
    win := if setInd s.fe.set then (s.win ++ nextChunk s).take s.fe.dlen else lastK 65536 (s.win ++ nextChunk s)
    t := if setInd s.fe.set then s.tpl
      else if 65536 < (s.win ++ nextChunk s).length then tableShift ((s.win ++ nextChunk s).length - 65536) (chunkCode s).2
      else (chunkCode s).2
    fe := { s.fe with state := .blockLoop, ch := s.fe.ch.map fun hs => hasherWrite hs (nextChunk s) } }

theorem blockFields_length (c : Config) (bck : Bool) (w : Word) (body : List Byte) :
    (blockFields c bck w body).length = if bck then 3 else 2 := by cases bck <;> rfl

theorem blockFields_flatten (c : Config) (bck : Bool) (w : Word) (body : List Byte) :
    (blockFields c bck w body).flatten = le32 w ++ body ++ checksumBytes bck (h32 c 0 body) := by
  cases bck <;> simp [blockFields, checksumBytes]

theorem writeBlock_eq_writeFields (w : Word) (body : List Byte) (s : State) :
    writeBlock w body s = writeFields (blockFields s.cfg (setBck s.fe.set) w body) s := by
  have hunit (r : Run Unit) : (r.bind fun _ t => .done () t) = r := by cases r <;> rfl
  rw [writeBlock, blockFields]
  cases setBck s.fe.set
  · simp [writeFields, writeChecksum]
  · simp [writeFields, writeChecksum, hunit]

theorem writeBlock_done_src {w : Word} {body : List Byte} {s t : State} {u : Unit} (h : writeBlock w body s = .done u t) :
    t.host.src = s.host.src := by
  have hkeep := writeFields_src (blockFields s.cfg (setBck s.fe.set) w body) s
  rwa [← writeBlock_eq_writeFields, h] at hkeep

/-- R166: PostBlock changes WIN and T alone. -/
theorem postBlock_eq (s : State) :
    postBlock s =
      { s with
        win := if setInd s.fe.set then s.win.take s.fe.dlen else lastK 65536 s.win
        t := if setInd s.fe.set then s.tpl
          else if 65536 < s.win.length then tableShift (s.win.length - 65536) s.t else s.t } := by
  unfold postBlock
  split
  next hi => rfl
  next hi =>
    split
    next hlong => rfl
    next hshort => rw [lastK_of_le (Nat.not_lt.1 hshort)]

/-- What FE.BLOCK does after its writes. -/
def blockClosed (s : State) : State := { postBlock s with fe := { (postBlock s).fe with state := .blockLoop } }

theorem nextChunk_ne_nil {s : State} (hs : s.host.src ≠ []) : nextChunk s ≠ [] := by
  have hpos := blockMax_pos (setBsz s.fe.set)
  simp [nextChunk, hs, Nat.ne_of_gt hpos]

/-- FE.BLOCK on a non-empty SRC codes the next chunk, and then writes. -/
theorem feBlockRun_of_src {s : State} (hd : drawsOk 1 s = true) (hs : s.host.src ≠ []) :
    feBlockRun s =
      (writeFields (nextBlock s) (blockCoded (nextChunk s) (transferred 1 (afterChunk s) [] s))).bind
        fun _ t => .done (okResponse (blockWord s)) (blockClosed t) := by
  have hchunk : (nextChunk s).isEmpty = false := by simpa using nextChunk_ne_nil hs
  rw [feBlockRun, srcReadUpTo_ok _ hd, bind_done]
  simp only [← nextChunk.eq_1, hchunk, writeBlock_eq_writeFields]
  rfl

/-- The transfers of FE.BLOCK: one read, and one write for each field. -/
theorem one_add_nextBlock_length (s : State) : 1 + (nextBlock s).length = if setBck s.fe.set then 4 else 3 := by
  rw [nextBlock, blockFields_length]
  split <;> rfl

theorem feBlockRun_ok {s : State} (hd : drawsOk (if setBck s.fe.set then 4 else 3) s = true) (hs : s.host.src ≠ []) :
    feBlockRun s = .done (okResponse (blockWord s)) (blockWritten s) := by
  rw [← one_add_nextBlock_length] at hd
  have hcoded : drawsOk (nextBlock s).length (blockCoded (nextChunk s) (transferred 1 (afterChunk s) [] s)) = true :=
    drawsOk_transferred (a := afterChunk s) (b := []) hd
  rw [feBlockRun_of_src (drawsOk_mono (Nat.le_add_right ..) hd) hs, writeFields_ok _ hcoded, bind_done, blockClosed,
    postBlock_eq]
  simp [blockWritten, transferred, blockCoded, chunkCode, Nat.add_comm]

theorem feBlockRun_of_empty {s : State} (hd : drawsOk 1 s = true) (hs : s.host.src = []) :
    feBlockRun s =
      .done endResponse { transferred 1 [] [] s with fe := { s.fe with state := .blockLoop } } := by
  rw [feBlockRun, srcReadUpTo_ok _ hd, hs, List.take_nil, List.drop_nil]
  rfl

theorem feBlockRun_read_fail {s : State} {k : Nat} {ds : List IoDraw} (h : s.host.draws = .fail k :: ds) :
    feBlockRun s = .raised .ioFailure none { s with host := { s.host with draws := ds } } := by
  rw [feBlockRun, srcReadUpTo_fail h]
  rfl

/-- A write of FE.BLOCK that fails leaves the chunk coded and PostBlock undone. -/
theorem feBlockRun_write_fail {s : State} {i k : Nat} {ds : List IoDraw} (h : FailsAfter (1 + i) k ds s)
    (hi : i < (nextBlock s).length) (hs : s.host.src ≠ []) :
    ∃ landed, landed <+: (nextBlock s).getD i [] ∧ feBlockRun s = .raised .ioFailure none
      { blockCoded (nextChunk s) s with
        host := { s.host with
          src := afterChunk s, draws := ds, snk := s.host.snk ++ ((nextBlock s).take i).flatten ++ landed } } := by
  have hcoded : FailsAfter i k ds (blockCoded (nextChunk s) (transferred 1 (afterChunk s) [] s)) :=
    h.transferred (a := afterChunk s) (b := [])
  obtain ⟨landed, hl, hw⟩ := writeFields_fail hcoded hi
  refine ⟨landed, hl, ?_⟩
  rw [feBlockRun_of_src (h.drawsOk (Nat.le_add_right ..)) hs, hw]
  simp [blockCoded, transferred]

/-- However its transfers end, FE.BLOCK answers END, or OK with bytes taken from SRC, or raises an error; the frame stays
open. -/
theorem feBlockRun_done {s t : State} {r : Response} (h : feBlockRun s = .done r t) :
    feActive t = true ∧ (r = endResponse ∨ (∃ w, r = okResponse w) ∧ t.host.src.length < s.host.src.length) := by
  obtain ⟨chunk, s1, hread, hrest⟩ := bind_eq_done h
  split at hrest
  next => cases hrest; exact ⟨rfl, .inl rfl⟩
  next hchunk =>
    obtain ⟨_, s2, hwrite, hend⟩ := bind_eq_done hrest
    cases hend
    refine ⟨rfl, .inr ⟨⟨_, rfl⟩, ?_⟩⟩
    have hsrc := writeBlock_done_src hwrite
    obtain ⟨u, hu, -, hdrop⟩ | ⟨u, hu, -⟩ := srcReadUpTo_cases (Config.blockMax (setBsz s.fe.set)) s
    · cases hu.symm.trans hread
      have hpos := blockMax_pos (setBsz s.fe.set)
      have hne : 0 < s.host.src.length := List.length_pos_iff.2 fun hnil => by simp [hnil] at hchunk
      simp only [postBlock_eq, hsrc, hdrop, List.length_drop]
      omega
    · cases hu.symm.trans hread

/-! ### FE.FINISH (R167) -/

/-- The content checksum that FE.FINISH answers, 0 without a content hasher. -/
def trailerValue (c : Config) : Option Hasher → Word
  | none => 0
  | some hs => hasherFinish c hs

/-- The fields that FE.FINISH writes: the end mark, and the content checksum with a content hasher. -/
def trailerFields (c : Config) : Option Hasher → List (List Byte)
  | none => [le32 0]
  | some hs => [le32 0, le32 (hasherFinish c hs)]

/-- The state when the frame is ended. -/
def feFinished (s : State) : State :=
  { transferred (trailerFields s.cfg s.fe.ch).length s.host.src (trailerFields s.cfg s.fe.ch).flatten s with
    fe := { s.fe with state := .done, ch := none } }

/-- The state when the end mark is written. -/
def markWritten (s : State) : State :=
  { transferred 1 s.host.src (le32 0) s with fe := { s.fe with state := .terminatorWritten } }

theorem feFinishRun_of_mark {s : State} (hd : drawsOk 1 s = true) :
    feFinishRun s = (feTrailerRun (markWritten s)).bind
      fun v t => .done (okResponse v) { t with fe := { t.fe with ch := none, state := .done } } := by
  rw [feFinishRun, snkWrite_ok _ hd]
  rfl

theorem feTrailerRun_of_none {s : State} (h : s.fe.ch = none) : feTrailerRun s = .done 0 s := by
  rw [feTrailerRun, h]

theorem feTrailerRun_of_some {s : State} {hs : Hasher} (h : s.fe.ch = some hs) :
    feTrailerRun s = (snkWrite (le32 (hasherFinish s.cfg hs)) s).bind
      fun _ t => .done (hasherFinish s.cfg hs) { t with fe := { t.fe with state := .trailerWritten } } := by
  rw [feTrailerRun, h]

theorem feFinishRun_ok {s : State} (hd : drawsOk (trailerFields s.cfg s.fe.ch).length s = true) :
    feFinishRun s = .done (okResponse (trailerValue s.cfg s.fe.ch)) (feFinished s) := by
  unfold feFinished
  cases hch : s.fe.ch with
  | none =>
    rw [hch] at hd
    rw [feFinishRun_of_mark hd, feTrailerRun_of_none (by exact hch)]
    simp [markWritten, hch, trailerFields, trailerValue]
  | some hs =>
    rw [hch] at hd
    have hsecond : drawsOk 1 (markWritten s) = true := drawsOk_transferred (j := 1) (k := 1) (b := le32 0) hd
    rw [feFinishRun_of_mark (drawsOk_mono (Nat.le_succ 1) hd), feTrailerRun_of_some (by exact hch), snkWrite_ok _ hsecond]
    simp [markWritten, transferred, trailerFields, trailerValue]

theorem feFinishRun_mark_fail {s : State} {k : Nat} {ds : List IoDraw} (h : s.host.draws = .fail k :: ds) :
    feFinishRun s = .raised .ioFailure none
      { s with host := { s.host with draws := ds, snk := s.host.snk ++ (le32 0).take k } } := by
  rw [feFinishRun, snkWrite_fail h]
  rfl

/-- R167: after a failed checksum the content hasher is still there. -/
theorem feFinishRun_checksum_fail {s : State} {k : Nat} {ds : List IoDraw} {hs : Hasher} (h : FailsAfter 1 k ds s)
    (hch : s.fe.ch = some hs) :
    feFinishRun s = .raised .ioFailure none
      { s with
        host := { s.host with draws := ds, snk := s.host.snk ++ le32 0 ++ (le32 (hasherFinish s.cfg hs)).take k }
        fe := { s.fe with state := .terminatorWritten } } := by
  have hnext : (markWritten s).host.draws = .fail k :: ds := h.2
  rw [feFinishRun_of_mark (h.drawsOk le_rfl), feTrailerRun_of_some (by exact hch), snkWrite_fail hnext]
  rfl

theorem feFinishRun_done {s t : State} {r : Response} (h : feFinishRun s = .done r t) : ∃ v, r = okResponse v := by
  obtain ⟨_, s1, -, hrest⟩ := bind_eq_done h
  obtain ⟨v, s2, -, hend⟩ := bind_eq_done hrest
  cases hend
  exact ⟨v, rfl⟩

end Sys2Proof.Machine
end

section
/-! SUPPORT. The statements of 43_frame_encoder.md about single commands whose transfers succeed (R161 to R167): the header of
R162, the length word and body of a block, and the trailer. -/

namespace Sys2Proof.Machine

/-! ### The commands as runs (R160, R161) -/

section
variable {s : State} {mode : BitVec 24}

theorem modeOk_eq_true (h : mode.toNat ≤ 2) : modeOk mode = true := decide_eq_true h

theorem exec_feStart_of_mode (h : modeOk mode = true) :
    exec (.feStart mode) s = .next (finishRun .fe (feStartRun mode s)) := if_pos h

theorem exec_feRun_of_mode (h : modeOk mode = true) :
    exec (.feRun mode) s = .next (finishRun .fe (feRunRun mode s)) := if_pos h

theorem exec_feBlock_of_active (h : feActive s = true) : exec .feBlock s = .next (finishRun .fe (feBlockRun s)) := if_pos h

theorem exec_feFinish_of_active (h : feActive s = true) :
    exec .feFinish s = .next (finishRun .fe (feFinishRun s)) := if_pos h

end

/-! ### The header (R161, R162) -/

/-- The header between the magic and the checksum. -/
def headerMiddle (c : Config) (f : HdrFlags) (bsz : BitVec 2) (size : Option (BitVec 64)) (id : Option Word) : List Byte :=
  [flgByte c.flg f, bdByte c.bd bsz] ++ sizeField size ++ idField id

section
variable (c : Config) (f : HdrFlags) (ind bck cck : Bool) (bsz : BitVec 2) (size : Option (BitVec 64)) (id : Option Word)

theorem headerBytes_eq : headerBytes c ind bck cck bsz size id =
    le32 c.magic ++ headerMiddle c ⟨ind, bck, size.isSome, cck, id.isSome⟩ bsz size id ++
      [headerChecksum c (headerMiddle c ⟨ind, bck, size.isSome, cck, id.isSome⟩ bsz size id)] := rfl

theorem sizeField_length : (sizeField size).length = if size.isSome then 8 else 0 := by
  cases size <;> rfl

theorem idField_length : (idField id).length = if id.isSome then 4 else 0 := by
  cases id <;> rfl

/-- R162: FLG and BD, at most eight bytes of size and four of id. -/
theorem headerMiddle_length_le : (headerMiddle c f bsz size id).length ≤ 14 := by
  have hsize := sizeField_length size
  have hid := idField_length id
  simp only [headerMiddle, List.length_append, List.length_cons, List.length_nil]
  split at hsize <;> split at hid <;> omega

end

/-- What FE.START writes between the magic and the checksum. -/
def startMiddle (mode : BitVec 24) (s : State) : List Byte :=
  headerMiddle s.cfg ⟨setInd s.settings, setBck s.settings, decide (mode ≠ 0), setCck s.settings, setDid s.settings⟩
    (setBsz s.settings) (contentSize mode s) (if setDid s.settings then some s.dictId else none)

theorem contentSize_isSome (mode : BitVec 24) (s : State) : (contentSize mode s).isSome = decide (mode ≠ 0) := by
  by_cases h0 : mode = 0#24
  · simp [contentSize, h0]
  · by_cases h1 : mode = 1#24 <;> simp [contentSize, h0, h1]

theorem startHeader_eq (mode : BitVec 24) (s : State) :
    startHeader mode s = le32 s.cfg.magic ++ startMiddle mode s ++ [headerChecksum s.cfg (startMiddle mode s)] := by
  rw [startHeader, headerBytes_eq, contentSize_isSome, startMiddle]
  cases setDid s.settings <;> rfl

theorem startHeader_length (mode : BitVec 24) (s : State) :
    (startHeader mode s).length = 5 + (startMiddle mode s).length := by
  simp [startHeader_eq]
  omega

/-- Settles O29: the header is R162's, and the table is the seeding loop of R105 on an empty one. -/
theorem feStartWritesHeader : Obligations.FeStartWritesHeader := by
  intro s mode hmode hd hstride
  refine ⟨sizeField (contentSize mode s), idField (if setDid s.settings then some s.dictId else none),
    seededTable s.cfg s.dict, startMiddle mode s, ?_, ?_, ?_, ?_, rfl,
    seedResult_tableSeed s.cfg s.dict [] hstride (Nat.le_add_left ..), ?_⟩
  · rintro rfl; rfl
  · rintro rfl; rfl
  · rintro rfl; rfl
  · split <;> rfl
  · rw [exec_feStart_of_mode (modeOk_eq_true hmode), feStartRun_ok mode hd, startHeader_length, feStarted, startHeader_eq]
    rfl

/-! ### A block (R164) -/

theorem nextChunk_append_afterChunk (s : State) : nextChunk s ++ afterChunk s = s.host.src := List.take_append_drop ..

theorem nextChunk_length (s : State) :
    (nextChunk s).length = min (Config.blockMax (setBsz s.fe.set)) s.host.src.length := List.length_take

theorem nextChunk_length_le (s : State) : (nextChunk s).length ≤ 4194304 := by
  rw [nextChunk_length]
  exact (min_le_left ..).trans (blockMax_le _)

/-- R90: a length below 2^31 is its own length word, with bit 31 set for stored bytes. -/
theorem lengthWord_ofNat (stored : Bool) {n : Nat} (h : n < 2147483648) :
    lengthWord stored (BitVec.ofNat 31 n) = (if stored then 0x80000000 else 0) + asWord n := by
  apply BitVec.eq_of_toNat_eq
  have hs : (BitVec.ofBool stored).toNat = if stored then 1 else 0 := by cases stored <;> rfl
  rw [lengthWord, BitVec.toNat_append, BitVec.toNat_ofNat, Nat.mod_eq_of_lt (by omega : n < 2 ^ 31), hs,
    ← Nat.shiftLeft_add_eq_or_of_lt (by omega : n < 2 ^ 31)]
  cases stored <;> simp [asWord] <;> omega

/-- R120: neither a code nor the stored chunk is longer than the chunk. -/
theorem blockBody_length_le (s : State) : (blockBody s).length ≤ (nextChunk s).length := by
  unfold blockBody
  cases h : (chunkCode s).1 with
  | none => exact le_rfl
  | some code => simpa using encBlock_length (Prod.ext h rfl)

/-- R164: the chunk, its code or the lack of one, and the length word and body that follow from it. -/
theorem nextBlock_spec (s : State) :
    encBlock s.cfg (s.win ++ nextChunk s) s.win.length s.t =
      (if (chunkCode s).1.isSome then some ((chunkCode s).1.getD []) else none, (chunkCode s).2) ∧
    ((chunkCode s).1.isSome = true →
      blockWord s = asWord ((chunkCode s).1.getD []).length ∧ blockBody s = (chunkCode s).1.getD []) ∧
    ((chunkCode s).1.isSome = false →
      blockWord s = 0x80000000 + asWord (nextChunk s).length ∧ blockBody s = nextChunk s ∧
        (chunkCode s).1.getD [] = []) := by
  have hlen : (blockBody s).length < 2147483648 :=
    ((blockBody_length_le s).trans (nextChunk_length_le s)).trans_lt (by decide)
  have hw : blockWord s = _ := lengthWord_ofNat _ hlen
  rw [hw]
  unfold blockBody
  rw [← chunkCode]
  rcases chunkCode s with ⟨_ | code, t⟩
  · simp
  · simp

/-- Settles O30: the witnesses are the chunk and what Enc makes of it. -/
theorem feBlockWritesBlock : Obligations.FeBlockWritesBlock := by
  intro s ha hs hd
  obtain ⟨henc, hfits, hstored⟩ := nextBlock_spec s
  refine ⟨nextChunk s, afterChunk s, _, blockBody s, blockWord s, _, _, (nextChunk_append_afterChunk s).symm,
    nextChunk_length s, henc, hfits, hstored, ?_⟩
  rw [exec_feBlock_of_active ha, feBlockRun_ok hd hs, ← one_add_nextBlock_length, ← blockFields_flatten]
  rfl

/-- Settles O31: an empty SRC gives an empty chunk. -/
theorem feBlockEndsOnEmptySrc : Obligations.FeBlockEndsOnEmptySrc := by
  intro s ha hs hd
  rw [exec_feBlock_of_active ha, feBlockRun_of_empty hd hs]
  rfl

/-- Settles O32, by whether there is a content hasher. -/
theorem feFinishWritesEndMark : Obligations.FeFinishWritesEndMark := by
  intro s ha
  rw [exec_feFinish_of_active ha]
  refine ⟨fun hch hd => ?_, fun hs hch hd => ?_⟩
  · rw [feFinishRun_ok (by rwa [hch])]
    simp only [feFinished, hch]
    rfl
  · rw [feFinishRun_ok (by rwa [hch])]
    simp only [feFinished, hch]
    rfl

end Sys2Proof.Machine
end

section
/-! SUPPORT. FE.RUN (R168): it ends as FE.START, FE.BLOCK as long as it answers OK, and FE.FINISH do one after the other, also
when a transfer fails (R172); and with successful transfers it takes the whole of SRC, block by block (R165, R171). -/

namespace Sys2Proof.Machine

/-! ### The end of a command, read backwards (R74, R250) -/

theorem bind_bind {α β γ : Type} (r : Run α) (f : α → State → Run β) (g : β → State → Run γ) :
    (r.bind f).bind g = r.bind fun a s => (f a s).bind g := by
  cases r <;> rfl

/-- R240: the status of an error lies above every other status but REFUSED. -/
theorem errResponse_status_gt (k : ErrKind) (u : Option SubCause) : 0x10 < (errResponse (some k) u).status.toNat := by
  have h : ∀ k, 0x10 < (0x10#8 + BitVec.ofNat 8 (errNum k)).toNat := by
    intro k
    cases k <;> decide
  exact h k

/-- The response that the failure entry gives, whatever the unit, is an error's. -/
theorem failureEntry_eq_respond {unit : ErrUnit} {k : ErrKind} {u : Option SubCause} {a : Response} {s t : State}
    (h : failureEntry unit k u s = respond a t) : 0x10 < a.status.toNat := by
  cases unit <;> rw [← (respond_injective h).1] <;> exact errResponse_status_gt ..

/-- A response that is no error's is that of a run which ended with it. -/
theorem finishRun_eq_respond {unit : ErrUnit} {r : Run Response} {a : Response} {t : State}
    (h : finishRun unit r = respond a t) (ha : a.status.toNat ≤ 0x10) : r = .done a t := by
  cases r with
  | done b s =>
    obtain ⟨rfl, rfl⟩ := respond_injective h
    rfl
  | raised k u s => exact absurd (failureEntry_eq_respond h) (Nat.not_lt.2 ha)

/-- An error's response is that of a run which raised it, so what was still to run does not matter. -/
theorem finishRun_bind_eq_respond {unit : ErrUnit} {r : Run Response} {f : Response → State → Run Response} {a : Response}
    {t : State} (h : finishRun unit r = respond a t) (hr : ∀ b u, r = .done b u → b ≠ a) :
    finishRun unit (r.bind f) = respond a t := by
  cases r with
  | done b s => exact absurd (respond_injective h).1 (hr b s rfl)
  | raised k u s => exact h

section
variable {s t u w : State} {mode : BitVec 24} {n : Nat} {a : Response}

theorem feStartRun_of_exec (h : exec (.feStart mode) s = .next (respond a t)) (ha : a.status ≠ 0xFF) :
    modeOk mode = true ∧ finishRun .fe (feStartRun mode s) = respond a t := by
  cases hm : modeOk mode with
  | true => exact ⟨rfl, by simpa [exec_feStart_of_mode hm] using h⟩
  | false =>
    have hrefuse : exec (.feStart mode) s = .next (refuse s) := if_neg (by simp [hm])
    rw [hrefuse] at h
    obtain ⟨rfl, -⟩ := respond_injective (Host.Outcome.next.inj h)
    exact absurd rfl ha

theorem feBlockRun_of_exec (hact : feActive s = true) (h : exec .feBlock s = .next (respond a t)) :
    finishRun .fe (feBlockRun s) = respond a t := by
  rw [exec_feBlock_of_active hact] at h
  exact Host.Outcome.next.inj h

theorem feFinishRun_of_exec (hact : feActive s = true) (h : exec .feFinish s = .next (respond a t)) :
    finishRun .fe (feFinishRun s) = respond a t := by
  rw [exec_feFinish_of_active hact] at h
  exact Host.Outcome.next.inj h

/-! ### FE.RUN by its parts (R168) -/

/-- After `n` good blocks the loop stands at the next one, with a turn left for it. -/
theorem feRunLoop_okAfter {turns k : Nat} (h : OkAfter (List.replicate n .feBlock) s t) (hact : feActive s = true)
    (hturns : s.host.src.length < turns) :
    feActive t = true ∧ ∃ m, feRunLoop turns k s = feRunLoop (m + 1) (k + n) t := by
  induction n generalizing s k turns with
  | zero =>
    cases h
    obtain ⟨m, rfl⟩ := Nat.exists_eq_succ_of_ne_zero (Nat.ne_of_gt (Nat.zero_lt_of_lt hturns))
    exact ⟨hact, m, rfl⟩
  | succ n ih =>
    obtain ⟨v, u, hu, hrest⟩ := h
    have hrun := finishRun_eq_respond (feBlockRun_of_exec hact hu) (Nat.zero_le _)
    obtain ⟨hu, hend | ⟨-, hsrc⟩⟩ := feBlockRun_done hrun
    · cases hend
    · obtain ⟨turns, rfl⟩ := Nat.exists_eq_succ_of_ne_zero (Nat.ne_of_gt (Nat.zero_lt_of_lt hturns))
      obtain ⟨ht, m, hm⟩ := ih (k := k + 1) (turns := turns) hrest hu (by omega)
      refine ⟨ht, m, ?_⟩
      rw [feRunLoop, hrun, bind_done, if_neg (by rintro ⟨⟩), hm, Nat.add_assoc, Nat.add_comm 1 n]

/-- After FE.START and `n` good blocks, FE.RUN goes on with the next FE.BLOCK. -/
theorem feRunRun_okAfter (h : OkAfter (.feStart mode :: List.replicate n .feBlock) s t) :
    modeOk mode = true ∧ feActive t = true ∧ ∃ m, feRunRun mode s =
      (feBlockRun t).bind fun r u => (if r = endResponse then .done n u else feRunLoop m (n + 1) u).bind fun k w =>
        (feFinishRun w).bind fun _ x => .done (okResponse (asWord k)) x := by
  obtain ⟨v, u, hu, hblocks⟩ := h
  obtain ⟨hm, hrun⟩ := feStartRun_of_exec hu (by decide : (0x00#8 : BitVec 8) ≠ 0xFF)
  have hstart := finishRun_eq_respond hrun (Nat.zero_le _)
  obtain ⟨-, hact⟩ := feStartRun_done hstart
  obtain ⟨ht, m, hloop⟩ := feRunLoop_okAfter (k := 0) hblocks hact (Nat.lt_succ_self _)
  refine ⟨hm, ht, m, ?_⟩
  rw [feRunRun, hstart, bind_done, hloop, Nat.zero_add, feRunLoop, bind_bind]

theorem exec_feRun_of_parts {v : Word} (h : OkAfter (.feStart mode :: List.replicate n .feBlock) s t)
    (hend : exec .feBlock t = .next (respond ⟨0x03, 0⟩ u)) (hfin : exec .feFinish u = .next (respond ⟨0x00, v⟩ w)) :
    exec (.feRun mode) s = .next (respond ⟨0x00, asWord n⟩ w) := by
  obtain ⟨hm, ht, m, hrun⟩ := feRunRun_okAfter h
  have hblock : feBlockRun t = .done endResponse u := finishRun_eq_respond (feBlockRun_of_exec ht hend) (by decide)
  obtain ⟨hu, -⟩ := feBlockRun_done hblock
  have hfinish := finishRun_eq_respond (feFinishRun_of_exec hu hfin) (Nat.zero_le _)
  rw [exec_feRun_of_mode hm, hrun, hblock, bind_done, if_pos rfl, bind_done, hfinish]
  rfl

/-! ### FE.RUN when a transfer fails (R172) -/

theorem exec_feRun_of_start_fail (h : exec (.feStart mode) s = .next (respond ⟨0x11, 0⟩ u)) :
    exec (.feRun mode) s = .next (respond ⟨0x11, 0⟩ u) := by
  obtain ⟨hm, hrun⟩ := feStartRun_of_exec h (by decide : (0x11#8 : BitVec 8) ≠ 0xFF)
  rw [exec_feRun_of_mode hm, feRunRun, finishRun_bind_eq_respond hrun]
  intro b t hb
  obtain ⟨⟨v, rfl⟩, -⟩ := feStartRun_done hb
  rintro ⟨⟩

theorem exec_feRun_of_block_fail (h : OkAfter (.feStart mode :: List.replicate n .feBlock) s t)
    (hfail : exec .feBlock t = .next (respond ⟨0x11, 0⟩ u)) : exec (.feRun mode) s = .next (respond ⟨0x11, 0⟩ u) := by
  obtain ⟨hm, ht, m, hrun⟩ := feRunRun_okAfter h
  rw [exec_feRun_of_mode hm, hrun, finishRun_bind_eq_respond (feBlockRun_of_exec ht hfail)]
  intro b x hb
  obtain ⟨-, rfl | ⟨⟨v, rfl⟩, -⟩⟩ := feBlockRun_done hb <;> rintro ⟨⟩

theorem exec_feRun_of_finish_fail (h : OkAfter (.feStart mode :: List.replicate n .feBlock) s t)
    (hend : exec .feBlock t = .next (respond ⟨0x03, 0⟩ u)) (hfail : exec .feFinish u = .next (respond ⟨0x11, 0⟩ w)) :
    exec (.feRun mode) s = .next (respond ⟨0x11, 0⟩ w) := by
  obtain ⟨hm, ht, m, hrun⟩ := feRunRun_okAfter h
  have hblock : feBlockRun t = .done endResponse u := finishRun_eq_respond (feBlockRun_of_exec ht hend) (by decide)
  obtain ⟨hu, -⟩ := feBlockRun_done hblock
  rw [exec_feRun_of_mode hm, hrun, hblock, bind_done, if_pos rfl, bind_done,
    finishRun_bind_eq_respond (feFinishRun_of_exec hu hfail)]
  intro b x hb
  obtain ⟨v, rfl⟩ := feFinishRun_done hb
  rintro ⟨⟩

end

/-- Settles O34, transfer by transfer; in FE.RUN a failure ends the part in which it happens, and nothing runs after it. -/
theorem feIoFailureEntersFailed : Obligations.FeIoFailureEntersFailed := by
  intro s k ds
  refine ⟨fun hf mode hmode => ?_, fun hf ha => ?_, fun i hf hi ha hs => ?_, fun hf ha => ?_, fun hf ha hs hch => ?_,
    fun mode n t u w => ⟨exec_feRun_of_start_fail,
      fun h => ⟨exec_feRun_of_block_fail h, exec_feRun_of_finish_fail h⟩⟩⟩
  · refine ⟨(startHeader mode s).take k, List.take_prefix .., ?_⟩
    rw [exec_feStart_of_mode (modeOk_eq_true hmode), feStartRun_fail mode (failsAfter_zero.1 hf)]
    rfl
  · rw [exec_feBlock_of_active ha, feBlockRun_read_fail (failsAfter_zero.1 hf)]
    rfl
  · obtain ⟨henc, hfits, hstored⟩ := nextBlock_spec s
    obtain ⟨landed, hl, hrun⟩ := feBlockRun_write_fail hf (by rwa [nextBlock, blockFields_length]) hs
    refine ⟨nextChunk s, afterChunk s, _, blockBody s, landed, blockWord s, _, _, (nextChunk_append_afterChunk s).symm,
      nextChunk_length s, henc, hfits, hstored, hl, ?_⟩
    rw [exec_feBlock_of_active ha, hrun]
    rfl
  · refine ⟨(le32 0).take k, List.take_prefix .., ?_⟩
    rw [exec_feFinish_of_active ha, feFinishRun_mark_fail (failsAfter_zero.1 hf)]
    rfl
  · refine ⟨(le32 (hasherFinish s.cfg hs)).take k, List.take_prefix .., ?_⟩
    rw [exec_feFinish_of_active ha, feFinishRun_checksum_fail hf hch]
    rfl

/-! ### Every block of SRC (R165) -/

/-- With successful transfers `n` blocks lead from `s` to `t`, where SRC is empty; `body` is what they write. -/
inductive BlocksTo : Nat → List Byte → State → State → Prop
  | done {s : State} (hs : s.host.src = []) : BlocksTo 0 [] s s
  | block {n : Nat} {body : List Byte} {s t : State} (hs : s.host.src ≠ []) (h : BlocksTo n body (blockWritten s) t) :
      BlocksTo (n + 1) ((nextBlock s).flatten ++ body) s t

/-- Every block takes a byte or more. -/
theorem afterChunk_length_lt {s : State} (hs : s.host.src ≠ []) : (afterChunk s).length < s.host.src.length := by
  have hpos := blockMax_pos (setBsz s.fe.set)
  have hne := List.length_pos_iff.2 hs
  rw [afterChunk, List.length_drop]
  omega

theorem exists_blocksTo (s : State) : ∃ n body t, BlocksTo n body s t := by
  induction hlen : s.host.src.length using Nat.strong_induction_on generalizing s with
  | _ len ih =>
    by_cases hs : s.host.src = []
    · exact ⟨0, [], s, .done hs⟩
    · obtain ⟨n, body, t, h⟩ := ih _ (hlen ▸ afterChunk_length_lt hs) (blockWritten s) rfl
      exact ⟨n + 1, _, t, .block hs h⟩

/-- The state when FE.BLOCK has answered END. -/
def endAnswered (t : State) : State := { transferred 1 [] [] t with fe := { t.fe with state := .blockLoop } }

section
variable {n : Nat} {body : List Byte} {s t : State}

theorem allDrawsOk_blockWritten (hd : allDrawsOk s = true) : allDrawsOk (blockWritten s) = true :=
  allDrawsOk_transferred (a := afterChunk s) (b := (nextBlock s).flatten) hd

theorem BlocksTo.allDrawsOk (h : BlocksTo n body s t) (hd : allDrawsOk s = true) : allDrawsOk t = true := by
  induction h with
  | done => exact hd
  | block _ _ ih => exact ih (allDrawsOk_blockWritten hd)

/-- The loop of FE.RUN does these blocks, and then FE.BLOCK answers END. -/
theorem BlocksTo.feRunLoop_eq {turns k : Nat} (h : BlocksTo n body s t) (hd : Machine.allDrawsOk s = true)
    (hturns : s.host.src.length < turns) : feRunLoop turns k s = .done (k + n) (endAnswered t) := by
  obtain ⟨turns, rfl⟩ := Nat.exists_eq_succ_of_ne_zero (Nat.ne_of_gt (Nat.zero_lt_of_lt hturns))
  induction h generalizing k turns with
  | done hs =>
    rw [feRunLoop, feBlockRun_of_empty (drawsOk_of_all 1 hd) hs, bind_done, if_pos rfl]
    rfl
  | @block n body s t hs _ ih =>
    have hlt := afterChunk_length_lt hs
    obtain ⟨turns, rfl⟩ := Nat.exists_eq_succ_of_ne_zero (n := turns) (by omega)
    rw [feRunLoop, feBlockRun_ok (drawsOk_of_all _ hd) hs, bind_done, if_neg (by rintro ⟨⟩),
      ih (allDrawsOk_blockWritten hd) turns (by simp only [blockWritten, transferred_host_src]; omega), Nat.add_assoc,
      Nat.add_comm 1 n]

/-- What the blocks leave unchanged, and what they append to SNK. -/
theorem BlocksTo.frame (h : BlocksTo n body s t) :
    t.host.snk = s.host.snk ++ body ∧ t.fe.set = s.fe.set ∧ t.fe.err = s.fe.err ∧ t.cfg = s.cfg := by
  induction h with
  | done => simp
  | block _ _ ih =>
    obtain ⟨hsnk, hset, herr, hcfg⟩ := ih
    exact ⟨by simp [hsnk, blockWritten], hset, herr, hcfg⟩

/-- R165: ceil(S / BLOCK_MAX) blocks. -/
theorem BlocksTo.count (h : BlocksTo n body s t) :
    n = (s.host.src.length + (Config.blockMax (setBsz s.fe.set) - 1)) / Config.blockMax (setBsz s.fe.set) := by
  induction h with
  | @done s hs =>
    have hpos := blockMax_pos (setBsz s.fe.set)
    rw [hs, List.length_nil, Nat.zero_add, Nat.div_eq_of_lt (Nat.sub_lt hpos Nat.one_pos)]
  | @block n body s t hs _ ih =>
    have hne := List.length_pos_iff.2 hs
    change n = ((afterChunk s).length + (Config.blockMax (setBsz s.fe.set) - 1)) / Config.blockMax (setBsz s.fe.set) at ih
    rw [afterChunk, List.length_drop] at ih
    rcases blockMax_cases (setBsz s.fe.set) with hmax | hmax | hmax | hmax <;> rw [hmax] at ih ⊢ <;> omega

theorem nextBlock_flatten_length (s : State) :
    (nextBlock s).flatten.length = 4 + (blockBody s).length + if setBck s.fe.set then 4 else 0 := by
  rw [nextBlock, blockFields_flatten]
  cases setBck s.fe.set <;> simp [checksumBytes, Nat.add_assoc]

/-- R171 (b): a length word for each block, and a checksum with BCK, over the bytes taken. -/
theorem BlocksTo.body_length (h : BlocksTo n body s t) :
    body.length ≤ s.host.src.length + (if setBck s.fe.set then 8 else 4) * n ∧ n ≤ body.length := by
  induction h with
  | done => simp
  | @block n body s t hs _ ih =>
    change body.length ≤ (afterChunk s).length + (if setBck s.fe.set then 8 else 4) * n ∧ _ at ih
    have hbody := blockBody_length_le s
    have hsrc := congrArg List.length (nextChunk_append_afterChunk s)
    rw [List.length_append] at hsrc
    rw [List.length_append, nextBlock_flatten_length]
    cases hbck : setBck s.fe.set <;> simp [hbck] at ih ⊢ <;> omega

end

/-! ### FE.RUN with successful transfers (R168, R171 (b)) -/

theorem feRunRun_ok (mode : BitVec 24) {s : State} (hd : allDrawsOk s = true) :
    ∃ n body t, BlocksTo n body (feStarted mode s) t ∧
      feRunRun mode s = .done (okResponse (asWord n)) (feFinished (endAnswered t)) := by
  obtain ⟨n, body, t, h⟩ := exists_blocksTo (feStarted mode s)
  have hstarted : allDrawsOk (feStarted mode s) = true :=
    allDrawsOk_transferred (a := s.host.src) (b := startHeader mode s) hd
  have hended : allDrawsOk (endAnswered t) = true := allDrawsOk_transferred (a := []) (b := []) (h.allDrawsOk hstarted)
  refine ⟨n, body, t, h, ?_⟩
  rw [feRunRun, feStartRun_ok mode (drawsOk_of_all 1 hd), bind_done, h.feRunLoop_eq hstarted (Nat.lt_succ_self _), bind_done,
    feFinishRun_ok (drawsOk_of_all _ hended), bind_done, Nat.zero_add]

/-- The frame that FE.RUN writes. -/
theorem feFinished_endAnswered_snk {mode : BitVec 24} {n : Nat} {body : List Byte} {s t : State}
    (h : BlocksTo n body (feStarted mode s) t) :
    (feFinished (endAnswered t)).host.snk =
      s.host.snk ++ (startHeader mode s ++ body ++ (trailerFields s.cfg t.fe.ch).flatten) := by
  obtain ⟨hsnk, -, -, hcfg⟩ := h.frame
  simp [feFinished, endAnswered, hsnk, hcfg, feStarted]

theorem trailerFields_flatten_length_le (c : Config) (ch : Option Hasher) : (trailerFields c ch).flatten.length ≤ 8 := by
  cases ch <;> simp [trailerFields]

/-- Settles O33: with successful transfers by the blocks that SRC holds; and part by part. -/
theorem feRunCompressesAll : Obligations.FeRunCompressesAll := by
  intro s mode hmode
  refine ⟨fun hd => ?_, fun n t u w v => exec_feRun_of_parts⟩
  obtain ⟨n, body, t, h, hrun⟩ := feRunRun_ok mode hd
  obtain ⟨-, -, herr, -⟩ := h.frame
  obtain ⟨hlen, -⟩ := h.body_length
  have hresp : (feFinished (endAnswered t)).host.resp = s.host.resp := by
    obtain ⟨hkept, -⟩ := feRunRun_envKept mode s
    rw [hrun] at hkept
    exact hkept.resp
  refine ⟨respond (okResponse (asWord n)) (feFinished (endAnswered t)), _, n, ?_, rfl, herr, rfl, rfl,
    feFinished_endAnswered_snk h, h.count, ?_, ?_⟩
  · rw [exec_feRun_of_mode (modeOk_eq_true hmode), hrun, finishRun]
  · rw [respond_host_resp, hresp]
    rfl
  · have hheader : (startMiddle mode s).length ≤ 14 := headerMiddle_length_le ..
    have htrailer := trailerFields_flatten_length_le s.cfg t.fe.ch
    change body.length ≤ s.host.src.length + (if setBck s.settings then 8 else 4) * n at hlen
    rw [List.length_append, List.length_append, startHeader_length]
    omega

end Sys2Proof.Machine
end

section
/-! SUPPORT. The frame decoder on what the frame encoder writes (R171 (a)): FD.OPEN on a header of R162, FD.BLOCK on a block and
on the end mark, and the relation between an encoder and the decoder that follows it, which every block keeps. -/

namespace Sys2Proof.Machine

/-! ### Reads one after the other (R56) -/

/-- How many transfers an optional field takes. -/
def optionalReads (present : Bool) : Nat := if present then 1 else 0

/-- A read after `k` transfers, of the bytes in front. -/
theorem srcRead_transferred {s : State} {k n : Nat} {v rest : List Byte} (hd : drawsOk (k + 1) s = true) (hv : v.length = n) :
    srcRead n (transferred k (v ++ rest) [] s) = .done v (transferred (k + 1) rest [] s) := by
  rw [srcRead_ok (drawsOk_transferred hd) rfl hv, transferred_transferred, List.append_nil]

theorem readOptional_transferred {present : Bool} {s : State} {k n : Nat} {v rest : List Byte}
    (hd : drawsOk (k + optionalReads present) s = true) (hv : v.length = if present then n else 0) :
    readOptional present n (transferred k (v ++ rest) [] s) =
      .done v (transferred (k + optionalReads present) rest [] s) := by
  cases present with
  | true => exact srcRead_transferred hd hv
  | false =>
    obtain rfl := List.eq_nil_of_length_eq_zero hv
    rfl

/-- A state with `src` in SRC, as no transfer has been made yet. -/
theorem transferred_zero_of_src {s : State} {src : List Byte} (h : s.host.src = src) : transferred 0 src [] s = s :=
  h ▸ transferred_zero s

/-! ### FD.OPEN on a header (R162, R181) -/

/-- FD.OPEN reads a header of R162 field by field, and finds nothing wrong with it. -/
theorem fdOpenRun_headerBytes {s : State} {ind bck cck : Bool} {bsz : BitVec 2} {size : Option (BitVec 64)}
    {id : Option Word} {rest : List Byte} (hc : s.cfg.valid)
    (hs : s.host.src = headerBytes s.cfg ind bck cck bsz size id ++ rest)
    (hd : drawsOk (3 + optionalReads size.isSome + optionalReads id.isSome) s = true) :
    fdOpenRun s = .done (okResponse (asWord (headerBytes s.cfg ind bck cck bsz size id).length))
      (openHeader ⟨ind, bck, size.isSome, cck, id.isSome⟩ bsz (flgByte s.cfg.flg ⟨ind, bck, size.isSome, cck, id.isSome⟩)
        (bdByte s.cfg.bd bsz) (sizeField size) (idField id)
        (transferred (3 + optionalReads size.isSome + optionalReads id.isSome) rest [] (openClear s))) := by
  obtain ⟨-, -, -, -, hflg, hbd, -⟩ := hc
  rw [headerBytes_eq] at hs ⊢
  have hsize := sizeField_length size
  have hid := idField_length id
  generalize hf : (⟨ind, bck, size.isSome, cck, id.isSome⟩ : HdrFlags) = f at *
  rw [show size.isSome = f.csz from hf ▸ rfl] at hd hsize ⊢
  rw [show id.isSome = f.did from hf ▸ rfl] at hd hid ⊢
  have hread : transferred 0 (le32 s.cfg.magic ++ ([flgByte s.cfg.flg f, bdByte s.cfg.bd bsz] ++ (sizeField size ++
      (idField id ++ ([headerChecksum s.cfg (headerMiddle s.cfg f bsz size id)] ++ rest))))) [] (openClear s) =
      openClear s :=
    transferred_zero_of_src (hs.trans (by simp [headerMiddle]))
  have hcfg : (openClear s).cfg = s.cfg := rfl
  have hdraws {k : Nat} (hk : k ≤ 3 + optionalReads f.csz + optionalReads f.did) : drawsOk k (openClear s) = true :=
    drawsOk_mono hk hd
  have hparse : parseFlg s.cfg.flg (byteAt [flgByte s.cfg.flg f, bdByte s.cfg.bd bsz] 0) = some f := parseFlg_flgByte hflg _
  have hclass : parseBd s.cfg.bd (byteAt [flgByte s.cfg.flg f, bdByte s.cfg.bd bsz] 1) = some bsz := parseBd_bdByte hbd bsz
  have hcount : 0 + 1 + 1 + optionalReads f.csz + optionalReads f.did + 1 = 3 + optionalReads f.csz + optionalReads f.did := by
    omega
  have hlen : (le32 s.cfg.magic ++ headerMiddle s.cfg f bsz size id ++
      [headerChecksum s.cfg (headerMiddle s.cfg f bsz size id)]).length =
      4 + (headerMiddle s.cfg f bsz size id).length + 1 := by
    simp [Nat.add_assoc]
  unfold fdOpenRun
  generalize openClear s = o at *
  rw [← hread, srcRead_transferred (hdraws (by omega)) (le32_length _), bind_done, u32At_le32_nil]
  simp only [transferred_cfg, hcfg, ne_eq, not_true_eq_false, if_false]
  rw [srcRead_transferred (hdraws (by omega)) (by rfl), bind_done]
  simp only [hcfg, transferred_cfg, hparse, hclass]
  rw [readOptional_transferred (hdraws (by omega)) hsize, bind_done, readOptional_transferred (hdraws (by omega)) hid,
    bind_done, srcRead_transferred (hdraws (by omega)) (by rfl), bind_done]
  simp only [hcfg, transferred_cfg, hlen, hread, hcount]
  exact if_neg fun h => h rfl

/-! ### FD.BLOCK on a block (R184 to R189) -/

/-- What FD.BLOCK clears before it reads. -/
def blockClear (s : State) : State := { s with out := [], rpos := 0, din := [] }

theorem checkBlockRun_ok {s : State} {rest : List Byte}
    (hs : s.host.src = checksumBytes s.fd.bck (h32 s.cfg 0 s.din) ++ rest) (hd : drawsOk (optionalReads s.fd.bck) s = true) :
    checkBlockRun s = .done () (transferred (optionalReads s.fd.bck) rest [] s) := by
  unfold checkBlockRun
  cases hbck : s.fd.bck with
  | false =>
    rw [hbck] at hs
    exact congrArg (Run.done ()) (transferred_zero_of_src hs).symm
  | true =>
    rw [hbck] at hs hd
    rw [if_pos rfl, srcRead_ok hd hs (le32_length _), bind_done]
    exact if_neg fun h => h (u32At_le32_nil _)

/-- The state when a block `b` has given the bytes `o`, with `k` transfers. -/
def blockDelivered (k : Nat) (b o rest : List Byte) (s : State) : State :=
  { transferred k rest [] s with
    din := b, out := o, dwin := if s.fd.ind then s.dwin else lastK 65536 (s.dwin ++ o)
    fd := { s.fd with ch := s.fd.ch.map fun hs => hasherWrite hs o } }

section
variable {s : State} {b o rest : List Byte}

theorem fdDataRun_ok {w : Word} (hs : s.host.src = b ++ (checksumBytes s.fd.bck (h32 s.cfg 0 b) ++ rest))
    (hd : drawsOk (1 + optionalReads s.fd.bck) s = true) (hw : (wordCount w).toNat = b.length)
    (hlen : b.length ≤ s.cfg.dinCap) (ho : blockOutput (wordStored w) { s with din := b } = .ok o)
    (hmax : o.length ≤ s.fd.bmax) :
    fdDataRun w s = .done (okResponse (asWord o.length)) (blockDelivered (1 + optionalReads s.fd.bck) b o rest s) := by
  have hcheck : checkBlockRun { transferred 1 (checksumBytes s.fd.bck (h32 s.cfg 0 b) ++ rest) [] s with din := b } =
      .done () { transferred (1 + optionalReads s.fd.bck) rest [] s with din := b } := by
    rw [checkBlockRun_ok (by rfl) (by exact drawsOk_transferred hd)]
    simp [transferred, Nat.add_comm]
  have hout : blockOutput (wordStored w) { transferred (1 + optionalReads s.fd.bck) rest [] s with din := b } = .ok o := ho
  rw [fdDataRun, hw, if_neg (Nat.not_lt.2 hlen), srcRead_ok (drawsOk_mono (Nat.le_add_right ..) hd) hs rfl, bind_done, hcheck,
    bind_done, hout]
  exact if_neg (Nat.not_lt.2 hmax)

/-- R184: a block with the right checksum, whose bytes `o` do not exceed the class maximum. -/
theorem fdBlockRun_block {stored : Bool}
    (hs : s.host.src =
      le32 (lengthWord stored (BitVec.ofNat 31 b.length)) ++ b ++ checksumBytes s.fd.bck (h32 s.cfg 0 b) ++ rest)
    (hd : drawsOk (2 + optionalReads s.fd.bck) s = true) (hb : stored = true ∨ b ≠ []) (hlen : b.length ≤ s.cfg.dinCap)
    (hcap : s.cfg.dinCap ≤ 2147483647) (ho : blockOutput stored { s with din := b } = .ok o) (hmax : o.length ≤ s.fd.bmax) :
    fdBlockRun s = .done (okResponse (asWord o.length))
      { blockDelivered (2 + optionalReads s.fd.bck) b o rest s with rpos := 0 } := by
  have hcount : (BitVec.ofNat 31 b.length).toNat = b.length := by
    rw [BitVec.toNat_ofNat]
    omega
  have hword : lengthWord stored (BitVec.ofNat 31 b.length) ≠ 0#32 := by
    rw [Ne, lengthWord_eq_zero, ← BitVec.toNat_inj, hcount]
    rcases hb with rfl | hb
    · simp
    · simpa using fun _ => hb
  have hreads : 1 + (1 + optionalReads s.fd.bck) = 2 + optionalReads s.fd.bck := by omega
  have hdraws : drawsOk (1 + (1 + optionalReads s.fd.bck)) (blockClear s) = true := by rwa [hreads]
  have hread : (blockClear s).host.src = le32 (lengthWord stored (BitVec.ofNat 31 b.length)) ++
      (b ++ (checksumBytes s.fd.bck (h32 s.cfg 0 b) ++ rest)) := hs.trans (by simp)
  have hdata := fdDataRun_ok (b := b) (o := o) (rest := rest)
    (s := transferred 1 (b ++ (checksumBytes s.fd.bck (h32 s.cfg 0 b) ++ rest)) [] (blockClear s))
    (w := lengthWord stored (BitVec.ofNat 31 b.length)) rfl (drawsOk_transferred hdraws) (by rw [wordCount_lengthWord, hcount])
    hlen (by rwa [wordStored_lengthWord]) hmax
  change (srcRead 4 (blockClear s)).bind _ = _
  rw [srcRead_ok (drawsOk_mono (Nat.le_add_right ..) hdraws) hread (le32_length _), bind_done, u32At_le32_nil, if_neg hword,
    hdata]
  simp only [blockDelivered, transferred_transferred, transferred_fd, List.append_nil]
  change Run.done _ { blockDelivered (1 + (1 + optionalReads s.fd.bck)) b o rest s with rpos := 0 } = _
  rw [hreads]
  rfl

end

/-! ### FD.BLOCK on the end mark (R190) -/

theorem fdBlockRun_of_mark {s : State} {rest : List Byte} (hs : s.host.src = le32 0 ++ rest) (hd : drawsOk 1 s = true) :
    fdBlockRun s = fdEndRun (transferred 1 rest [] (blockClear s)) := by
  change (srcRead 4 (blockClear s)).bind _ = _
  rw [srcRead_ok (s := blockClear s) hd hs (le32_length _), bind_done, u32At_le32_nil]
  exact if_pos rfl

theorem fdEndRun_of_none {s : State} (h : s.fd.ch = none) :
    fdEndRun s = .done endResponse { s with fd := { s.fd with state := .finished } } := by
  rw [fdEndRun, h]

theorem fdEndRun_of_some {s : State} {hs : Hasher} {rest : List Byte} (h : s.fd.ch = some hs)
    (hsrc : s.host.src = le32 (hasherFinish s.cfg hs) ++ rest) (hd : drawsOk 1 s = true) :
    fdEndRun s = .done endResponse { transferred 1 rest [] s with fd := { s.fd with state := .finished } } := by
  rw [fdEndRun, h]
  dsimp only
  rw [srcRead_ok hd hsrc (le32_length _), bind_done, u32At_le32_nil]
  exact if_neg fun hne => hne rfl

/-- The decoder when the end mark, and the content checksum with a content hasher, are read. -/
def fdFinished (rest : List Byte) (s : State) : State :=
  { transferred (trailerFields s.cfg s.fd.ch).length rest [] s with
    din := [], out := [], rpos := 0, fd := { s.fd with state := .finished } }

theorem fdBlockRun_trailer {s : State} {rest : List Byte} (hs : s.host.src = (trailerFields s.cfg s.fd.ch).flatten ++ rest)
    (hd : drawsOk (trailerFields s.cfg s.fd.ch).length s = true) :
    fdBlockRun s = .done endResponse (fdFinished rest s) := by
  unfold fdFinished
  cases hch : s.fd.ch with
  | none =>
    rw [hch] at hs hd
    rw [fdBlockRun_of_mark hs hd, fdEndRun_of_none (by exact hch)]
    rfl
  | some h =>
    rw [hch] at hs hd
    have hmark : s.host.src = le32 0 ++ (le32 (hasherFinish s.cfg h) ++ rest) := hs.trans (by simp [trailerFields])
    rw [fdBlockRun_of_mark hmark (drawsOk_mono (Nat.le_succ 1) hd),
      fdEndRun_of_some (by exact hch) (by rfl) (by exact drawsOk_transferred (j := 1) (k := 1) hd), transferred_transferred]
    rfl

/-! ### An encoder and the decoder that follows it (R171 (a)) -/

/-- Between two blocks, what the decoder `r` holds of the frame is what the encoder `s` holds: the settings, the content hasher,
and the context of the next block, which is the encoder's window (R166, R189). -/
structure Follows (s r : State) : Prop where
  cfg : r.cfg = s.cfg
  ind : r.fd.ind = setInd s.fe.set
  bck : r.fd.bck = setBck s.fe.set
  bmax : r.fd.bmax = Config.blockMax (setBsz s.fe.set)
  ch : r.fd.ch = s.fe.ch
  context : (if setInd s.fe.set then r.dict else r.dwin) = s.win
  dlen : setInd s.fe.set = true → s.fe.dlen = s.win.length

/-- R130 (a): the decoder gets the chunk out of the body, whether that is a code or the chunk itself. -/
theorem Follows.blockOutput_eq {s r : State} (h : Follows s r) (hc : s.cfg.valid) :
    blockOutput (chunkCode s).1.isNone { r with din := blockBody s } = .ok (nextChunk s) := by
  obtain ⟨-, -, -, -, -, -, hcap, -⟩ := hc
  unfold blockOutput blockBody
  cases hcode : (chunkCode s).1 with
  | none => rfl
  | some code =>
    have hdec := encodedBlockDecodesBack s.cfg (s.win ++ nextChunk s) code s.win.length s.cfg.outCap s.t (chunkCode s).2
      (by simp) (by simpa using (nextChunk_length_le s).trans hcap) (Prod.ext hcode rfl)
    obtain ⟨hdec, -⟩ := hdec
    rw [List.take_left, List.drop_left] at hdec
    simp [h.ind, h.context, h.cfg, hdec]

/-- R85: every code has a token. -/
theorem blockBody_ne_nil {s : State} (hs : s.host.src ≠ []) : blockBody s ≠ [] := by
  unfold blockBody
  cases hcode : (chunkCode s).1 with
  | none => exact nextChunk_ne_nil hs
  | some code =>
    obtain ⟨seqs, last, rfl, -⟩ := encBlock_codesFor (t1 := (chunkCode s).2) (Prod.ext hcode rfl)
    exact List.ne_nil_of_length_pos (Nat.zero_lt_of_lt (length_lt_blockBytes seqs 0#4 last))

/-- The decoder when the next block of `s` is read and written to SNK. -/
def blockFollowed (s : State) (rest : List Byte) (r : State) : State :=
  transferred 1 rest (nextChunk s)
    { blockDelivered (2 + optionalReads r.fd.bck) (blockBody s) (nextChunk s) rest r with rpos := 0 }

section
variable {s t r : State} {rest body : List Byte} {n : Nat}

theorem allDrawsOk_blockFollowed (hd : allDrawsOk r = true) : allDrawsOk (blockFollowed s rest r) = true :=
  allDrawsOk_transferred (allDrawsOk_transferred (s := r) (a := rest) (b := []) hd)

/-- One turn of FD.ALL's loop on the encoder's next block. -/
theorem Follows.fdAllLoop_succ (h : Follows s r) (hc : s.cfg.valid) (hs : s.host.src ≠ []) (hd : allDrawsOk r = true)
    (hsrc : r.host.src = (nextBlock s).flatten ++ rest) (turns k : Nat) :
    fdAllLoop (turns + 1) k r = fdAllLoop turns (k + 1) (blockFollowed s rest r) := by
  have hout := h.blockOutput_eq hc
  have hlen := (blockBody_length_le s).trans (nextChunk_length_le s)
  obtain ⟨-, -, -, -, -, -, -, -, hdin, -, hmax⟩ := hc
  have hbytes : r.host.src = le32 (lengthWord (chunkCode s).1.isNone (BitVec.ofNat 31 (blockBody s).length)) ++ blockBody s ++
      checksumBytes r.fd.bck (h32 r.cfg 0 (blockBody s)) ++ rest := by
    rw [hsrc, nextBlock, blockFields_flatten, h.bck, h.cfg, blockWord]
  have hread := fdBlockRun_block hbytes (drawsOk_of_all _ hd) (.inr (blockBody_ne_nil hs)) (h.cfg ▸ hlen.trans hdin)
    (h.cfg ▸ hmax) hout (by rw [nextChunk_length, h.bmax]; exact min_le_left ..)
  rw [fdAllLoop, hread, bind_done, if_neg (by rintro ⟨⟩),
    snkWrite_ok _ (drawsOk_of_all 1 (by exact allDrawsOk_transferred (b := []) hd)), bind_done]
  rfl

/-- R166: in independent mode the window is the dictionary again. -/
theorem blockWritten_win_of_ind (hi : setInd s.fe.set = true) (hlen : s.fe.dlen = s.win.length) :
    (blockWritten s).win = s.win :=
  (if_pos hi).trans (List.take_left' hlen.symm)

/-- R166: in dependent mode it is the last bytes written. -/
theorem blockWritten_win_of_dep (hi : ¬ setInd s.fe.set = true) :
    (blockWritten s).win = lastK 65536 (s.win ++ nextChunk s) := if_neg hi

/-- Both keep the same window (R166, R189) and have hashed the same bytes. -/
theorem Follows.next (h : Follows s r) : Follows (blockWritten s) (blockFollowed s rest r) := by
  obtain ⟨hcfg, hind, hbck, hbmax, hch, hctx, hdlen⟩ := h
  refine ⟨hcfg, hind, hbck, hbmax, congrArg (Option.map fun hs => hasherWrite hs (nextChunk s)) hch, ?_, fun hi => ?_⟩
  · by_cases hi : setInd s.fe.set = true
    · have hdict : r.dict = s.win := (if_pos hi).symm.trans hctx
      exact (if_pos hi).trans (hdict.trans (blockWritten_win_of_ind hi (hdlen hi)).symm)
    · have hdwin : r.dwin = s.win := (if_neg hi).symm.trans hctx
      have hnext : (blockFollowed s rest r).dwin = lastK 65536 (r.dwin ++ nextChunk s) := if_neg (hind ▸ hi)
      exact (if_neg hi).trans (hnext.trans (hdwin ▸ (blockWritten_win_of_dep hi).symm))
  · have hlen : s.fe.dlen = s.win.length := hdlen hi
    rw [blockWritten_win_of_ind (s := s) hi hlen]
    exact hlen

/-- The loop of FD.ALL on the blocks that the encoder writes. -/
theorem BlocksTo.fdAllLoop_eq (hb : BlocksTo n body s t) (h : Follows s r) (hc : s.cfg.valid) (hd : Machine.allDrawsOk r = true)
    (hsrc : r.host.src = body ++ rest) :
    ∃ r', Follows t r' ∧ Machine.allDrawsOk r' = true ∧ r'.host.src = rest ∧ r'.host.snk = r.host.snk ++ s.host.src ∧
      ∀ turns k, fdAllLoop (n + turns) k r = fdAllLoop turns (k + n) r' := by
  induction hb generalizing r with
  | done hs => exact ⟨r, h, hd, hsrc, by simp [hs], fun turns k => by simp⟩
  | @block n body s t hs _ ih =>
    have hnext : r.host.src = (nextBlock s).flatten ++ (body ++ rest) := hsrc.trans (List.append_assoc ..)
    obtain ⟨r', hr', hd', hsrc', hsnk, hloop⟩ :=
      ih (r := blockFollowed s (body ++ rest) r) h.next hc (allDrawsOk_blockFollowed hd) rfl
    refine ⟨r', hr', hd', hsrc', ?_, fun turns k => ?_⟩
    · rw [hsnk, ← nextChunk_append_afterChunk s]
      simp [blockFollowed, blockWritten, blockDelivered]
    · rw [Nat.succ_add_eq_add_succ, Nat.add_succ, h.fdAllLoop_succ hc hs hd hnext, hloop, Nat.add_assoc, Nat.add_comm 1 n]

end

/-! ### A frame (R168, R192) -/

/-- FD.OPEN on what FE.START wrote leaves a decoder that follows the encoder. -/
theorem fdOpenRun_startHeader {s r : State} {mode : BitVec 24} {rest : List Byte} (hc : s.cfg.valid) (hcfg : r.cfg = s.cfg)
    (hdict : r.dict = s.dict) (hd : allDrawsOk r = true) (hs : r.host.src = startHeader mode s ++ rest) :
    ∃ a r', fdOpenRun r = .done a r' ∧ Follows (feStarted mode s) r' ∧ allDrawsOk r' = true ∧ r'.host.src = rest ∧
      r'.host.snk = r.host.snk := by
  have hopen := fdOpenRun_headerBytes (s := r) (hcfg ▸ hc) (by rw [hs, startHeader, hcfg]) (drawsOk_of_all _ hd)
  refine ⟨_, _, hopen, ⟨hcfg, rfl, rfl, rfl, rfl, ?_, fun _ => rfl⟩, ?_, rfl, ?_⟩
  · by_cases hi : setInd s.settings = true
    · exact (if_pos hi).trans hdict
    · exact (if_neg hi).trans ((if_neg hi).trans hdict)
  · exact allDrawsOk_transferred (s := r) (a := rest) (b := []) hd
  · exact List.append_nil _

/-- FD.ALL on a frame of FE.RUN. -/
theorem fdAllRun_frame {s t r : State} {mode : BitVec 24} {n : Nat} {body rest : List Byte}
    (hb : BlocksTo n body (feStarted mode s) t) (hc : s.cfg.valid) (hcfg : r.cfg = s.cfg) (hdict : r.dict = s.dict)
    (hd : allDrawsOk r = true)
    (hs : r.host.src = startHeader mode s ++ body ++ (trailerFields s.cfg t.fe.ch).flatten ++ rest) :
    ∃ u, fdAllRun r = .done (okResponse (asWord n)) u ∧ u.host.snk = r.host.snk ++ s.host.src ∧ u.host.src = rest ∧
      u.out = [] ∧ u.fd.state = .finished := by
  simp only [List.append_assoc] at hs
  obtain ⟨a, r1, hopen, hr1, hd1, hsrc1, hsnk1⟩ := fdOpenRun_startHeader hc hcfg hdict hd hs
  obtain ⟨r2, hr2, hd2, hsrc2, hsnk2, hloop⟩ := hb.fdAllLoop_eq hr1 hc hd1 hsrc1
  obtain ⟨-, hn⟩ := hb.body_length
  obtain ⟨-, -, -, hcfg2⟩ := hb.frame
  have hfields : trailerFields s.cfg t.fe.ch = trailerFields r2.cfg r2.fd.ch := by
    rw [hr2.cfg, hr2.ch, hcfg2]
    rfl
  rw [hfields] at hsrc2
  have hend := fdBlockRun_trailer hsrc2 (drawsOk_of_all _ hd2)
  obtain ⟨turns, hturns⟩ : ∃ turns, r1.host.src.length + 1 = n + (turns + 1) :=
    ⟨r1.host.src.length - n, by rw [hsrc1, List.length_append]; omega⟩
  refine ⟨fdFinished rest r2, ?_, ?_, rfl, rfl, rfl⟩
  · rw [fdAllRun, hopen, bind_done, hturns, hloop, fdAllLoop, hend, bind_done, if_pos rfl, bind_done, Nat.zero_add]
  · rw [fdFinished, transferred_host_snk, List.append_nil, hsnk2, hsnk1]
    rfl

/-- Settles O45: FE.RUN writes a header, its blocks and a trailer, and FD.ALL follows it through all three. -/
theorem frameRoundTrip : Obligations.FrameRoundTrip := by
  intro s mode hc hmode hd _
  obtain ⟨n, body, t, hb, hrun⟩ := feRunRun_ok mode hd
  refine ⟨respond (okResponse (asWord n)) (feFinished (endAnswered t)), _, ?_, feFinished_endAnswered_snk hb, ?_⟩
  · rw [exec_feRun_of_mode (modeOk_eq_true hmode), hrun, finishRun]
  · intro r rest hcfg hdict hdr hsrc
    obtain ⟨u, hall, hsnk, hsrc, hout, hfin⟩ := fdAllRun_frame hb hc hcfg hdict hdr hsrc
    refine ⟨respond (okResponse (asWord n)) u, ?_, hsnk, hsrc, hout, hfin, ?_⟩
    · rw [exec, execFdAll, hall, finishRun]
    · obtain ⟨hkept, -⟩ := fdAllRun_envKept r
      rw [hall] at hkept
      rw [respond_host_resp, respond_host_resp, List.getLastD_concat, ← hkept.resp]
      rfl

end Sys2Proof.Machine
end

section
/-! SUPPORT. The statements of 44_frame_decoder.md about FD.OPEN (R181, R182, R197): it reads the fields of a header one by one, so it
ends where a read fails, at the first field that is wrong, or with an open frame. -/

namespace Sys2Proof.Machine

/-! ### Reads of given fields one after the other (R56) -/

/-- Under the configuration `c`, the piece of pseudocode is to read the fields of the list, each as one transfer, and, when they
are as given, it changes nothing else meanwhile and goes on with `g`. -/
inductive ReadsThen {α : Type} (c : Config) (g : State → Run α) : List (List Byte) → (State → Run α) → Prop
  | nil {f : State → Run α} (hf : ∀ s, s.cfg = c → f s = g s) : ReadsThen c g [] f
  | cons {f : State → Run α} {v : List Byte} {l : List (List Byte)} (F : List Byte → State → Run α)
      (hf : ∀ s, s.cfg = c → f s = (srcRead v.length s).bind F) (hl : ReadsThen c g l (F v)) : ReadsThen c g (v :: l) f

section
variable {α : Type} {c : Config} {f g : State → Run α} {l : List (List Byte)}

theorem ReadsThen.congr {f' : State → Run α} (h : ReadsThen c g l f) (hf : ∀ s, s.cfg = c → f' s = f s) :
    ReadsThen c g l f' := by
  cases h with
  | nil h => exact .nil fun s hs => (hf s hs).trans (h s hs)
  | cons F h hl => exact .cons F (fun s hs => (hf s hs).trans (h s hs)) hl

/-- An optional field is a field of its own, or none. -/
theorem ReadsThen.optional {β : Type} {write : β → List Byte} {n : Nat} (o : Option β) (F : List Byte → State → Run α)
    (hn : ∀ x, (write x).length = n) (hf : ∀ s, s.cfg = c → f s = (readOptional o.isSome n s).bind F)
    (h : ReadsThen c g l (F (o.toList.flatMap write))) : ReadsThen c g (o.toList.map write ++ l) f := by
  cases o with
  | none => exact h.congr hf
  | some x => exact .cons F (fun s hs => by rw [hn]; exact hf s hs) (by simpa using h)

/-- All the fields are there. -/
theorem ReadsThen.eq_of_fields {s : State} {rest : List Byte} (h : ReadsThen c g l f) (hc : s.cfg = c)
    (hs : s.host.src = l.flatten ++ rest) (hd : drawsOk l.length s = true) : f s = g (transferred l.length rest [] s) := by
  induction h generalizing s with
  | nil hf =>
    rw [hf s hc]
    exact congrArg g (transferred_zero_of_src hs).symm
  | @cons f v l F hf _ ih =>
    rw [List.length_cons, Nat.add_comm] at hd ⊢
    rw [hf s hc, srcRead_ok (drawsOk_mono (Nat.le_add_right ..) hd) (hs.trans (List.append_assoc ..)) rfl, bind_done,
      ih (s := transferred 1 (l.flatten ++ rest) [] s) hc rfl (drawsOk_transferred hd), transferred_transferred, List.append_nil]

/-- The read of one of the fields fails, behind those before it. -/
theorem ReadsThen.eq_raised {pre post : List (List Byte)} {v tail : List Byte} {s : State} {h : HostSide}
    (hl : ReadsThen c g (pre ++ v :: post) f) (hc : s.cfg = c) (hs : s.host.src = pre.flatten ++ tail)
    (hr : ReadFails pre.length v.length tail s h) : f s = .raised .ioFailure none { s with host := h } := by
  induction pre generalizing f s with
  | nil =>
    obtain ⟨F, hf, -⟩ | ⟨F, hf, -⟩ := hl
    obtain rfl : s.host.src = tail := hs
    rw [hf s hc, hr.srcRead, bind_raised]
  | cons a pre ih =>
    cases hl with
    | cons F hf hl =>
      rw [List.length_cons, Nat.add_comm] at hr
      rw [hf s hc, srcRead_ok (hr.drawsOk (Nat.le_add_right ..)) (hs.trans (List.append_assoc ..)) rfl, bind_done,
        ih (s := transferred 1 (pre.flatten ++ tail) [] s) hl hc rfl hr.transferred]
      rfl

end

/-! ### The fields of a header (R86, R162, R181) -/

/-- The fields of a header with the checksum byte `sum`, each as one transfer of FD.OPEN. -/
def headerReads (c : Config) (f : HdrFlags) (bsz : BitVec 2) (size : Option (BitVec 64)) (id : Option Word) (sum : Byte) :
    List (List Byte) :=
  le32 c.magic :: [flgByte c.flg f, bdByte c.bd bsz] :: (size.toList.map le64 ++ (id.toList.map le32 ++ [[sum]]))

section
variable (c : Config) (f : HdrFlags) (bsz : BitVec 2) (size : Option (BitVec 64)) (id : Option Word) (sum : Byte)

theorem flatMap_le64_eq_sizeField : size.toList.flatMap le64 = sizeField size := by
  cases size <;> simp [sizeField]

theorem flatMap_le32_eq_idField : id.toList.flatMap le32 = idField id := by
  cases id <;> simp [idField]

theorem headerFields_eq_headerReads (ind bck cck : Bool) : headerFields c ind bck cck bsz size id =
    headerReads c ⟨ind, bck, size.isSome, cck, id.isSome⟩ bsz size id
      (headerChecksum c (headerMiddle c ⟨ind, bck, size.isSome, cck, id.isSome⟩ bsz size id)) := by
  simp [headerFields, headerReads, headerMiddle]

theorem headerReads_flatten :
    (headerReads c f bsz size id sum).flatten = le32 c.magic ++ headerMiddle c f bsz size id ++ [sum] := by
  simp [headerReads, headerMiddle, ← List.flatMap_def, flatMap_le64_eq_sizeField, flatMap_le32_eq_idField]

theorem headerReads_length :
    (headerReads c f bsz size id sum).length = 3 + size.toList.length + id.toList.length := by
  simp only [headerReads, List.length_cons, List.length_append, List.length_map, List.length_nil]
  omega

end

/-- FD.OPEN when every field of the header is read (R181). -/
def openEnd (f : HdrFlags) (k : BitVec 2) (fb cs di hc : List Byte) (s : State) : Run Response :=
  if byteAt hc 0 ≠ headerChecksum s.cfg (fb ++ cs ++ di) then .raised .headerChecksumFail none s
  else
    .done (okResponse (asWord (4 + (fb ++ cs ++ di).length + 1))) (openHeader f k (byteAt fb 0) (byteAt fb 1) cs di s)

/-- FD.OPEN when FLG and BD are read and hold the flags `f` and the class `k` (R181). -/
def openFields (f : HdrFlags) (k : BitVec 2) (fb : List Byte) (s : State) : Run Response :=
  (readOptional f.csz 8 s).bind fun cs s1 => (readOptional f.did 4 s1).bind fun di s2 => (srcRead 1 s2).bind fun hc s3 =>
    openEnd f k fb cs di hc s3

section
variable {c : Config} (ind bck cck : Bool) (bsz : BitVec 2) (size : Option (BitVec 64)) (id : Option Word) (sum : Byte)

theorem openFields_readsThen (fb : List Byte) :
    ReadsThen c (openEnd ⟨ind, bck, size.isSome, cck, id.isSome⟩ bsz fb (sizeField size) (idField id) [sum])
      (size.toList.map le64 ++ (id.toList.map le32 ++ [[sum]]))
      (openFields ⟨ind, bck, size.isSome, cck, id.isSome⟩ bsz fb) := by
  rw [← flatMap_le64_eq_sizeField, ← flatMap_le32_eq_idField]
  exact .optional size _ le64_length (fun _ _ => rfl) (.optional id _ le32_length (fun _ _ => rfl)
    (.cons _ (fun _ _ => rfl) (.nil fun _ _ => rfl)))

/-- After the clearing, FD.OPEN reads a header field by field (R181). -/
theorem fdOpenRun_readsThen (hc : c.valid) :
    ∃ f, (∀ s, fdOpenRun s = f (openClear s)) ∧
      ReadsThen c (openEnd ⟨ind, bck, size.isSome, cck, id.isSome⟩ bsz
          [flgByte c.flg ⟨ind, bck, size.isSome, cck, id.isSome⟩, bdByte c.bd bsz] (sizeField size) (idField id) [sum])
        (headerReads c ⟨ind, bck, size.isSome, cck, id.isSome⟩ bsz size id sum) f := by
  obtain ⟨-, -, -, -, hflg, hbd, -⟩ := hc
  have hparse : parseFlg c.flg (flgByte c.flg ⟨ind, bck, size.isSome, cck, id.isSome⟩) = some _ := parseFlg_flgByte hflg _
  have hclass : parseBd c.bd (bdByte c.bd bsz) = some bsz := parseBd_bdByte hbd bsz
  refine ⟨fun o => (srcRead 4 o).bind _, fun s => rfl, .cons _ (fun s _ => rfl) (.cons _ (fun s hs => if_neg ?magic)
    ((openFields_readsThen ind bck cck bsz size id sum _).congr fun s hs => ?bytes))⟩
  case magic => rw [u32At_le32_nil, hs]; exact fun h => h rfl
  case bytes =>
    simp only [hs, byteAt, List.getD_cons_zero, List.getD_cons_succ, hparse, hclass]
    rfl

end

/-! ### How FD.OPEN ends -/

section
variable {s : State} {k : ErrKind} {h : HostSide}

/-- R197: an error of FD.OPEN, raised when its reads have changed nothing but the host's side. -/
theorem exec_fdOpen_of_raised (hr : fdOpenRun s = .raised k none { openClear s with host := h }) :
    exec .fdOpen s = .next (respond (errResponse (some k) none)
      { s with
        host := h, din := [], out := [], rpos := 0, dwin := [], hdr := ⟨0, 0, 0, 0, 0⟩
        fd := ⟨.failed, some k, none, false, false, false, 0, none⟩ }) := by
  rw [exec, execFdOpen, hr]
  rfl

/-- R192: FD.ALL ends where its FD.OPEN raises an error. -/
theorem exec_fdAll_of_open_raised {u : Option SubCause} {t : State} (hr : fdOpenRun s = .raised k u t) :
    exec .fdAll s = exec .fdOpen s := by
  rw [exec, exec, execFdAll, execFdOpen, fdAllRun, hr]
  rfl

theorem fdOpenRun_of_wrong_magic {m rest : List Byte} (hs : s.host.src = m ++ rest) (hm : m.length = 4) (hd : drawsOk 1 s = true)
    (hmagic : u32At m 0 ≠ s.cfg.magic) : fdOpenRun s = .raised .wrongMagic none (transferred 1 rest [] (openClear s)) := by
  rw [fdOpenRun, srcRead_ok (by exact hd) (by exact hs) hm, bind_done]
  exact if_pos hmagic

theorem openClear_cfg (s : State) : (openClear s).cfg = s.cfg := rfl

theorem parseFlg_eq_none {l : FlgLayout} {b : Byte} (h : b.extractLsb' 6 2 ≠ 1#2 ∨ b.getLsbD l.rsv = true) :
    parseFlg l b = none := by
  refine if_neg ?_
  rintro ⟨hversion, hrsv⟩
  rcases h with h | h
  · exact h hversion
  · rw [hrsv] at h
    cases h

theorem parseBd_eq_none {c : BdCodes} {b : Byte} (h : b ≠ c.c0 ∧ b ≠ c.c1 ∧ b ≠ c.c2 ∧ b ≠ c.c3) : parseBd c b = none := by
  obtain ⟨h0, h1, h2, h3⟩ := h
  simp [parseBd, h0, h1, h2, h3]

theorem fdOpenRun_of_wrong_bytes {flg bd : Byte} {m rest : List Byte} (hs : s.host.src = m ++ ([flg, bd] ++ rest))
    (hm : m.length = 4) (hd : drawsOk 2 s = true) (hmagic : u32At m 0 = s.cfg.magic)
    (hbad : parseFlg s.cfg.flg flg = none ∨ parseBd s.cfg.bd bd = none) :
    fdOpenRun s = .raised .headerParseError none (transferred 2 rest [] (openClear s)) := by
  rw [fdOpenRun, srcRead_ok (s := openClear s) (drawsOk_mono (Nat.le_succ 1) hd) hs hm, bind_done,
    if_neg (by exact fun h => h hmagic),
    srcRead_ok (by exact drawsOk_transferred (j := 1) (k := 1) hd) (by rfl) (by rfl), bind_done, transferred_transferred]
  rcases hbad with hbad | hbad
  · simp [byteAt, openClear_cfg, hbad]
  · cases hflg : parseFlg s.cfg.flg flg <;> simp [byteAt, openClear_cfg, hflg, hbad]

end

/-! ### What a header leaves in the registers (R38) -/

theorem toList_length_eq_optionalReads {α : Type} (o : Option α) : o.toList.length = optionalReads o.isSome := by
  cases o <;> rfl

/-- HDR_INFO is BD above FLG. -/
theorem asWord_bytes (lo hi : Byte) : asWord (lo.toNat + 256 * hi.toNat) = (0 : BitVec 16) ++ hi ++ lo := by
  apply BitVec.eq_of_toNat_eq
  have hlo := lo.isLt
  have hhi := hi.isLt
  have hzero : (0 : BitVec 16).toNat = 0 := rfl
  rw [asWord, BitVec.toNat_ofNat, BitVec.toNat_append, BitVec.toNat_append, ← Nat.shiftLeft_add_eq_or_of_lt hlo,
    ← Nat.shiftLeft_add_eq_or_of_lt hhi, hzero, Nat.zero_shiftLeft, Nat.shiftLeft_eq]
  omega

/-- The registers when a header with these optional fields is accepted. -/
theorem openHeader_hdr {s : State} (f : HdrFlags) (k : BitVec 2) (flg bd : Byte) (size : Option (BitVec 64)) (id : Option Word)
    (hsize : f.csz = size.isSome) (hid : f.did = id.isSome) (hs : s.hdr = HdrRegs.reset) :
    (openHeader f k flg bd (sizeField size) (idField id) s).hdr =
      { info := (0 : BitVec 16) ++ bd ++ flg, blkmax := asWord (Config.blockMax k)
        csizeLo := size.elim 0 (·.extractLsb' 0 32), csizeHi := size.elim 0 (·.extractLsb' 32 32)
        dictId := id.elim 0 fun v => v } := by
  have hlo (v : BitVec 64) : u32At (le64 v) 0 = v.extractLsb' 0 32 := by simpa using u32At_le64_lo v []
  have hhi (v : BitVec 64) : u32At (le64 v) 4 = v.extractLsb' 32 32 := by simpa using u32At_le64_hi v []
  cases size <;> cases id <;>
    simp [openHeader, hs, HdrRegs.reset, hsize, hid, sizeField, idField, hlo, hhi, asWord_bytes]

theorem eq_with_hdr {s : State} {r : HdrRegs} (h : s.hdr = r) : s = { s with hdr := r } := by rw [← h]

/-- Settles O35: no field of the header is wrong, and the record shows what the fields say. -/
theorem fdOpenAcceptsHeader : Obligations.FdOpenAcceptsHeader := by
  intro s ind bck cck bsz size id rest hc hs hd
  rw [toList_length_eq_optionalReads, toList_length_eq_optionalReads] at hd ⊢
  rw [exec, execFdOpen, fdOpenRun_headerBytes hc hs hd, finishRun]
  refine congrArg _ (congrArg (respond _) (eq_with_hdr ?_))
  rw [openHeader_hdr _ _ _ _ size id rfl rfl rfl]
  cases size <;> cases id <;> rfl

/-- Settles O36, in the order of the checks. -/
theorem fdOpenRejectsBadHeader : Obligations.FdOpenRejectsBadHeader := by
  intro s m0 m1 m2 m3 rest hs
  refine ⟨fun hd hmagic => ?_, fun flg bd rest2 hd hmagic hrest hbad => ?_⟩
  · exact exec_fdOpen_of_raised (fdOpenRun_of_wrong_magic (m := [m0, m1, m2, m3]) hs rfl hd hmagic)
  · subst hrest
    refine exec_fdOpen_of_raised (fdOpenRun_of_wrong_bytes (m := [m0, m1, m2, m3]) hs rfl hd hmagic ?_)
    rcases hbad with hversion | hrsv | hbd
    · exact .inl (parseFlg_eq_none (.inl hversion))
    · exact .inl (parseFlg_eq_none (.inr hrsv))
    · exact .inr (parseBd_eq_none hbd)

/-- Settles O37: the checksum byte is the last field read. -/
theorem fdOpenRejectsBadChecksum : Obligations.FdOpenRejectsBadChecksum := by
  intro s ind bck cck bsz size id hc hdr rest hv hhdr hs hne hd
  obtain ⟨f, hopen, hreads⟩ := fdOpenRun_readsThen ind bck cck bsz size id hc hv
  have hbytes : s.host.src = (headerReads s.cfg ⟨ind, bck, size.isSome, cck, id.isSome⟩ bsz size id hc).flatten ++ rest := by
    rw [headerReads_flatten, headerMiddle, ← hhdr, hs]
  rw [← headerReads_length s.cfg ⟨ind, bck, size.isSome, cck, id.isSome⟩ bsz size id hc] at hd ⊢
  have hrun := hreads.eq_of_fields (s := openClear s) rfl hbytes hd
  rw [← hopen] at hrun
  exact exec_fdOpen_of_raised (hrun.trans (if_pos (by rwa [← hhdr])))

end Sys2Proof.Machine
end

section
/-! SUPPORT. The statements of 44_frame_decoder.md about FD.BLOCK whose reads succeed (R184 to R190), and about the reads that
fail in FD.OPEN and FD.BLOCK (R197, R56). -/

namespace Sys2Proof.Machine

variable {s : State}

/-! ### The command in an open frame (R184) -/

theorem fd_state_of_active (ha : fdActive s = true) : s.fd.state = .blocks := by simpa [fdActive] using ha

theorem exec_fdBlock_of_active (ha : fdActive s = true) : exec .fdBlock s = .next (finishRun .fd (fdBlockRun s)) := by
  have hst := fd_state_of_active ha
  rw [exec, execFdBlock, hst]
  exact congrArg (fun r => Host.Outcome.next (finishRun .fd r)) (if_neg (by rw [hst]; nofun))

theorem add_optionalReads (n : Nat) (present : Bool) : n + optionalReads present = if present then n + 1 else n := by
  cases present <;> rfl

/-- Settles O38: whether stored or coded, the bytes of the block are `o`. -/
theorem fdBlockDecodesBlock : Obligations.FdBlockDecodesBlock := by
  intro s stored b o rest ha hb hlen hcap hs hd hmax hstored hcoded
  have hout : blockOutput stored { s with din := b } = .ok o := by
    cases stored with
    | true => exact congrArg Except.ok (hstored rfl).symm
    | false => exact hcoded rfl
  rw [← add_optionalReads] at hd ⊢
  rw [exec_fdBlock_of_active ha, fdBlockRun_block hs hd hb hlen hcap hout hmax]
  rfl

/-! ### The end mark (R190) -/

theorem fdEndRun_of_wrong {hs : Hasher} {v : Word} {rest : List Byte} (hch : s.fd.ch = some hs)
    (hsrc : s.host.src = le32 v ++ rest) (hne : v ≠ hasherFinish s.cfg hs) (hd : drawsOk 1 s = true) :
    fdEndRun s = .raised .frameChecksumFail none (transferred 1 rest [] s) := by
  rw [fdEndRun, hch]
  dsimp only
  rw [srcRead_ok hd hsrc (le32_length _), bind_done, u32At_le32_nil]
  exact if_pos hne

theorem fdBlockRun_of_wrong_checksum {hs : Hasher} {v : Word} {rest : List Byte} (hch : s.fd.ch = some hs)
    (hsrc : s.host.src = le32 0 ++ (le32 v ++ rest)) (hne : v ≠ hasherFinish s.cfg hs) (hd : drawsOk 2 s = true) :
    fdBlockRun s = .raised .frameChecksumFail none (transferred 2 rest [] (blockClear s)) := by
  have hend := fdEndRun_of_wrong (s := transferred 1 (le32 v ++ rest) [] (blockClear s)) (rest := rest) hch rfl hne
    (drawsOk_transferred (j := 1) (k := 1) hd)
  rw [fdBlockRun_of_mark hsrc (drawsOk_mono (Nat.le_succ 1) hd), hend, transferred_transferred, List.append_nil]

/-- The end mark, with the checksum of the content hasher behind it if there is one. -/
theorem exec_fdBlock_of_trailer {fields : List (List Byte)} {rest : List Byte} (ha : fdActive s = true)
    (hfields : trailerFields s.cfg s.fd.ch = fields) (hs : s.host.src = fields.flatten ++ rest)
    (hd : drawsOk fields.length s = true) :
    exec .fdBlock s = .next (respond ⟨0x03, 0⟩
      { transferred fields.length rest [] s with din := [], out := [], rpos := 0, fd := { s.fd with state := .finished } }) := by
  subst hfields
  rw [exec_fdBlock_of_active ha, fdBlockRun_trailer hs hd]
  rfl

/-- Settles O39: the end mark is the word 0, and behind it stands the checksum of the content hasher, if there is one. -/
theorem fdBlockEndMark : Obligations.FdBlockEndMark := by
  intro s rest ha
  refine ⟨fun hch hs hd => ?_, fun hs v hch hsrc hd => ⟨?_, fun hne => ?_⟩⟩
  · exact exec_fdBlock_of_trailer (fields := [le32 0]) ha (by rw [hch, trailerFields]) hs hd
  · rintro rfl
    exact exec_fdBlock_of_trailer (fields := [le32 0, le32 (hasherFinish s.cfg hs)]) ha (by rw [hch, trailerFields]) hsrc hd
  · rw [exec_fdBlock_of_active ha, fdBlockRun_of_wrong_checksum hch hsrc hne hd]
    rfl

/-! ### Reads that fail (R197, R56) -/

section
variable {h : HostSide} {w : Word} {b tail rest : List Byte}

theorem fdOpenRun_magic_fail (hr : ReadFails 0 4 s.host.src s h) :
    fdOpenRun s = .raised .ioFailure none { openClear s with host := h } := by
  have hread : ReadFails 0 4 (openClear s).host.src (openClear s) h := hr
  rw [fdOpenRun, hread.srcRead, bind_raised]

/-- FD.OPEN on a header of which the read of one field fails. -/
theorem fdOpenRun_read_fail {pre post : List (List Byte)} {v : List Byte} {ind bck cck : Bool} {bsz : BitVec 2}
    {size : Option (BitVec 64)} {id : Option Word} (hc : s.cfg.valid)
    (hfields : headerFields s.cfg ind bck cck bsz size id = pre ++ v :: post) (hs : s.host.src = pre.flatten ++ tail)
    (hr : ReadFails pre.length v.length tail s h) :
    fdOpenRun s = .raised .ioFailure none { openClear s with host := h } := by
  rw [headerFields_eq_headerReads] at hfields
  obtain ⟨f, hopen, hreads⟩ := fdOpenRun_readsThen ind bck cck bsz size id _ hc
  rw [hfields] at hreads
  rw [hopen, hreads.eq_raised (s := openClear s) rfl hs hr]

theorem fdBlockRun_word_fail (hr : ReadFails 0 4 s.host.src s h) :
    fdBlockRun s = .raised .ioFailure none { blockClear s with host := h } := by
  have hread : ReadFails 0 4 (blockClear s).host.src (blockClear s) h := hr
  change (srcRead 4 (blockClear s)).bind _ = _
  rw [hread.srcRead, bind_raised]

theorem fdEndRun_read_fail {hs : Hasher} (hch : s.fd.ch = some hs) (hr : ReadFails 0 4 s.host.src s h) :
    fdEndRun s = .raised .ioFailure none { s with host := h } := by
  rw [fdEndRun, hch]
  dsimp only
  rw [hr.srcRead, bind_raised]

/-- FD.BLOCK on the length word of a data block. -/
theorem fdBlockRun_of_word (hw : w ≠ 0) (hs : s.host.src = le32 w ++ rest) (hd : drawsOk 1 s = true) :
    fdBlockRun s = fdDataRun w (transferred 1 rest [] (blockClear s)) := by
  change (srcRead 4 (blockClear s)).bind _ = _
  rw [srcRead_ok (s := blockClear s) hd hs (le32_length _), bind_done, u32At_le32_nil]
  exact if_neg hw

theorem fdDataRun_bytes_fail (hcap : (wordCount w).toNat ≤ s.cfg.dinCap)
    (hr : ReadFails 0 (wordCount w).toNat s.host.src s h) :
    fdDataRun w s = .raised .ioFailure none { s with host := h } := by
  rw [fdDataRun, if_neg (Nat.not_lt.2 hcap), hr.srcRead, bind_raised]

/-- The bytes of the block are in DIN when its checksum cannot be read. -/
theorem fdDataRun_checksum_fail (hcap : (wordCount w).toNat ≤ s.cfg.dinCap) (hbck : s.fd.bck = true)
    (hs : s.host.src = b ++ tail) (hb : b.length = (wordCount w).toNat) (hr : ReadFails 1 4 tail s h) :
    fdDataRun w s = .raised .ioFailure none { s with din := b, host := h } := by
  have hread : ReadFails 0 4 tail { transferred 1 tail [] s with din := b } h := hr.transferred (a := tail)
  have hcheck : checkBlockRun { transferred 1 tail [] s with din := b } =
      .raised .ioFailure none { s with din := b, host := h } := by
    rw [checkBlockRun, if_pos (by exact hbck), ReadFails.srcRead (by exact hread), bind_raised]
    rfl
  rw [fdDataRun, if_neg (Nat.not_lt.2 hcap), srcRead_ok (hr.drawsOk le_rfl) hs hb, bind_done, hcheck, bind_raised]

end

/-- Settles O42, read by read. -/
theorem fdIoFailureEntersFailed : Obligations.FdIoFailureEntersFailed := by
  intro s h
  refine ⟨fun pre post v tail ind bck cck bsz size id i hvalid hfields hs hr hi => ?_, fun ha b tail hcase => ?_⟩
  · have hrun : fdOpenRun s = .raised .ioFailure none { openClear s with host := h } := by
      rcases hvalid with rfl | hc
      · obtain ⟨rfl, -⟩ := List.cons.inj hfields
        obtain rfl : s.host.src = tail := hs
        exact fdOpenRun_magic_fail hr
      · exact fdOpenRun_read_fail hc hfields hs hr
    rcases hi with rfl | rfl
    · exact exec_fdOpen_of_raised hrun
    · exact (exec_fdAll_of_open_raised hrun).trans (exec_fdOpen_of_raised hrun)
  · have hrun : fdBlockRun s = .raised .ioFailure none { blockClear s with din := b, host := h } := by
      rcases hcase with ⟨hr, rfl⟩ | ⟨hs, hch, hsrc, hr, rfl⟩ | ⟨w, hw, hcap, ⟨hsrc, hr, rfl⟩ | ⟨hbck, hsrc, hb, hr⟩⟩
      · exact fdBlockRun_word_fail hr
      · rw [fdBlockRun_of_mark hsrc (hr.drawsOk le_rfl)]
        exact fdEndRun_read_fail (s := transferred 1 tail [] (blockClear s)) hch hr.transferred
      · rw [fdBlockRun_of_word hw hsrc (hr.drawsOk le_rfl)]
        exact fdDataRun_bytes_fail (s := transferred 1 tail [] (blockClear s)) hcap hr.transferred
      · rw [fdBlockRun_of_word hw (hsrc.trans (List.append_assoc ..)) (hr.drawsOk (Nat.le_succ 1))]
        exact fdDataRun_checksum_fail (s := transferred 1 (b ++ tail) [] (blockClear s)) hcap hbck rfl hb hr.transferred
    rw [exec_fdBlock_of_active ha, hrun]
    rfl

end Sys2Proof.Machine
end

section
/-! SUPPORT. What FD.OPEN and FD.BLOCK may do when their transfers are not known to succeed (R181, R184): they write nothing to
SNK, only take bytes from SRC, and a block that answers leaves a frame open or Finished. From it the statements of 44_frame_decoder.md
about RD.FILL and RD.CONSUME (R193, R194). -/

namespace Sys2Proof.Machine

variable {s : State}

/-! ### Pieces that only take bytes from SRC (R56) -/

/-- From `s` to `t` nothing is written to SNK, and no bytes come into SRC. -/
def OnlyTakes (s t : State) : Prop := t.host.snk = s.host.snk ∧ t.host.src.length ≤ s.host.src.length

/-- As `OnlyTakes` speaks of the ports alone, this also closes every goal whose two states differ elsewhere. -/
theorem OnlyTakes.refl (s : State) : OnlyTakes s s := ⟨rfl, le_rfl⟩

theorem OnlyTakes.bind {α β : Type} {r : Run α} {f : α → State → Run β} (h : OnlyTakes s r.state)
    (hf : ∀ a t, OnlyTakes t (f a t).state) : OnlyTakes s (r.bind f).state := by
  cases r with
  | done a t =>
    obtain ⟨hsnk, hsrc⟩ := h
    obtain ⟨fsnk, fsrc⟩ := hf a t
    exact ⟨fsnk.trans hsnk, fsrc.trans hsrc⟩
  | raised k u t => exact h

theorem OnlyTakes.of_done {α : Type} {r : Run α} {a : α} {t : State} (h : OnlyTakes s r.state) (hr : r = .done a t) :
    OnlyTakes s t := by
  rwa [hr] at h

theorem srcRead_onlyTakes (n : Nat) (s : State) : OnlyTakes s (srcRead n s).state := by
  rcases hd : s.host.draws with _ | ⟨_ | k, ds⟩
  case cons.fail => simp [OnlyTakes, srcRead, takeDraw, hd, Run.state]
  all_goals by_cases hn : n ≤ s.host.src.length <;> simp [OnlyTakes, srcRead, takeDraw, hd, hn, Run.state]

theorem readOptional_onlyTakes (present : Bool) (n : Nat) (s : State) : OnlyTakes s (readOptional present n s).state := by
  cases present with
  | true => exact srcRead_onlyTakes n s
  | false => exact .refl s

theorem fdOpenRun_onlyTakes (s : State) : OnlyTakes s (fdOpenRun s).state := by
  refine (srcRead_onlyTakes 4 (openClear s)).bind fun m s1 => ?_
  split
  · exact .refl s1
  refine (srcRead_onlyTakes 2 s1).bind fun fb s2 => ?_
  split
  · exact .refl s2
  split
  · exact .refl s2
  refine (readOptional_onlyTakes _ 8 s2).bind fun cs s3 => (readOptional_onlyTakes _ 4 s3).bind fun di s4 =>
    (srcRead_onlyTakes 1 s4).bind fun hc s5 => ?_
  dsimp only
  split <;> exact .refl s5

theorem fdEndRun_onlyTakes (s : State) : OnlyTakes s (fdEndRun s).state := by
  unfold fdEndRun
  split
  · exact .refl s
  · refine (srcRead_onlyTakes 4 s).bind fun t s1 => ?_
    split <;> exact .refl s1

theorem checkBlockRun_onlyTakes (s : State) : OnlyTakes s (checkBlockRun s).state := by
  unfold checkBlockRun
  split
  · refine (srcRead_onlyTakes 4 s).bind fun c s1 => ?_
    split <;> exact .refl s1
  · exact .refl s

theorem deliverRun_onlyTakes (o : List Byte) (s : State) : OnlyTakes s (deliverRun o s).state := by
  unfold deliverRun
  dsimp only
  split <;> exact .refl s

theorem fdDataRun_onlyTakes (w : Word) (s : State) : OnlyTakes s (fdDataRun w s).state := by
  unfold fdDataRun
  split
  · exact .refl s
  refine (srcRead_onlyTakes _ s).bind fun b s1 => OnlyTakes.bind (checkBlockRun_onlyTakes { s1 with din := b }) fun _ s2 => ?_
  split
  · exact .refl s2
  · exact deliverRun_onlyTakes _ s2

theorem fdBlockRun_onlyTakes (s : State) : OnlyTakes s (fdBlockRun s).state := by
  refine (srcRead_onlyTakes 4 (blockClear s)).bind fun lw s1 => ?_
  split
  · exact fdEndRun_onlyTakes s1
  · exact fdDataRun_onlyTakes _ s1

/-! ### What a command that answers leaves -/

section
variable {t : State} {r : Response}

theorem srcRead_done {n : Nat} {v : List Byte} (h : srcRead n s = .done v t) :
    SameDevice s t ∧ t.host.src.length + n = s.host.src.length := by
  obtain ⟨v', t', h', hp, hv, hsrc⟩ | ⟨t', h', -⟩ := srcRead_cases n s <;> cases h'.symm.trans h
  refine ⟨hp.sameDevice, ?_⟩
  rw [hsrc, List.length_append, hv, Nat.add_comm]

theorem readOptional_done {present : Bool} {n : Nat} {v : List Byte} (h : readOptional present n s = .done v t) :
    SameDevice s t := by
  cases present with
  | true =>
    obtain ⟨hsame, -⟩ := srcRead_done h
    exact hsame
  | false => cases h; exact ⟨s.host, rfl⟩

/-- A header that is accepted opens a frame without an error (R181). -/
theorem fdOpenRun_done (h : fdOpenRun s = .done r t) : fdActive t = true ∧ t.fd.err = none := by
  obtain ⟨m, s1, hread, h⟩ := bind_eq_done h
  obtain ⟨⟨g1, rfl⟩, -⟩ := srcRead_done hread
  split at h
  next => cases h
  next =>
    obtain ⟨fb, s2, hread, h⟩ := bind_eq_done h
    obtain ⟨⟨g2, rfl⟩, -⟩ := srcRead_done hread
    split at h
    next => cases h
    next f _ =>
      split at h
      next => cases h
      next k _ =>
        obtain ⟨cs, s3, hread, h⟩ := bind_eq_done h
        obtain ⟨g3, rfl⟩ := readOptional_done hread
        obtain ⟨di, s4, hread, h⟩ := bind_eq_done h
        obtain ⟨g4, rfl⟩ := readOptional_done hread
        obtain ⟨hc, s5, hread, h⟩ := bind_eq_done h
        obtain ⟨⟨g5, rfl⟩, -⟩ := srcRead_done hread
        dsimp only at h
        split at h
        next => cases h
        next => cases h; exact ⟨rfl, rfl⟩

/-- R190: the end mark leaves OUT as it is, and FD Finished. -/
theorem fdEndRun_done (h : fdEndRun s = .done r t) :
    r = endResponse ∧ t.fd.state = .finished ∧ t.out = s.out ∧ t.rpos = s.rpos := by
  unfold fdEndRun at h
  split at h
  next => cases h; exact ⟨rfl, rfl, rfl, rfl⟩
  next hs _ =>
    obtain ⟨c, s1, hread, hend⟩ := bind_eq_done h
    obtain ⟨⟨g, rfl⟩, -⟩ := srcRead_done hread
    split at hend
    next => cases hend
    next => cases hend; exact ⟨rfl, rfl, rfl, rfl⟩

theorem checkBlockRun_done {a : Unit} (h : checkBlockRun s = .done a t) : SameDevice s t := by
  unfold checkBlockRun at h
  split at h
  next =>
    obtain ⟨c, s1, hread, hend⟩ := bind_eq_done h
    obtain ⟨hsame, -⟩ := srcRead_done hread
    split at hend
    next => cases hend
    next => cases hend; exact hsame
  next => cases h; exact ⟨_, rfl⟩

/-- R184: a data block answers OK, in the same FD.STATE. -/
theorem fdDataRun_done {w : Word} (h : fdDataRun w s = .done r t) :
    (∃ v, r = okResponse v) ∧ t.fd.state = s.fd.state ∧ t.rpos = s.rpos := by
  unfold fdDataRun at h
  split at h
  next => cases h
  next =>
    obtain ⟨b, s1, hread, h⟩ := bind_eq_done h
    obtain ⟨⟨g1, rfl⟩, -⟩ := srcRead_done hread
    obtain ⟨_, s2, hcheck, h⟩ := bind_eq_done h
    obtain ⟨g2, rfl⟩ := checkBlockRun_done hcheck
    split at h
    next => cases h
    next =>
      unfold deliverRun at h
      dsimp only at h
      split at h
      next => cases h
      next => cases h; exact ⟨⟨_, rfl⟩, rfl, rfl⟩

/-- However its transfers end, FD.BLOCK answers END with FD Finished and OUT empty, or OK in the same FD.STATE, or it raises an
error; the length word at least is gone from SRC. -/
theorem fdBlockRun_done (h : fdBlockRun s = .done r t) :
    t.rpos = 0 ∧ t.host.src.length < s.host.src.length ∧
      (r = endResponse ∧ t.fd.state = .finished ∧ t.out = [] ∨ (∃ v, r = okResponse v) ∧ t.fd.state = s.fd.state) := by
  obtain ⟨lw, s1, hread, hrest⟩ := bind_eq_done h
  obtain ⟨⟨g, rfl⟩, hlen⟩ := srcRead_done (s := blockClear s) hread
  have hword : g.src.length < s.host.src.length := by
    change g.src.length + 4 = s.host.src.length at hlen
    omega
  split at hrest
  next =>
    obtain ⟨-, hsrc⟩ := (fdEndRun_onlyTakes _).of_done hrest
    obtain ⟨hr, hst, hout, hrpos⟩ := fdEndRun_done hrest
    exact ⟨hrpos, hsrc.trans_lt hword, .inl ⟨hr, hst, hout⟩⟩
  next =>
    obtain ⟨-, hsrc⟩ := (fdDataRun_onlyTakes _ _).of_done hrest
    obtain ⟨hr, hst, hrpos⟩ := fdDataRun_done hrest
    exact ⟨hrpos, hsrc.trans_lt hword, .inr ⟨hr, hst⟩⟩

end

/-! ### RD.FILL and RD.CONSUME (R193, R194) -/

section
variable {t : State} {r : Response}

/-- In Finished as in Blocks, FD.BLOCK does not answer from Failed, and OUT is empty when it answers END. -/
theorem fdBlockAny_done (hs : s.fd.state = .blocks ∨ s.fd.state = .finished) (h : fdBlockAny s = .done r t) :
    t.fd.state ≠ .failed ∧ (r = endResponse → t.out = []) := by
  unfold fdBlockAny at h
  split at h
  next hfin =>
    cases h
    exact ⟨by rw [hfin]; nofun, fun _ => rfl⟩
  next hfin =>
    have hst := hs.resolve_right hfin
    obtain ⟨-, -, ⟨-, hend, hout⟩ | ⟨⟨v, rfl⟩, hsame⟩⟩ := fdBlockRun_done h
    · exact ⟨by rw [hend]; nofun, fun _ => hout⟩
    · exact ⟨by rw [hsame, hst]; nofun, nofun⟩

theorem exec_fdBlock_of_open (hs : s.fd.state = .blocks ∨ s.fd.state = .finished) :
    exec .fdBlock s = .next (finishRun .fd (fdBlockAny s)) := by
  rcases hs with hs | hs <;> rw [exec, execFdBlock, hs]

theorem exec_rdFill_of_open (hs : s.fd.state = .blocks ∨ s.fd.state = .finished) :
    exec .rdFill s = .next (finishRun .fd (rdFillRun s)) := by
  rcases hs with hs | hs <;> rw [exec, execRdFill, hs]

theorem rdFillRun_of_unread (h : s.rpos < s.out.length) :
    rdFillRun s = .done (okResponse (asWord (s.out.length - s.rpos))) s := if_pos h

theorem rdFillRun_of_read (h : s.out.length ≤ s.rpos) :
    rdFillRun s = (fdBlockAny s).bind fun _ t =>
      if t.out.isEmpty then .done endResponse t else .done (okResponse (asWord t.out.length)) t :=
  if_neg (Nat.not_lt.2 h)

theorem rdFillRun_of_bytes (h : s.out.length ≤ s.rpos) (hb : fdBlockAny s = .done r t) (hout : t.out ≠ []) :
    rdFillRun s = .done (okResponse (asWord t.out.length)) t := by
  rw [rdFillRun_of_read h, hb, bind_done, if_neg (by simpa using hout)]

theorem rdFillRun_of_no_bytes (h : s.out.length ≤ s.rpos) (hb : fdBlockAny s = .done r t) (hout : t.out = []) :
    rdFillRun s = .done endResponse t := by
  rw [rdFillRun_of_read h, hb, bind_done, if_pos (by simp [hout])]

theorem rdFillRun_of_raised {k : ErrKind} {u : Option SubCause} (h : s.out.length ≤ s.rpos)
    (hb : fdBlockAny s = .raised k u t) : rdFillRun s = .raised k u t := by
  rw [rdFillRun_of_read h, hb, bind_raised]

/-- FD.BLOCK answered without an error, so its run ended with that answer. -/
theorem fdBlockAny_of_exec (hs : s.fd.state = .blocks ∨ s.fd.state = .finished) (h : exec .fdBlock s = .next (respond r t))
    (hr : r.status.toNat ≤ 0x10) : fdBlockAny s = .done r t := by
  rw [exec_fdBlock_of_open hs] at h
  exact finishRun_eq_respond (Host.Outcome.next.inj h) hr

end

/-- Settles O43, by how FD.BLOCK ends. -/
theorem rdFillRefillsOnce : Obligations.RdFillRefillsOnce := by
  intro s hs
  rw [exec_rdFill_of_open hs]
  refine ⟨fun hunread => ?_, fun hread t => ⟨fun v h hout => ?_, fun v h hout => ?_, fun h => ?_, fun h hfail => ?_⟩⟩
  · rw [rdFillRun_of_unread hunread]
    rfl
  · rw [rdFillRun_of_bytes hread (fdBlockAny_of_exec hs h (Nat.zero_le _)) hout]
    rfl
  · rw [rdFillRun_of_no_bytes hread (fdBlockAny_of_exec hs h (Nat.zero_le _)) hout]
    rfl
  · have hend := fdBlockAny_of_exec hs h (by decide)
    obtain ⟨-, hempty⟩ := fdBlockAny_done hs hend
    refine ⟨hempty rfl, ?_⟩
    rw [rdFillRun_of_no_bytes hread hend (hempty rfl)]
    rfl
  · rw [exec_fdBlock_of_open hs] at h
    cases hb : fdBlockAny s with
    | raised k u t' => rwa [rdFillRun_of_raised hread hb, ← hb]
    | done r t' =>
      rw [hb] at h
      cases h
      obtain ⟨hne, -⟩ := fdBlockAny_done hs hb
      exact absurd hfail hne

/-- Settles O44: opcode 0x54, and whether as many bytes are left as asked for. -/
theorem rdConsumeAdvances : Obligations.RdConsumeAdvances := by
  refine ⟨fun n => rfl, fun s n => ⟨fun hle => ?_, fun hlt => if_pos hlt⟩⟩
  rw [Nat.sub_sub]
  exact if_neg (by omega)

end Sys2Proof.Machine
end

section
/-! SUPPORT. The statements of 44_frame_decoder.md about FD.ALL (R192): it ends as FD.OPEN, FD.BLOCK and the write of OUT do one
after the other, also when one of them fails; and on a frame of stored blocks it writes every block to SNK. -/

namespace Sys2Proof.Machine

/-! ### A frame of stored blocks (R184, R188) -/

/-- A stored block on the wire, with its checksum iff `bck`. -/
def storedBlock (c : Config) (bck : Bool) (b : List Byte) : List Byte :=
  le32 (lengthWord true (BitVec.ofNat 31 b.length)) ++ b ++ checksumBytes bck (h32 c 0 b)

/-- The decoder when the stored block `b` is read and written to SNK. -/
def storedBlockRead (b rest : List Byte) (s : State) : State :=
  transferred 1 rest b { blockDelivered (2 + optionalReads s.fd.bck) b b rest s with rpos := 0 }

section
variable {s : State} {b rest : List Byte} {blocks : List (List Byte)}

/-- One turn of FD.ALL's loop on a stored block. -/
theorem fdAllLoop_storedBlock (hsrc : s.host.src = storedBlock s.cfg s.fd.bck b ++ rest) (hd : allDrawsOk s = true)
    (hlen : b.length ≤ s.cfg.dinCap) (hcap : s.cfg.dinCap ≤ 2147483647) (hmax : b.length ≤ s.fd.bmax) (turns k : Nat) :
    fdAllLoop (turns + 1) k s = fdAllLoop turns (k + 1) (storedBlockRead b rest s) := by
  have hread := fdBlockRun_block hsrc (drawsOk_of_all _ hd) (.inl rfl) hlen hcap (by rfl) hmax
  rw [fdAllLoop, hread, bind_done, if_neg (by rintro ⟨⟩),
    snkWrite_ok _ (drawsOk_of_all 1 (by exact allDrawsOk_transferred (b := []) hd)), bind_done]
  rfl

/-- The loop takes the blocks one by one and stands at what follows them, with a turn left for it; the content hasher has then
consumed them all. -/
theorem fdAllLoop_storedBlocks (hsrc : s.host.src = (blocks.map (storedBlock s.cfg s.fd.bck)).flatten ++ rest)
    (hd : allDrawsOk s = true) (hlen : ∀ b ∈ blocks, b.length ≤ s.fd.bmax) (hmax : s.fd.bmax ≤ s.cfg.dinCap)
    (hcap : s.cfg.dinCap ≤ 2147483647) {turns k : Nat} (hturns : s.host.src.length < turns) :
    ∃ m t, fdAllLoop turns k s = fdAllLoop (m + 1) (k + blocks.length) t ∧ allDrawsOk t = true ∧ t.cfg = s.cfg ∧
      t.host.src = rest ∧ t.host.snk = s.host.snk ++ blocks.flatten ∧
      t.fd = { s.fd with ch := s.fd.ch.map fun hs => hasherWrite hs blocks.flatten } := by
  obtain ⟨turns, rfl⟩ := Nat.exists_eq_succ_of_ne_zero (Nat.ne_of_gt (Nat.zero_lt_of_lt hturns))
  induction blocks generalizing s turns k with
  | nil => exact ⟨turns, s, rfl, hd, rfl, hsrc, by simp, by simp [hasherWrite]⟩
  | cons b blocks ih =>
    have hsrc : s.host.src = storedBlock s.cfg s.fd.bck b ++ ((blocks.map (storedBlock s.cfg s.fd.bck)).flatten ++ rest) :=
      hsrc.trans (List.append_assoc ..)
    have hb := hlen b List.mem_cons_self
    have hshort : 4 ≤ (storedBlock s.cfg s.fd.bck b).length := by simp [storedBlock]
    have hleft := congrArg List.length hsrc
    rw [List.length_append] at hleft
    obtain ⟨turns, rfl⟩ := Nat.exists_eq_succ_of_ne_zero (n := turns) (by omega)
    obtain ⟨m, t, hloop, hdt, hcfg, hrest, hsnk, hfd⟩ := ih (k := k + 1)
      (s := storedBlockRead b ((blocks.map (storedBlock s.cfg s.fd.bck)).flatten ++ rest) s) rfl
      (allDrawsOk_transferred (allDrawsOk_transferred (s := s) (b := []) hd)) (fun x hx => hlen x (List.mem_cons_of_mem _ hx))
      hmax hcap turns (by rw [storedBlockRead, transferred_host_src]; omega)
    refine ⟨m, t, ?_, hdt, hcfg, hrest, ?_, ?_⟩
    · rw [fdAllLoop_storedBlock hsrc hd (hb.trans hmax) hcap hb, hloop, List.length_cons, Nat.add_assoc, Nat.add_comm 1]
    · rw [hsnk]
      simp [storedBlockRead, blockDelivered]
    · rw [hfd]
      simp [storedBlockRead, blockDelivered, hasherWrite_hasherWrite, Function.comp_def]

end

/-- R92, R93: the trailer behind `data`, when the content hasher was there from the start iff `cck`. -/
theorem trailerFields_of_cck (c : Config) (cck : Bool) (data : List Byte) :
    (trailerFields c ((if cck then some (hasherInit 0) else none).map fun hs => hasherWrite hs data)).flatten =
      [0, 0, 0, 0] ++ checksumBytes cck (h32 c 0 data) := by
  cases cck with
  | true =>
    change (trailerFields c (some (hasherWrite (hasherInit 0) data))).flatten = _
    rw [trailerFields, hasherFinish_hasherWrite_init]
    rfl
  | false => rfl

/-- A run of FD.ALL that ends with a response: no response was given before it. -/
theorem exec_fdAll_of_done {s t : State} {r : Response} (h : fdAllRun s = .done r t) :
    exec .fdAll s = .next (respond r t) ∧ t.host.resp = s.host.resp := by
  obtain ⟨hkept, -⟩ := fdAllRun_envKept s
  rw [h] at hkept
  exact ⟨by rw [exec, execFdAll, h]; rfl, hkept.resp⟩

/-- FD.OPEN on a header without optional fields. -/
theorem fdOpenRun_plainHeader {s : State} {ind bck cck : Bool} {bsz : BitVec 2} {rest : List Byte} (hc : s.cfg.valid)
    (hs : s.host.src = headerBytes s.cfg ind bck cck bsz none none ++ rest) (hd : allDrawsOk s = true) :
    ∃ r t, fdOpenRun s = .done r t ∧ allDrawsOk t = true ∧ t.cfg = s.cfg ∧ t.host.src = rest ∧ t.host.snk = s.host.snk ∧
      t.fd = { state := .blocks, err := none, sub := none, ind := ind, bck := bck, cck := cck, bmax := Config.blockMax bsz
               ch := if cck then some (hasherInit 0) else none } :=
  ⟨_, _, fdOpenRun_headerBytes hc hs (drawsOk_of_all _ hd), allDrawsOk_transferred (s := s) (a := rest) (b := []) hd, rfl, rfl,
    List.append_nil _, rfl⟩

/-- Settles O46: the header opens the frame, the loop takes the blocks, and behind them stands the trailer. -/
theorem fdAllDecodesStoredBlocks : Obligations.FdAllDecodesStoredBlocks := by
  intro s ind bck cck bsz blocks rest hc hlen hd hs
  have hs : s.host.src = headerBytes s.cfg ind bck cck bsz none none ++ (blocks.map (storedBlock s.cfg bck)).flatten ++
      [0, 0, 0, 0] ++ checksumBytes cck (h32 s.cfg 0 blocks.flatten) ++ rest := hs
  simp only [List.append_assoc] at hs
  obtain ⟨r, s1, hopen, hd1, hcfg1, hsrc1, hsnk1, hfd1⟩ := fdOpenRun_plainHeader hc hs hd
  obtain ⟨-, -, -, -, -, -, -, -, hdin, -, hcap⟩ := hc
  rw [← hcfg1] at hdin hcap
  have hbck : s1.fd.bck = bck := by rw [hfd1]
  have hbmax : s1.fd.bmax = Config.blockMax bsz := by rw [hfd1]
  have hblocks : s1.host.src = (blocks.map (storedBlock s1.cfg s1.fd.bck)).flatten ++
      ([0, 0, 0, 0] ++ (checksumBytes cck (h32 s.cfg 0 blocks.flatten) ++ rest)) := by
    rw [hsrc1, hbck, hcfg1]
  obtain ⟨m, t, hloop, hdt, hcfg, hsrc, hsnk, hfd⟩ := fdAllLoop_storedBlocks (k := 0) hblocks hd1 (hbmax ▸ hlen)
    (hbmax ▸ (blockMax_le bsz).trans hdin) hcap (Nat.lt_succ_self _)
  have htrailer : t.host.src = (trailerFields t.cfg t.fd.ch).flatten ++ rest := by
    rw [hfd, hfd1, trailerFields_of_cck, hsrc, hcfg, hcfg1, List.append_assoc]
  have hend := fdBlockRun_trailer htrailer (drawsOk_of_all _ hdt)
  have hrun : fdAllRun s = .done (okResponse (asWord blocks.length)) (fdFinished rest t) := by
    rw [fdAllRun, hopen, bind_done, hloop, fdAllLoop, hend, bind_done, if_pos rfl, bind_done, Nat.zero_add]
  obtain ⟨hexec, hresp⟩ := exec_fdAll_of_done hrun
  refine ⟨_, hexec, ?_, rfl, rfl, rfl, rfl, ?_, ?_⟩
  · rw [respond_host_snk, fdFinished, transferred_host_snk, List.append_nil, hsnk, hsnk1]
  · rw [respond_fd, fdFinished, hfd, hfd1]
  · rw [respond_host_resp, hresp]
    rfl

/-! ### FD.ALL by its parts (R192) -/

section
variable {s t u : State} {r : Response} {n : Nat}

theorem fdOpenRun_of_exec (h : exec .fdOpen s = .next (respond r t)) (hr : r.status.toNat ≤ 0x10) :
    fdOpenRun s = .done r t := finishRun_eq_respond (Host.Outcome.next.inj h) hr

/-- From RPOS 0, OUT.FLUSH writes what FD.ALL writes. -/
theorem snkWrite_of_outFlush {v : Word} (hrpos : s.rpos = 0) (h : exec .outFlush s = .next (respond ⟨0x00, v⟩ t)) :
    snkWrite s.out s = .done () t ∧ t.fd = s.fd ∧ t.host.src = s.host.src := by
  have hrun := finishRun_eq_respond (Host.Outcome.next.inj h) (Nat.zero_le _)
  obtain ⟨_, t', hwrite, hend⟩ := bind_eq_done hrun
  cases hend
  rw [hrpos, List.drop_zero] at hwrite
  have hsrc := snkWrite_src s.out s
  obtain ⟨t', hdone, hports⟩ | ⟨t', hfail, -⟩ := snkWrite_cases s.out s
  · cases hdone.symm.trans hwrite
    obtain ⟨g, rfl⟩ := hports.sameDevice
    rw [hwrite] at hsrc
    exact ⟨hwrite, rfl, hsrc⟩
  · cases hfail.symm.trans hwrite

/-- After `n` blocks read and written, the loop stands at the next one, with a turn left for it. -/
theorem fdAllLoop_okAfter {turns k : Nat} (h : OkAfter (List.replicate n [.fdBlock, .outFlush]).flatten s t)
    (hact : fdActive s = true) (hturns : s.host.src.length < turns) :
    fdActive t = true ∧ ∃ m, fdAllLoop turns k s = fdAllLoop (m + 1) (k + n) t := by
  induction n generalizing s k turns with
  | zero =>
    cases h
    obtain ⟨m, rfl⟩ := Nat.exists_eq_succ_of_ne_zero (Nat.ne_of_gt (Nat.zero_lt_of_lt hturns))
    exact ⟨hact, m, rfl⟩
  | succ n ih =>
    obtain ⟨v, x, hblock, w, y, hflush, hrest⟩ := h
    rw [exec_fdBlock_of_active hact] at hblock
    have hrun := finishRun_eq_respond (Host.Outcome.next.inj hblock) (Nat.zero_le _)
    obtain ⟨hrpos, hshort, ⟨hend, -⟩ | ⟨-, hst⟩⟩ := fdBlockRun_done hrun
    · cases hend
    · obtain ⟨hwrite, hfd, hsrc⟩ := snkWrite_of_outFlush hrpos hflush
      obtain ⟨turns, rfl⟩ := Nat.exists_eq_succ_of_ne_zero (Nat.ne_of_gt (Nat.zero_lt_of_lt hturns))
      have hy : fdActive y = true := by rwa [fdActive, hfd, hst]
      obtain ⟨ht, m, hm⟩ := ih (k := k + 1) (turns := turns) hrest hy (by rw [hsrc]; omega)
      refine ⟨ht, m, ?_⟩
      rw [fdAllLoop, hrun, bind_done, if_neg (by rintro ⟨⟩), hwrite, bind_done, hm, Nat.add_assoc, Nat.add_comm 1 n]

/-- After FD.OPEN and `n` blocks read and written, FD.ALL goes on with the next FD.BLOCK. -/
theorem fdAllRun_okAfter (h : OkAfter (.fdOpen :: (List.replicate n [.fdBlock, .outFlush]).flatten) s t) :
    fdActive t = true ∧ ∃ m, fdAllRun s =
      (fdBlockRun t).bind fun r u =>
        (if r = endResponse then .done n u else (snkWrite u.out u).bind fun _ w => fdAllLoop m (n + 1) w).bind fun k w =>
          .done (okResponse (asWord k)) w := by
  obtain ⟨v, x, hx, hblocks⟩ := h
  have hopen := fdOpenRun_of_exec hx (Nat.zero_le _)
  obtain ⟨hact, -⟩ := fdOpenRun_done hopen
  obtain ⟨ht, m, hloop⟩ := fdAllLoop_okAfter (k := 0) hblocks hact (Nat.lt_succ_self _)
  refine ⟨ht, m, ?_⟩
  rw [fdAllRun, hopen, bind_done, hloop, Nat.zero_add, fdAllLoop, bind_bind]

/-- R197: when FD.OPEN leaves an error, so does FD.ALL, and nothing is written. -/
theorem exec_fdAll_of_open_error {k : ErrKind} (h : exec .fdOpen s = .next t) (herr : t.fd.err = some k) :
    exec .fdAll s = .next t ∧ t.host.snk = s.host.snk ∧ t.fd.state = .failed := by
  rw [exec, execFdOpen] at h
  obtain ⟨hsnk, -⟩ := fdOpenRun_onlyTakes s
  cases hrun : fdOpenRun s with
  | done r u =>
    rw [hrun] at h
    cases h
    obtain ⟨-, hnone⟩ := fdOpenRun_done hrun
    cases hnone.symm.trans herr
  | raised k u x =>
    rw [exec_fdAll_of_open_raised hrun, exec, execFdOpen, h]
    rw [hrun] at h hsnk
    cases h
    exact ⟨rfl, hsnk, rfl⟩

/-- R197: a block that ends in Failed ends FD.ALL. -/
theorem exec_fdAll_of_block_error (h : OkAfter (.fdOpen :: (List.replicate n [.fdBlock, .outFlush]).flatten) s t)
    (hblock : exec .fdBlock t = .next (respond r u)) (hfail : u.fd.state = .failed) :
    exec .fdAll s = .next (respond r u) ∧ u.host.snk = t.host.snk := by
  obtain ⟨ht, m, hrun⟩ := fdAllRun_okAfter h
  rw [exec_fdBlock_of_active ht] at hblock
  obtain ⟨hsnk, -⟩ := fdBlockRun_onlyTakes t
  rw [exec, execFdAll, hrun]
  cases hb : fdBlockRun t with
  | done a x =>
    rw [hb] at hblock
    obtain ⟨rfl, rfl⟩ := respond_injective (Host.Outcome.next.inj hblock)
    have hst := fd_state_of_active ht
    obtain ⟨-, -, ⟨-, hst', -⟩ | ⟨-, hst'⟩⟩ := fdBlockRun_done hb
    · cases hst'.symm.trans hfail
    · cases (hst'.trans hst).symm.trans hfail
  | raised k v x =>
    rw [hb] at hblock hsnk
    refine ⟨hblock, ?_⟩
    obtain ⟨-, rfl⟩ := respond_injective (Host.Outcome.next.inj hblock)
    exact hsnk

/-- R250: a block that is read and cannot be written ends FD.ALL. -/
theorem exec_fdAll_of_write_fail (h : OkAfter (.fdOpen :: (List.replicate n [.fdBlock, .outFlush]).flatten) s t)
    (hblock : exec .fdBlock t = .next (respond r u)) (hr : r.status = 0x00) {k : Nat} {ds : List IoDraw}
    (hd : u.host.draws = .fail k :: ds) :
    exec .fdAll s = .next (failureEntry .fd .ioFailure none
      { u with host := { u.host with draws := ds, snk := u.host.snk ++ u.out.take k } }) := by
  obtain ⟨ht, m, hrun⟩ := fdAllRun_okAfter h
  rw [exec_fdBlock_of_active ht] at hblock
  have hb := finishRun_eq_respond (Host.Outcome.next.inj hblock) (by rw [hr]; exact Nat.zero_le _)
  have hne : r ≠ endResponse := by rintro rfl; cases hr
  rw [exec, execFdAll, hrun, hb, bind_done, if_neg hne, snkWrite_fail hd]
  rfl

/-- The end mark ends FD.ALL, which answers the number of blocks. -/
theorem exec_fdAll_of_end (h : OkAfter (.fdOpen :: (List.replicate n [.fdBlock, .outFlush]).flatten) s t)
    (hblock : exec .fdBlock t = .next (respond r u)) (hr : r.status = 0x03) :
    exec .fdAll s = .next (respond ⟨0x00, asWord n⟩ u) := by
  obtain ⟨ht, m, hrun⟩ := fdAllRun_okAfter h
  rw [exec_fdBlock_of_active ht] at hblock
  have hb := finishRun_eq_respond (Host.Outcome.next.inj hblock) (by rw [hr]; decide)
  obtain ⟨-, -, ⟨rfl, -⟩ | ⟨⟨v, rfl⟩, -⟩⟩ := fdBlockRun_done hb
  · rw [exec, execFdAll, hrun, hb, bind_done, if_pos rfl]
    rfl
  · cases hr

end

/-- Settles O47, by how the FD.BLOCK that comes next ends. -/
theorem fdAllStopsOnBadHeader : Obligations.FdAllStopsOnBadHeader := by
  intro s t
  refine ⟨fun k => exec_fdAll_of_open_error, fun n h u r hblock => ⟨exec_fdAll_of_block_error h hblock, fun hr k ds hd => ?_,
    exec_fdAll_of_end h hblock⟩⟩
  exact ⟨u.out.take k, List.take_prefix .., exec_fdAll_of_write_fail h hblock hr hd⟩

end Sys2Proof.Machine
end

section
/-! SUPPORT. The statements of 45_system_ops.md about the system, register and buffer commands (R210 to R225): where each is legal,
and what the loads and the flushes leave when their one transfer succeeds and when it fails. -/

namespace Sys2Proof.Machine

/-! ### Reset and registers (R211 to R213) -/

/-- Settles O2: SYS.RESET and power-on are the same reset of the device. -/
theorem sysResetReturnsToReset : Obligations.SysResetReturnsToReset := ⟨rfl, fun _ => ⟨rfl, rfl⟩⟩

section
variable {s t : State} {reg : BitVec 24} {v : Word}

theorem exec_csrRd_of_some (h : csrRead reg s = some v) : exec (.csrRd reg) s = .next (respond ⟨0x00, v⟩ s) := by
  rw [exec, execCsrRd, h]
  rfl

theorem exec_csrRd_of_none (h : csrRead reg s = none) : exec (.csrRd reg) s = .next (respond ⟨0xFF, 0⟩ s) := by
  rw [exec, execCsrRd, h]
  rfl

/-- The register map of 10_state.md ends at 0x12. -/
theorem csrRead_eq_none (s : State) (h : 0x12 < reg.toNat) : csrRead reg s = none := by
  obtain ⟨k, hk⟩ := Nat.exists_eq_add_of_le' h
  rw [csrRead, hk]
  rfl

theorem exec_csrWr_of_some (hfe : feActive s = false) (h : csrWrite reg v s = some t) :
    exec (.csrWr reg v) s = .next (respond ⟨0x00, 0⟩ t) := by
  rw [exec, execCsrWr, if_neg (by simp [hfe]), h]
  rfl

/-- Only 0x00 to 0x03 are writable. -/
theorem csrWrite_eq_none (v : Word) (s : State) (h : 0x03 < reg.toNat) : csrWrite reg v s = none := by
  obtain ⟨k, hk⟩ := Nat.exists_eq_add_of_le' h
  rw [csrWrite, hk]
  rfl

theorem exec_csrWr_of_none (h : csrWrite reg v s = none) : exec (.csrWr reg v) s = .next (respond ⟨0xFF, 0⟩ s) := by
  rw [exec, execCsrWr, h]
  exact ite_self _

end

/-- Settles O3, register by register; no number above 0x12 is in the map. -/
theorem csrReadReturnsRegister : Obligations.CsrReadReturnsRegister := by
  refine ⟨fun reg => by simp [decodeCommand], fun s => ⟨fun e he => exec_csrRd_of_some ?_,
    fun reg h => exec_csrRd_of_none (csrRead_eq_none s h)⟩⟩
  fin_cases he <;> rfl

/-- R33: the six bits that SETTINGS keeps are the masked value. -/
theorem setWidth_settings (v : Word) : (v.setWidth 6).setWidth 32 = v &&& 0x3F#32 := by
  refine BitVec.eq_of_toNat_eq ?_
  have hmask : v.toNat &&& 0x3F = v.toNat % 2 ^ 6 := Nat.and_two_pow_sub_one_eq_mod v.toNat 6
  rw [BitVec.toNat_setWidth, BitVec.toNat_setWidth, BitVec.toNat_and, Nat.mod_eq_of_lt (by omega)]
  exact hmask.symm

/-- Settles O6, register by register; the test of FE comes first. -/
theorem csrWriteSetsRegister : Obligations.CsrWriteSetsRegister := by
  refine ⟨fun reg v => by simp [decodeCommand, decodeF2], fun s reg v => ⟨fun hfe => ?_, ?_⟩⟩
  · refine ⟨?_, ?_, ?_, ?_⟩ <;> rintro rfl
    · exact ⟨v.setWidth 6, exec_csrWr_of_some hfe rfl, setWidth_settings v⟩
    all_goals exact exec_csrWr_of_some hfe rfl
  · rintro (hreg | hfe)
    · exact exec_csrWr_of_none (csrWrite_eq_none v s hreg)
    · exact if_pos hfe

/-! ### Commands on buffers without a transfer (R215, R216, R218, R222 to R224) -/

/-- Settles O7: each command tests the units that use its buffer. -/
theorem clearCommandsEmptyTheirBuffer : Obligations.ClearCommandsEmptyTheirBuffer :=
  ⟨rfl, rfl, rfl, fun _ => ⟨if_congr (Bool.or_eq_true ..).to_iff rfl rfl, rfl, rfl⟩⟩

/-- Settles O8: what stands behind the first `n` bytes is what is left when they are dropped. -/
theorem winDropRemovesFront : Obligations.WinDropRemovesFront := by
  refine ⟨fun n => rfl, fun s n => ⟨fun front back hfe hwin hlen => ?_, fun hbad => if_pos (by simpa using hbad)⟩⟩
  have hleft : s.win.drop n.toNat = back := by rw [hwin, List.drop_left' hlen]
  have hcount : s.win.length - n.toNat = back.length := by rw [← List.length_drop, hleft]
  have hlegal : ¬ (feActive s || decide (s.win.length < n.toNat)) = true := by
    rw [hwin, List.length_append]
    simp [hfe, ← hlen]
  rw [exec, execWinDrop, if_neg hlegal, hleft, hcount]
  rfl

/-- Settles O9: the last 65536 bytes are a suffix, and both commands test FD. -/
theorem dwinPushKeepsLastWindow : Obligations.DwinPushKeepsLastWindow := by
  refine ⟨rfl, rfl, fun s => ⟨fun hfd => ?_, fun hfd => ⟨if_pos hfd, if_pos hfd⟩⟩⟩
  have hidle : ¬ fdActive s = true := by simp [hfd]
  exact ⟨⟨lastK Config.windowSize (s.dwin ++ s.out), if_neg hidle, lastK_suffix .., by simp⟩, if_neg hidle⟩

/-! ### Loads (R214, R217, R219) -/

/-- How DICT.LOAD ends with the bytes it has read (R214). -/
def dictLoaded (v : List Byte) (s : State) : Run Response :=
  .done (okResponse (asWord (lastK Config.dictCap v).length)) { s with dict := lastK Config.dictCap v }

/-- How WIN.APPEND ends with the bytes it has read (R217). -/
def winAppended (v : List Byte) (s : State) : Run Response :=
  .done (okResponse (asWord (s.win ++ v).length)) { s with win := s.win ++ v }

/-- How DIN.LOAD of `n` bytes ends with the bytes it has read (R219). -/
def dinLoaded (n : Word) (v : List Byte) (s : State) : Run Response := .done (okResponse n) { s with din := v }

section
variable {s t : State} {n : Word}

theorem exec_dictLoad_of_legal (hfe : feActive s = false) (hfd : fdActive s = false) :
    exec (.dictLoad n) s = .next (finishRun .raw ((srcRead n.toNat s).bind dictLoaded)) :=
  if_neg (by simp [hfe, hfd])

theorem exec_winAppend_of_legal (hfe : feActive s = false) (hn : s.win.length + n.toNat ≤ 4259840) :
    exec (.winAppend n) s = .next (finishRun .raw ((srcRead n.toNat s).bind winAppended)) :=
  if_neg (by simp [hfe, hn])

theorem exec_dinLoad_of_legal (hfd : fdActive s = false) (hn : n.toNat ≤ s.cfg.dinCap) :
    exec (.dinLoad n) s = .next (finishRun .raw ((srcRead n.toNat s).bind (dinLoaded n))) :=
  if_neg (by simp [hfd, hn])

/-- R225: a raw command whose read raises IoFailure answers (ERR 1, 0) in the state of the read. -/
theorem finishRun_load_fail {m : Nat} (f : List Byte → State → Run Response)
    (h : srcRead m s = .raised .ioFailure none t) : finishRun .raw ((srcRead m s).bind f) = respond ⟨0x11, 0⟩ t := by
  rw [h]
  rfl

end

/-- Settles O10: each load ends with the bytes in front of SRC. -/
theorem loadsTakeBytesFromSrc : Obligations.LoadsTakeBytesFromSrc := by
  intro s n v rest hd hs hv
  have hread : srcRead n.toNat s = .done v (transferred 1 rest [] s) := srcRead_ok hd hs hv
  refine ⟨fun hfe hfd => ⟨lastK Config.dictCap v, ?_, lastK_suffix .., lastK_length ..⟩, fun hfe hn => ?_, fun hfd hn => ?_⟩
  · rw [exec_dictLoad_of_legal hfe hfd, hread]
    rfl
  · rw [exec_winAppend_of_legal hfe hn, hread, ← List.length_append]
    rfl
  · rw [exec_dinLoad_of_legal hfd hn, hread]
    rfl

/-- Settles O11: a read that fails, by its draw or because SRC is too short, is the end of the load. -/
theorem loadFailureLeavesBuffer : Obligations.LoadFailureLeavesBuffer := by
  intro s n t hfail
  have hread : srcRead n.toNat s = .raised .ioFailure none t := by
    obtain ⟨k, ds, hdraws, rfl⟩ | ⟨hd, hshort, rfl⟩ := hfail
    · exact srcRead_fail hdraws
    · exact srcRead_short hd hshort
  refine ⟨fun hfe hfd => ?_, fun hfe hn => ?_, fun hfd hn => ?_⟩
  · rw [exec_dictLoad_of_legal hfe hfd, finishRun_load_fail _ hread]
  · rw [exec_winAppend_of_legal hfe hn, finishRun_load_fail _ hread]
  · rw [exec_dinLoad_of_legal hfd hn, finishRun_load_fail _ hread]

/-! ### Flushes (R220, R221) -/

/-- The pseudocode of a flush of the bytes `v` (R220, R221). -/
def flushRun (v : List Byte) (s : State) : Run Response :=
  (snkWrite v s).bind fun _ s1 => .done (okResponse (asWord v.length)) s1

theorem exec_sinkFlush (s : State) : exec .sinkFlush s = .next (finishRun .raw (flushRun s.sink s)) := rfl

theorem exec_outFlush (s : State) : exec .outFlush s = .next (finishRun .raw (flushRun (s.out.drop s.rpos) s)) := by
  rw [flushRun, List.length_drop]
  rfl

theorem finishRun_flush_ok {s : State} (v : List Byte) (hd : drawsOk 1 s = true) :
    finishRun .raw (flushRun v s) = respond ⟨0x00, asWord v.length⟩ (transferred 1 s.host.src v s) := by
  rw [flushRun, snkWrite_ok v hd]
  rfl

theorem finishRun_flush_fail {s : State} (v : List Byte) {k : Nat} {ds : List IoDraw} (h : s.host.draws = .fail k :: ds) :
    finishRun .raw (flushRun v s) =
      respond ⟨0x11, 0⟩ { s with host := { s.host with draws := ds, snk := s.host.snk ++ v.take k } } := by
  rw [flushRun, snkWrite_fail h]
  rfl

/-- Settles O12: each command is the flush of its bytes, which are those of OUT behind the first RPOS. -/
theorem flushesAppendToSnk : Obligations.FlushesAppendToSnk := by
  refine fun s hd => ⟨?_, fun taken left hout hrpos => ?_⟩
  · rw [exec_sinkFlush, finishRun_flush_ok _ hd]
  · have hleft : s.out.drop s.rpos = left := by rw [hout, List.drop_left' hrpos]
    rw [exec_outFlush, hleft, finishRun_flush_ok _ hd]

/-- Settles O13: the front part is as long as the failing draw says. -/
theorem flushFailureLeavesFrontPart : Obligations.FlushFailureLeavesFrontPart := by
  refine fun s k ds h => ⟨⟨s.sink.take k, List.take_prefix .., ?_⟩, ⟨(s.out.drop s.rpos).take k, List.take_prefix .., ?_⟩⟩
  · rw [exec_sinkFlush, finishRun_flush_fail _ h]
  · rw [exec_outFlush, finishRun_flush_fail _ h]

/-! ### Commands refused by the state of FE and FD (R210) -/

/-- R210: before a frame is started and after it is done, FE is neither active nor failed. -/
theorem fe_idle {s : State} (h : s.fe.state = .init ∨ s.fe.state = .done) : ¬ feActive s = true ∧ s.fe.state ≠ .failed := by
  obtain h | h := h <;> simp [feActive, h]

/-- Settles O14: each command tests its unit before it changes anything. -/
theorem refusedByUnitState : Obligations.RefusedByUnitState := by
  refine fun s i => ⟨fun hfe => ?_, fun hfd => ?_, fun hfe => ?_, fun hfd => ?_⟩
  · rintro (rfl | ⟨n, rfl⟩ | ⟨n, rfl⟩ | rfl | ⟨h, p, rfl⟩ | ⟨d, f, e, rfl⟩ | ⟨b, rfl⟩ | rfl | rfl | ⟨n, rfl⟩ | ⟨n, rfl⟩ | rfl) <;>
      exact if_pos (by simp [hfe])
  · rintro (⟨n, rfl⟩ | rfl | rfl | rfl | ⟨c, rfl⟩ | ⟨n, rfl⟩ | rfl) <;> exact if_pos (by simp [hfd])
  · obtain ⟨hidle, hok⟩ := fe_idle hfe
    rintro (rfl | rfl) <;> exact (if_neg hidle).trans (if_neg hok)
  · rintro (rfl | rfl)
    · rw [exec, execFdBlock, hfd]
      rfl
    · rw [exec, execRdFill, hfd]
      rfl

end Sys2Proof.Machine
end

section
/-! SUPPORT. The statement of 60_exceptions.md about the checks of the raw decoder (R245 (d), R141): what one turn of its loop ends in,
check by check, for any output so far. The checks on the offset and on the match share what the turn has passed by then. -/

namespace Sys2Proof.Machine

section
variable {ctx rest r1 : List Byte} {tok : Byte} {cap L : Nat}

/-! ### Up to the end of the literals -/

theorem decLoop_no_token (ctx : List Byte) (cap turns : Nat) (out : List Byte) :
    decLoop ctx cap turns [] out = .error .truncatedInput := by
  cases turns <;> rfl

theorem decLoop_no_literal_length (turns : Nat) (out : List Byte) (h : readLength (tokenLit tok) rest = none) :
    decLoop ctx cap (turns + 1) (tok :: rest) out = .error .truncatedInput := by
  rw [decLoop, h]

theorem decLoop_literalOverrun (turns : Nat) (out : List Byte) (h : readLength (tokenLit tok) rest = some (L, r1))
    (hshort : r1.length < L) : decLoop ctx cap (turns + 1) (tok :: rest) out = .error .literalOverrun := by
  rw [decLoop, h]
  exact if_pos hshort

theorem decLoop_literals_outputOverrun (turns : Nat) {out : List Byte} (h : readLength (tokenLit tok) rest = some (L, r1))
    (hlit : L ≤ r1.length) (hover : cap < out.length + L) :
    decLoop ctx cap (turns + 1) (tok :: rest) out = .error .outputOverrun := by
  rw [decLoop, h]
  exact (if_neg (Nat.not_lt.2 hlit)).trans (if_pos hover)

theorem decLoop_literals_end (turns : Nat) {out : List Byte} (h : readLength (tokenLit tok) rest = some (L, r1))
    (hlit : L = r1.length) (hfit : out.length + L ≤ cap) :
    decLoop ctx cap (turns + 1) (tok :: rest) out = .ok (out ++ r1) := by
  subst hlit
  simp [decLoop, h, Nat.not_lt.2 hfit]

theorem decLoop_half_offset (turns : Nat) {out : List Byte} (h : readLength (tokenLit tok) rest = some (L, r1))
    (hlit : r1.length = L + 1) (hfit : out.length + L ≤ cap) :
    decLoop ctx cap (turns + 1) (tok :: rest) out = .error .truncatedInput := by
  obtain ⟨b, hb⟩ : ∃ b, r1.drop L = [b] := List.length_eq_one_iff.1 (by simp [hlit])
  simp [decLoop, h, hlit, hb, Nat.not_lt.2 hfit]

end

/-! ### From the offset on -/

/-- A turn on the token `tok` has put out its literals and stands at the offset bytes `b0`, `b1`, which `r2` follows. -/
structure AtOffset (cap : Nat) (tok : Byte) (rest out lit : List Byte) (b0 b1 : Byte) (r2 : List Byte) : Prop where
  literals : readLength (tokenLit tok) rest = some (lit.length, lit ++ b0 :: b1 :: r2)
  fit : out.length + lit.length ≤ cap

section
variable {ctx rest out lit r2 r3 : List Byte} {tok b0 b1 : Byte} {cap v : Nat}

theorem AtOffset.zeroOffset (turns : Nat) (h : AtOffset cap tok rest out lit b0 b1 r2) (hzero : u16Of b0 b1 = 0) :
    decLoop ctx cap (turns + 1) (tok :: rest) out = .error .zeroOffset := by
  simp [decLoop, h.literals, Nat.not_lt.2 h.fit, hzero]

variable (turns : Nat) (h : AtOffset cap tok rest out lit b0 b1 r2) (hoff : (u16Of b0 b1).toNat ≠ 0)
include h hoff

theorem AtOffset.offsetTooLarge (hfar : (out ++ lit).length + ctx.length < (u16Of b0 b1).toNat) :
    decLoop ctx cap (turns + 1) (tok :: rest) out = .error .offsetTooLarge := by
  rw [List.length_append] at hfar
  simp [decLoop, h.literals, Nat.not_lt.2 h.fit, hoff, hfar]

theorem AtOffset.no_match_length (hreach : (u16Of b0 b1).toNat ≤ (out ++ lit).length + ctx.length)
    (hmat : readLength (tokenMat tok) r2 = none) :
    decLoop ctx cap (turns + 1) (tok :: rest) out = .error .truncatedInput := by
  rw [List.length_append] at hreach
  simp [decLoop, h.literals, Nat.not_lt.2 h.fit, hoff, Nat.not_lt.2 hreach, hmat]

theorem AtOffset.match_outputOverrun (hreach : (u16Of b0 b1).toNat ≤ (out ++ lit).length + ctx.length)
    (hmat : readLength (tokenMat tok) r2 = some (v, r3)) (hover : cap < (out ++ lit).length + (v + 4)) :
    decLoop ctx cap (turns + 1) (tok :: rest) out = .error .outputOverrun := by
  rw [List.length_append] at hreach hover
  simp [decLoop, h.literals, Nat.not_lt.2 h.fit, hoff, Nat.not_lt.2 hreach, hmat, hover]

end

/-- Settles O27: the first sequence is the turn with no output yet. -/
theorem decoderChecksInOrder : Obligations.DecoderChecksInOrder := by
  refine fun ctx cap => ⟨decLoop_no_token ctx cap _ [], fun tok rest => ⟨decLoop_no_literal_length _ [], fun L r1 h => ?_⟩⟩
  refine ⟨decLoop_literalOverrun _ [] h, fun hlit hover => ?_, fun hlit hfit => ?_, fun hlit hfit => ?_, ?_⟩
  · exact decLoop_literals_outputOverrun _ h hlit (by simpa using hover)
  · exact decLoop_literals_end _ h hlit (by simpa using hfit)
  · exact decLoop_half_offset _ h hlit (by simpa using hfit)
  · rintro lit r2 b0 b1 rfl rfl hfit
    have hat : AtOffset cap tok rest [] lit b0 b1 r2 := ⟨h, by simpa using hfit⟩
    have hoff (hne : u16Of b0 b1 ≠ 0) : (u16Of b0 b1).toNat ≠ 0 := BitVec.toNat_ne_iff_ne.2 hne
    exact ⟨hat.zeroOffset _, fun hne => hat.offsetTooLarge _ (hoff hne), fun hne => hat.no_match_length _ (hoff hne),
      fun v r3 hne => hat.match_outputOverrun _ (hoff hne)⟩

end Sys2Proof.Machine
end

section
/-! SUPPORT. The statement of 60_exceptions.md about a bad data block (R245 (c), R186 to R188): FD.BLOCK on a data block, up to the
first check that fails. A block whose checksum is right is in DIN before it is decoded and measured. -/

namespace Sys2Proof.Machine

section
variable {s : State} {w v : Word} {b o rest : List Byte}

theorem fdDataRun_too_long (h : s.cfg.dinCap < (wordCount w).toNat) : fdDataRun w s = .raised .blockLengthOverflow none s :=
  if_pos h

theorem checkBlockRun_of_wrong (hbck : s.fd.bck = true) (hs : s.host.src = le32 v ++ rest)
    (hne : v ≠ h32 s.cfg 0 s.din) (hd : drawsOk 1 s = true) :
    checkBlockRun s = .raised .blockChecksumFail none (transferred 1 rest [] s) := by
  rw [checkBlockRun, if_pos hbck, srcRead_ok hd hs (le32_length _), bind_done, u32At_le32_nil]
  exact if_pos hne

theorem fdDataRun_of_wrong_checksum (hcap : (wordCount w).toNat ≤ s.cfg.dinCap) (hb : b.length = (wordCount w).toNat)
    (hbck : s.fd.bck = true) (hs : s.host.src = b ++ (le32 v ++ rest)) (hne : v ≠ h32 s.cfg 0 b) (hd : drawsOk 2 s = true) :
    fdDataRun w s = .raised .blockChecksumFail none { transferred 2 rest [] s with din := b } := by
  have hcheck : checkBlockRun { transferred 1 (le32 v ++ rest) [] s with din := b } =
      .raised .blockChecksumFail none { transferred 2 rest [] s with din := b } := by
    rw [checkBlockRun_of_wrong (v := v) (rest := rest) (by exact hbck) (by rfl) (by exact hne)
      (by exact drawsOk_transferred (j := 1) (k := 1) hd)]
    simp [transferred]
  rw [fdDataRun, if_neg (Nat.not_lt.2 hcap), srcRead_ok (drawsOk_mono (Nat.le_succ 1) hd) hs hb, bind_done, hcheck, bind_raised]

/-- A block with the right checksum: what is raised when it does not decode, and what is left to do when it does. -/
theorem fdDataRun_of_checked (hcap : (wordCount w).toNat ≤ s.cfg.dinCap) (hb : b.length = (wordCount w).toNat)
    (hs : s.host.src = b ++ (checksumBytes s.fd.bck (h32 s.cfg 0 b) ++ rest))
    (hd : drawsOk (1 + optionalReads s.fd.bck) s = true) :
    (∀ u, blockOutput (wordStored w) { s with din := b } = .error u →
      fdDataRun w s = .raised .rawCodecCorruption (some u)
        { transferred (1 + optionalReads s.fd.bck) rest [] s with din := b }) ∧
    (∀ o, blockOutput (wordStored w) { s with din := b } = .ok o →
      fdDataRun w s = deliverRun o { transferred (1 + optionalReads s.fd.bck) rest [] s with din := b }) := by
  have hcheck : checkBlockRun { transferred 1 (checksumBytes s.fd.bck (h32 s.cfg 0 b) ++ rest) [] s with din := b } =
      .done () { transferred (1 + optionalReads s.fd.bck) rest [] s with din := b } := by
    rw [checkBlockRun_ok (by rfl) (by exact drawsOk_transferred hd)]
    simp [transferred, Nat.add_comm]
  rw [fdDataRun, if_neg (Nat.not_lt.2 hcap), srcRead_ok (drawsOk_mono (Nat.le_add_right ..) hd) hs hb, bind_done, hcheck,
    bind_done]
  refine ⟨fun u hu => ?_, fun o ho => ?_⟩
  · have hout : blockOutput (wordStored w) { transferred (1 + optionalReads s.fd.bck) rest [] s with din := b } = .error u := hu
    rw [hout]
  · have hout : blockOutput (wordStored w) { transferred (1 + optionalReads s.fd.bck) rest [] s with din := b } = .ok o := ho
    rw [hout]

/-- R188: the window has the bytes when their number is checked. -/
theorem deliverRun_too_large (h : s.fd.bmax < o.length) :
    deliverRun o s = .raised .blockSizeOverflow none
      { s with out := o, dwin := if s.fd.ind then s.dwin else lastK 65536 (s.dwin ++ o) } := if_pos h

theorem exec_fdBlock_of_word (ha : fdActive s = true) (hw : w ≠ 0) (hs : s.host.src = le32 w ++ rest)
    (hd : drawsOk 1 s = true) :
    exec .fdBlock s = .next (finishRun .fd (fdDataRun w (transferred 1 rest [] (blockClear s)))) := by
  rw [exec_fdBlock_of_active ha, fdBlockRun_of_word hw hs hd]

end

/-- Settles O40, check by check on the run of the data block. -/
theorem fdBlockRejectsBadBlock : Obligations.FdBlockRejectsBadBlock := by
  intro s w rest ha hw hsrc
  refine ⟨fun hover hd => ?_, fun b rest2 hcap hb => ⟨?_, ?_⟩⟩
  · rw [exec_fdBlock_of_word ha hw hsrc hd, fdDataRun_too_long (by exact hover)]
    rfl
  · intro v hrest hbck hne hd
    rw [exec_fdBlock_of_word ha hw hsrc (drawsOk_mono (by decide) hd),
      fdDataRun_of_wrong_checksum (s := transferred 1 rest [] (blockClear s)) hcap hb hbck
        (hrest.trans (List.append_assoc ..)) hne (drawsOk_transferred (j := 1) (k := 2) hd)]
    rw [transferred_transferred, List.append_nil]
    rfl
  · intro hrest hd
    rw [← add_optionalReads 2] at hd ⊢
    have hreads : 2 + optionalReads s.fd.bck = 1 + (1 + optionalReads s.fd.bck) := by omega
    rw [hreads] at hd ⊢
    rw [exec_fdBlock_of_word ha hw hsrc (drawsOk_mono (Nat.le_add_right ..) hd)]
    obtain ⟨hraise, hdeliver⟩ := fdDataRun_of_checked (s := transferred 1 rest [] (blockClear s)) (rest := rest2) hcap hb
      (hrest.trans (List.append_assoc ..)) (drawsOk_transferred hd)
    rw [transferred_transferred, List.append_nil] at hraise hdeliver
    refine ⟨fun u hstored hu => ?_, fun o hmax ho => ?_⟩
    · have hout : blockOutput (wordStored w) { s with din := b } = .error u := by rwa [hstored]
      rw [hraise u hout]
      rfl
    · have hout : blockOutput (wordStored w) { s with din := b } = .ok o := by
        obtain ⟨hstored, rfl⟩ | ⟨hcoded, hdec⟩ := ho
        · rw [hstored]
          rfl
        · rwa [hcoded]
      rw [hdeliver o hout, deliverRun_too_large (by exact hmax)]
      rfl

end Sys2Proof.Machine
end

section
/-! SUPPORT. The statement of 60_exceptions.md about the states that stay (R251): Failed repeats its error, Finished answers END. -/

namespace Sys2Proof.Machine

theorem errResponse_some (k : ErrKind) (u : Option SubCause) :
    errResponse (some k) u = ⟨0x10 + BitVec.ofNat 8 (errNum k), asWord (subField u)⟩ := rfl

theorem not_feActive_of_failed {s : State} (h : s.fe.state = .failed) : ¬ feActive s = true := by simp [feActive, h]

/-- Settles O41: the state is tested before anything is done. -/
theorem terminalStatesStay : Obligations.TerminalStatesStay := by
  refine fun s => ⟨fun k hst herr => ?_, fun k hst herr => ?_, fun hst => ?_⟩
  · have hidle := not_feActive_of_failed hst
    constructor <;>
      exact (if_neg hidle).trans ((if_pos hst).trans (by rw [herr, errResponse_some]; rfl))
  · constructor
    · rw [exec, execFdBlock, hst, herr, errResponse_some]
    · rw [exec, execRdFill, hst, herr, errResponse_some]
  · rw [exec_fdBlock_of_open (.inr hst), fdBlockAny, if_pos hst]
    rfl

end Sys2Proof.Machine
end

section
/-! SUPPORT. The statement of 60_exceptions.md about the independence of the units (R252, R62): no piece of FE's pseudocode changes
what lies outside FE, and no piece of FD's what lies outside FD; so neither do the commands, whether they answer or fail. -/

namespace Sys2Proof.Machine

/-! ### What a piece of pseudocode leaves as it is -/

/-- The part of the state that is no business of FE's: FE's record and buffers, the tables and the ports are blanked. -/
def outsideFe (s : State) : State :=
  { s with host := HostSide.reset, fe := FeRec.reset, win := [], sink := [], t := [], tpl := [] }

/-- The part of the state that is no business of FD's: FD's record, registers and buffers and the ports are blanked. -/
def outsideFd (s : State) : State :=
  { s with
    host := HostSide.reset, fd := FdRec.reset, hdr := HdrRegs.reset, din := [], out := [], dwin := [], rpos := 0 }

/-- From `s` to `t` the part `view` of the state stays as it is. -/
def Leaves (view : State → State) (s t : State) : Prop := view t = view s

/-- The part `view` of the state does not show the ports. -/
def HidesPorts (view : State → State) : Prop := ∀ s g, view { s with host := g } = view s

theorem outsideFe_hidesPorts : HidesPorts outsideFe := fun _ _ => rfl

theorem outsideFd_hidesPorts : HidesPorts outsideFd := fun _ _ => rfl

section
variable {view : State → State} {s t u : State}

theorem Leaves.refl (view : State → State) (s : State) : Leaves view s s := rfl

theorem Leaves.trans (h : Leaves view s t) (g : Leaves view t u) : Leaves view s u := Eq.trans g h

/-- One piece after another leaves the part when both do, the second from whatever state the first leaves. -/
theorem Leaves.bind {α β : Type} {r : Run α} {f : α → State → Run β} (h : Leaves view s r.state)
    (hf : ∀ a t, Leaves view t (f a t).state) : Leaves view s (r.bind f).state := by
  cases r with
  | done a t => exact h.trans (hf a t)
  | raised k u t => exact h

theorem PortsOnly.leaves (hv : HidesPorts view) (h : PortsOnly s t) : Leaves view s t := by
  obtain ⟨g, rfl⟩ := h.sameDevice
  exact hv s g

theorem srcRead_leaves (hv : HidesPorts view) (n : Nat) (s : State) : Leaves view s (srcRead n s).state := by
  obtain ⟨v, t, h, hp, -⟩ | ⟨t, h, hp⟩ := srcRead_cases n s <;> rw [h] <;> exact hp.leaves hv

theorem srcReadUpTo_leaves (hv : HidesPorts view) (n : Nat) (s : State) : Leaves view s (srcReadUpTo n s).state := by
  obtain ⟨t, h, hp, -⟩ | ⟨t, h, hp⟩ := srcReadUpTo_cases n s <;> rw [h] <;> exact hp.leaves hv

theorem snkWrite_leaves (hv : HidesPorts view) (v : List Byte) (s : State) : Leaves view s (snkWrite v s).state := by
  obtain ⟨t, h, hp⟩ | ⟨t, h, hp⟩ := snkWrite_cases v s <;> rw [h] <;> exact hp.leaves hv

/-! ### What a command leaves as it is -/

/-- Whatever next state the outcome is, it has the part `view` of `s`. -/
def OutcomeLeaves (view : State → State) (s : State) (o : Host.Outcome State Fault Refusal) : Prop :=
  ∀ t, o = .next t → Leaves view s t

/-- A response is given at a port (R74). -/
theorem OutcomeLeaves.reply (hv : HidesPorts view) (r : Response) (h : Leaves view s t) :
    OutcomeLeaves view s (.next (respond r t)) := by
  rintro _ ⟨⟩
  exact h.trans (hv t _)

/-- A command of a unit whose failure entry is no business of the part `view` (R250). -/
theorem OutcomeLeaves.run {unit : ErrUnit} {r : Run Response} (hv : HidesPorts view)
    (hf : ∀ k c t, Leaves view t (failureEntry unit k c t)) (h : Leaves view s r.state) :
    OutcomeLeaves view s (.next (finishRun unit r)) := by
  cases r with
  | done a t => exact .reply hv a h
  | raised k c t =>
    rintro _ ⟨⟩
    exact h.trans (hf k c t)

theorem OutcomeLeaves.ite {p : Prop} [Decidable p] {o o' : Host.Outcome State Fault Refusal} (h : OutcomeLeaves view s o)
    (h' : OutcomeLeaves view s o') : OutcomeLeaves view s (if p then o else o') := by
  split
  · exact h
  · exact h'

end

/-! ### The frame encoder (R161 to R168) -/

theorem snkWrite_outsideFe (v : List Byte) (s : State) : Leaves outsideFe s (snkWrite v s).state :=
  snkWrite_leaves outsideFe_hidesPorts v s

theorem feStartRun_outsideFe (mode : BitVec 24) (s : State) : Leaves outsideFe s (feStartRun mode s).state :=
  (snkWrite_outsideFe (startHeader mode s) (feLatched s)).bind fun _ _ => rfl

theorem postBlock_outsideFe (s : State) : Leaves outsideFe s (postBlock s) := by
  unfold postBlock
  split
  · rfl
  · split <;> rfl

theorem writeChecksum_outsideFe (present : Bool) (v : Word) (s : State) :
    Leaves outsideFe s (writeChecksum present v s).state := by
  unfold writeChecksum
  split
  · exact snkWrite_outsideFe _ s
  · rfl

theorem writeBlock_outsideFe (w : Word) (body : List Byte) (s : State) : Leaves outsideFe s (writeBlock w body s).state :=
  (snkWrite_outsideFe _ s).bind fun _ s1 => (snkWrite_outsideFe body s1).bind fun _ s2 => writeChecksum_outsideFe _ _ s2

theorem feBlockRun_outsideFe (s : State) : Leaves outsideFe s (feBlockRun s).state := by
  refine (srcReadUpTo_leaves outsideFe_hidesPorts _ s).bind fun chunk s1 => ?_
  split
  · rfl
  · have hcoded : Leaves outsideFe s1 (blockCoded chunk s1) := rfl
    exact (hcoded.trans (writeBlock_outsideFe _ _ (blockCoded chunk s1))).bind fun _ s3 => postBlock_outsideFe s3

theorem feTrailerRun_outsideFe (s : State) : Leaves outsideFe s (feTrailerRun s).state := by
  unfold feTrailerRun
  split
  · rfl
  · exact (snkWrite_outsideFe _ s).bind fun _ _ => rfl

theorem feFinishRun_outsideFe (s : State) : Leaves outsideFe s (feFinishRun s).state :=
  (snkWrite_outsideFe _ s).bind fun _ s1 =>
    Leaves.bind (feTrailerRun_outsideFe { s1 with fe := { s1.fe with state := .terminatorWritten } }) fun _ _ => rfl

theorem feRunLoop_outsideFe (turns k : Nat) (s : State) : Leaves outsideFe s (feRunLoop turns k s).state := by
  induction turns generalizing k s with
  | zero => rfl
  | succ turns ih =>
    refine (feBlockRun_outsideFe s).bind fun r s1 => ?_
    split
    · rfl
    · exact ih (k + 1) s1

theorem feRunRun_outsideFe (mode : BitVec 24) (s : State) : Leaves outsideFe s (feRunRun mode s).state :=
  (feStartRun_outsideFe mode s).bind fun _ s1 => (feRunLoop_outsideFe _ 0 s1).bind fun _ s2 =>
    (feFinishRun_outsideFe s2).bind fun _ _ => rfl

section
variable {s : State}

theorem OutcomeLeaves.feReply (r : Response) : OutcomeLeaves outsideFe s (.next (respond r s)) :=
  .reply outsideFe_hidesPorts r (.refl outsideFe s)

theorem OutcomeLeaves.feRun {r : Run Response} (h : Leaves outsideFe s r.state) :
    OutcomeLeaves outsideFe s (.next (finishRun .fe r)) :=
  .run outsideFe_hidesPorts (fun _ _ _ => rfl) h

/-- R252: what lies outside FE stays, whether FE is active or not. -/
theorem exec_fe_outsideFe {i : Instr} {mode : BitVec 24} (s : State)
    (hi : i = .feStart mode ∨ i = .feBlock ∨ i = .feFinish ∨ i = .feRun mode) : OutcomeLeaves outsideFe s (exec i s) := by
  rcases hi with rfl | rfl | rfl | rfl
  · exact .ite (.feRun (feStartRun_outsideFe mode s)) (.feReply _)
  · exact .ite (.feRun (feBlockRun_outsideFe s)) (.ite (.feReply _) (.feReply _))
  · exact .ite (.feRun (feFinishRun_outsideFe s)) (.ite (.feReply _) (.feReply _))
  · exact .ite (.feRun (feRunRun_outsideFe mode s)) (.feReply _)

end

/-! ### The frame decoder and the adapter (R181 to R193) -/

theorem srcRead_outsideFd (n : Nat) (s : State) : Leaves outsideFd s (srcRead n s).state :=
  srcRead_leaves outsideFd_hidesPorts n s

theorem readOptional_outsideFd (present : Bool) (n : Nat) (s : State) :
    Leaves outsideFd s (readOptional present n s).state := by
  unfold readOptional
  split
  · exact srcRead_outsideFd n s
  · rfl

theorem fdOpenRun_outsideFd (s : State) : Leaves outsideFd s (fdOpenRun s).state := by
  refine (srcRead_outsideFd 4 (openClear s)).bind fun m s1 => ?_
  split
  · rfl
  refine (srcRead_outsideFd 2 s1).bind fun fb s2 => ?_
  split
  · rfl
  split
  · rfl
  refine (readOptional_outsideFd _ 8 s2).bind fun cs s3 => (readOptional_outsideFd _ 4 s3).bind fun di s4 =>
    (srcRead_outsideFd 1 s4).bind fun hc s5 => ?_
  dsimp only
  split <;> rfl

theorem fdEndRun_outsideFd (s : State) : Leaves outsideFd s (fdEndRun s).state := by
  unfold fdEndRun
  split
  · rfl
  · refine (srcRead_outsideFd 4 s).bind fun t s1 => ?_
    split <;> rfl

theorem checkBlockRun_outsideFd (s : State) : Leaves outsideFd s (checkBlockRun s).state := by
  unfold checkBlockRun
  split
  · refine (srcRead_outsideFd 4 s).bind fun c s1 => ?_
    split <;> rfl
  · rfl

theorem deliverRun_outsideFd (o : List Byte) (s : State) : Leaves outsideFd s (deliverRun o s).state := by
  unfold deliverRun
  dsimp only
  split <;> rfl

theorem fdDataRun_outsideFd (w : Word) (s : State) : Leaves outsideFd s (fdDataRun w s).state := by
  unfold fdDataRun
  split
  · rfl
  refine (srcRead_outsideFd _ s).bind fun b s1 => Leaves.bind (checkBlockRun_outsideFd { s1 with din := b }) fun _ s2 => ?_
  split
  · rfl
  · exact deliverRun_outsideFd _ s2

theorem fdBlockRun_outsideFd (s : State) : Leaves outsideFd s (fdBlockRun s).state := by
  refine (srcRead_outsideFd 4 (blockClear s)).bind fun lw s1 => ?_
  split
  · exact fdEndRun_outsideFd s1
  · exact fdDataRun_outsideFd _ s1

theorem fdBlockAny_outsideFd (s : State) : Leaves outsideFd s (fdBlockAny s).state := by
  unfold fdBlockAny
  split
  · rfl
  · exact fdBlockRun_outsideFd s

theorem fdAllLoop_outsideFd (turns k : Nat) (s : State) : Leaves outsideFd s (fdAllLoop turns k s).state := by
  induction turns generalizing k s with
  | zero => rfl
  | succ turns ih =>
    refine (fdBlockRun_outsideFd s).bind fun r s1 => ?_
    split
    · rfl
    · exact (snkWrite_leaves outsideFd_hidesPorts s1.out s1).bind fun _ s2 => ih (k + 1) s2

theorem fdAllRun_outsideFd (s : State) : Leaves outsideFd s (fdAllRun s).state :=
  (fdOpenRun_outsideFd s).bind fun _ s1 => (fdAllLoop_outsideFd _ 0 s1).bind fun _ _ => rfl

theorem rdFillRun_outsideFd (s : State) : Leaves outsideFd s (rdFillRun s).state := by
  unfold rdFillRun
  split
  · rfl
  · refine (fdBlockAny_outsideFd s).bind fun _ s1 => ?_
    split <;> rfl

section
variable {s : State}

theorem OutcomeLeaves.fdReply (r : Response) : OutcomeLeaves outsideFd s (.next (respond r s)) :=
  .reply outsideFd_hidesPorts r (.refl outsideFd s)

theorem OutcomeLeaves.fdRun {r : Run Response} (h : Leaves outsideFd s r.state) :
    OutcomeLeaves outsideFd s (.next (finishRun .fd r)) :=
  .run outsideFd_hidesPorts (fun _ _ _ => rfl) h

theorem execFdBlock_outsideFd (s : State) : OutcomeLeaves outsideFd s (execFdBlock s) := by
  unfold execFdBlock
  split
  · exact .fdReply _
  · exact .fdReply _
  · exact .fdRun (fdBlockAny_outsideFd s)
  · exact .fdRun (fdBlockAny_outsideFd s)

theorem execRdFill_outsideFd (s : State) : OutcomeLeaves outsideFd s (execRdFill s) := by
  unfold execRdFill
  split
  · exact .fdReply _
  · exact .fdReply _
  · exact .fdRun (rdFillRun_outsideFd s)
  · exact .fdRun (rdFillRun_outsideFd s)

/-- R252: what lies outside FD stays, whatever state FD is in. -/
theorem exec_fd_outsideFd {i : Instr} (s : State) (hi : i = .fdOpen ∨ i = .fdBlock ∨ i = .fdAll ∨ i = .rdFill) :
    OutcomeLeaves outsideFd s (exec i s) := by
  rcases hi with rfl | rfl | rfl | rfl
  · exact .fdRun (fdOpenRun_outsideFd s)
  · exact execFdBlock_outsideFd s
  · exact .fdRun (fdAllRun_outsideFd s)
  · exact execRdFill_outsideFd s

end

/-! ### The fields of a part that stays -/

section
variable {s t : State}

theorem Leaves.fields_outsideFe (h : Leaves outsideFe s t) :
    t.fd = s.fd ∧ t.hdr = s.hdr ∧ t.din = s.din ∧ t.out = s.out ∧ t.dwin = s.dwin ∧ t.rpos = s.rpos ∧
      t.dict = s.dict ∧ t.settings = s.settings ∧ t.dictId = s.dictId ∧ t.csizeLo = s.csizeLo ∧ t.csizeHi = s.csizeHi := by
  simp_all [Leaves, outsideFe]

theorem Leaves.fields_outsideFd (h : Leaves outsideFd s t) :
    t.fe = s.fe ∧ t.win = s.win ∧ t.sink = s.sink ∧ t.t = s.t ∧ t.tpl = s.tpl ∧
      t.dict = s.dict ∧ t.settings = s.settings ∧ t.dictId = s.dictId ∧ t.csizeLo = s.csizeLo ∧ t.csizeHi = s.csizeHi := by
  simp_all [Leaves, outsideFd]

end

/-- Settles O58: what each statement names lies outside the unit. -/
theorem unitsAreIndependent : Obligations.UnitsAreIndependent :=
  fun s t _ _ hexec => ⟨fun hi => (exec_fe_outsideFe s hi t hexec).fields_outsideFe,
    fun hi => (exec_fd_outsideFd s hi t hexec).fields_outsideFd⟩

end Sys2Proof.Machine
end

section
/-! SUPPORT. The reset state (R270): the table files hold no entry, and each part of the invariant holds there. The parts are
separate rules because each has a reason of its own: the buffers are empty, and neither unit has a frame open. -/

namespace Sys2Proof.Machine

/-! ### The table files -/

/-- An empty association list is a table file all of whose entries are `None` (R24). -/
theorem tableGet_reset_t (h : Nat) : tableGet State.reset.t h = none := tableGet_nil h

theorem tableGet_reset_tpl (h : Nat) : tableGet State.reset.tpl h = none := tableGet_nil h

/-- Settles O1: the table files entry by entry, every other piece of state by its reset value. -/
theorem resetLeavesSpecValues : Obligations.ResetLeavesSpecValues := by
  have htables : ∀ h, tableGet State.reset.t h = none ∧ tableGet State.reset.tpl h = none :=
    fun h => ⟨tableGet_reset_t h, tableGet_reset_tpl h⟩
  have hsettings : State.reset.settings.setWidth 32 = 0x1D#32 := by decide
  exact ⟨htables, rfl, rfl, rfl, rfl, rfl, rfl, hsettings, rfl, rfl, rfl, rfl, rfl, rfl, rfl⟩

/-! ### The parts of the invariant -/

/-- The parameters are those the model chose (log 1). -/
theorem reset_cfg_valid : State.reset.cfg.valid := by decide

theorem reset_buffersFit : BuffersFit State.reset :=
  ⟨Nat.zero_le _, Nat.zero_le _, Nat.zero_le _, Nat.zero_le _, Nat.zero_le _, Nat.zero_le _, le_rfl⟩

theorem reset_feActive : ¬ feActive State.reset = true := by decide

theorem reset_fdActive : ¬ fdActive State.reset = true := by decide

/-- FE is in Init without an error, and no frame is open. -/
theorem reset_feOk : FeOk State.reset :=
  ⟨nofun, nofun, .inl rfl, ⟨nofun, nofun⟩, Nat.zero_le _, fun ha => absurd ha reset_feActive⟩

/-- FD is Closed without an error, and no frame is open. -/
theorem reset_fdOk : FdOk State.reset :=
  ⟨⟨nofun, nofun⟩, nofun, fun ha => absurd ha reset_fdActive⟩

/-- Settles O60: the invariant part by part. -/
theorem resetMeetsInvariant : Obligations.ResetMeetsInvariant :=
  ⟨reset_cfg_valid, reset_tablesWf, reset_buffersFit, reset_feOk, reset_fdOk⟩

end Sys2Proof.Machine
end
